-- ==== Sys2Proof/Word.lean ====
section
/-! DEFINITION. The word types and the small name types that syntax, decoding and the machine share. -/

namespace Sys2Proof

/-- One byte of the stream memory (20_memory.md R61). -/
abbrev Byte := BitVec 8

/-- A host register and every SD quantity: 32 bits, the widest legal `CUR_W` and `LEN_W` (00_scope.md R6). -/
abbrev Word := BitVec 32

/-- A window word and the mask of the LM (10_state.md R32). -/
abbrev DWord := BitVec 64

/-- The word a natural number is narrowed to after an exact computation (00_scope.md R9). -/
abbrev Word.ofNat (n : Nat) : Word := BitVec.ofNat 32 n

/-- The nine tag classes (30_encoding.md R87, R97). -/
inductive TagClass where
  | litShort | litMid | litExt1 | litExt2 | litExt3 | litExt4 | copy1 | copy2 | copy4
  deriving DecidableEq, Repr

/-- The two kinds of symbol record (40_symbol_decoder.md R117). -/
inductive SymKind where
  | lit | copy
  deriving DecidableEq, Repr

/-- The two register banks (20_memory.md R65). -/
inductive Bank where
  | sd | lm
  deriving DecidableEq, Repr

end Sys2Proof
end

