-- ==== Sys2Proof/Config.lean ====
section
/-! DEFINITION. The implementation parameters of 00_scope.md R6 and their values for the instance that State.reset is. -/

namespace Sys2Proof

/-- The parameters of one instance (00_scope.md R6). `OFF_W` is fixed at 32: it is the type of the record field `off`.
Log entry 1: a State carries them, and no step changes them. -/
structure Params where
  /-- `CUR_W`: width of stream addresses and of the registers that hold them. -/
  curW : Nat
  /-- `LEN_W`: width of lengths, counters and output positions. -/
  lenW : Nat
  /-- `MAX_WORDS`: number of window word registers. -/
  maxWords : Nat
  /-- `SINK_DEPTH`: how many records the SINK port holds. -/
  sinkDepth : Nat
  /-- `SD_BASE`. -/
  sdBase : Nat
  /-- `LM_BASE`. -/
  lmBase : Nat
  /-- The platform address of stream address 0: where the platform places the stream memory (20_memory.md R74,
  93_implementation_defined.md I10; log entry 21). -/
  streamBase : Nat
  deriving DecidableEq, Repr

/-- The legal ranges of 00_scope.md R6. -/
abbrev Params.legal (p : Params) : Prop :=
  1 ≤ p.curW ∧ p.curW ≤ 32 ∧ 1 ≤ p.lenW ∧ p.lenW ≤ 32 ∧ 1 ≤ p.maxWords ∧ p.maxWords ≤ 8 ∧ 1 ≤ p.sinkDepth

namespace Config

/-- `MASK_W`, fixed at 64 (00_scope.md R6). -/
abbrev maskW : Nat := 64

/-- How many bytes a register bank spans (20_memory.md R65). -/
abbrev bankBytes : Nat := 128

/-- OPEN in the spec: `SINK_DEPTH` is any number at least 1; this is the number less 1 (00_scope.md R6, D22). -/
opaque sinkDepthLess1 : Nat

/-- OPEN in the spec: the platform's address of the SD bank (00_scope.md R6, D6). -/
opaque sdBase : Nat

/-- OPEN in the spec: the platform's address of the LM bank (00_scope.md R6, D6). -/
opaque lmBase : Nat

/-- OPEN in the spec: where the platform places the stream memory (20_memory.md R74, 93_implementation_defined.md I10). -/
opaque streamBase : Nat

/-- The instance State.reset describes: the defaults the spec decides, and the OPEN values left open. -/
def params : Params where
  curW := 32
  lenW := 32
  maxWords := 3
  sinkDepth := sinkDepthLess1 + 1
  sdBase := sdBase
  lmBase := lmBase
  streamBase := streamBase

end Config

end Sys2Proof
end

