-- ==== Sys2Proof/Syntax.lean ====
section
/-! DEFINITION. The instructions: one constructor for each row of spec/opcode_table.json. -/

namespace Sys2Proof

/-- The rows of the opcode table. A field holds what the row's encoding carries and the hardware reads; bits the spec
says are ignored or never read (a START word's bits 31:1, the window bits after a flag) are no operands, and a literal's
payload is stream data the SD does not read (log entry 9). -/
inductive Instr where
  /-- `LIT_SHORT`: `l` is `b0[3:2]` (30_encoding.md R89, R90). -/
  | litShort (l : BitVec 2)
  /-- `LIT_MID`: `l` is `b0[7:2]`, 4..59 (R89, R90). -/
  | litMid (l : BitVec 6)
  /-- `LIT_EXT1`: `v` is the extension byte (R91). -/
  | litExt1 (v : BitVec 8)
  /-- `LIT_EXT2`: `v` is the little-endian value of two extension bytes (R91). -/
  | litExt2 (v : BitVec 16)
  /-- `LIT_EXT3`: three extension bytes (R91). -/
  | litExt3 (v : BitVec 24)
  /-- `LIT_EXT4`: four extension bytes (R91). -/
  | litExt4 (v : BitVec 32)
  /-- `COPY1`: `l` is `Ll = b0[4:2]`, `off` is `{Oh, Olo}` (R92, R93). -/
  | copy1 (l : BitVec 3) (off : BitVec 11)
  /-- `COPY2`: `l` is `L6 = b0[7:2]` (R94). -/
  | copy2 (l : BitVec 6) (off : BitVec 16)
  /-- `COPY4`: `l` is `L6 = b0[7:2]` (R95). -/
  | copy4 (l : BitVec 6) (off : BitVec 32)
  /-- `LEN3_W2`: the window flag 0 (R100, 42_len3_mask.md R180). -/
  | len3W2
  /-- `LEN3_W3`: the window flag 1 (R100, 42_len3_mask.md R181). -/
  | len3W3
  /-- `SD_START`: a write to `SD_CTRL` with bit 0 set (R101, 43_host_interface.md R206). -/
  | sdStart
  /-- `LM_START`: a write to `LM_CTRL` with bit 0 set (R101, 43_host_interface.md R207). -/
  | lmStart
  deriving DecidableEq, Repr

end Sys2Proof
end

