-- ==== Sys2Proof/WellFormed.lean ====
section
/-! DEFINITION. Which instructions an encoding exists for. -/

namespace Sys2Proof

/-- Every field's type is its encoding's range but for `LIT_MID`, whose `L` is 4..59 (30_encoding.md R87): a smaller `L`
is `LIT_SHORT`'s tag byte and a larger one an extended literal's. -/
def Instr.wellFormed : Instr → Bool
  | .litMid l => decide (4 ≤ l.toNat) && decide (l.toNat ≤ 59)
  | .litShort _ | .litExt1 _ | .litExt2 _ | .litExt3 _ | .litExt4 _ => true
  | .copy1 _ _ | .copy2 _ _ | .copy4 _ _ => true
  | .len3W2 | .len3W3 | .sdStart | .lmStart => true

end Sys2Proof
end

