-- ==== Sys2Proof/Decode.lean ====
section
/-! DEFINITION. The decoder, total on any words and rejecting by name, and the encoder written from the same tables. -/

namespace Sys2Proof

/-- The words of one instruction, in the encoding space it lives in (30_encoding.md R86, R100, R101). -/
inductive Words where
  /-- Stream bytes in address order, the tag byte first. -/
  | stream (bytes : List Byte)
  /-- Window bits by rising position, the flag first. -/
  | window (bits : List Bool)
  /-- One 32-bit host write. -/
  | hostWrite (bank : Bank) (offset : Nat) (value : Word)
  deriving DecidableEq, Repr

/-- Why words are no instruction. -/
inductive Reject where
  /-- There is no byte at all. -/
  | noTagByte
  /-- The tag's extension bytes are not all there (40_symbol_decoder.md R122). -/
  | headerCut (cls : TagClass)
  /-- There is no flag bit. -/
  | noFlagBit
  /-- The write is no START: another register, or bit 0 clear (43_host_interface.md R205). -/
  | notACommand
  deriving DecidableEq, Repr

/-- The class of a tag byte, in the order of the table of 30_encoding.md R87. -/
def tagClass (b0 : Byte) : TagClass :=
  if b0.extractLsb' 0 2 = 1#2 then .copy1
  else if b0.extractLsb' 0 2 = 2#2 then .copy2
  else if b0.extractLsb' 0 2 = 3#2 then .copy4
  else if b0.toNat < 16 then .litShort
  else if b0 = 0xF0#8 then .litExt1
  else if b0 = 0xF4#8 then .litExt2
  else if b0 = 0xF8#8 then .litExt3
  else if b0 = 0xFC#8 then .litExt4
  else .litMid

/-- `nx`, the number of extension bytes of a class (30_encoding.md R87). -/
def TagClass.nx : TagClass → Nat
  | .litShort | .litMid => 0
  | .litExt1 | .copy1 => 1
  | .litExt2 | .copy2 => 2
  | .litExt3 => 3
  | .litExt4 | .copy4 => 4

/-- The class code a record carries (30_encoding.md R97). -/
def TagClass.code : TagClass → BitVec 4
  | .litShort => 0
  | .litMid => 1
  | .litExt1 => 2
  | .litExt2 => 3
  | .litExt3 => 4
  | .litExt4 => 5
  | .copy1 => 6
  | .copy2 => 7
  | .copy4 => 8

/-- The kind of a class: literal for codes 0 to 5, copy for 6 to 8 (40_symbol_decoder.md R117). -/
def TagClass.kind : TagClass → SymKind
  | .litShort | .litMid | .litExt1 | .litExt2 | .litExt3 | .litExt4 => .lit
  | .copy1 | .copy2 | .copy4 => .copy

/-- The 1-bit code of a kind: `LIT` 0, `COPY` 1 (40_symbol_decoder.md R117). -/
def SymKind.code : SymKind → BitVec 1
  | .lit => 0
  | .copy => 1

/-- One stream symbol's header and the bytes after it. Multi-byte fields are little-endian (20_memory.md R66). -/
def decodeStream : List Byte → Except Reject (Instr × List Byte)
  | [] => .error .noTagByte
  | b0 :: rest =>
    match tagClass b0, rest with
    | .litShort, r => .ok (.litShort (b0.extractLsb' 2 2), r)
    | .litMid, r => .ok (.litMid (b0.extractLsb' 2 6), r)
    | .litExt1, e1 :: r => .ok (.litExt1 e1, r)
    | .litExt2, e1 :: e2 :: r => .ok (.litExt2 (e2 ++ e1), r)
    | .litExt3, e1 :: e2 :: e3 :: r => .ok (.litExt3 (e3 ++ e2 ++ e1), r)
    | .litExt4, e1 :: e2 :: e3 :: e4 :: r => .ok (.litExt4 (e4 ++ e3 ++ e2 ++ e1), r)
    | .copy1, b1 :: r => .ok (.copy1 (b0.extractLsb' 2 3) (b0.extractLsb' 5 3 ++ b1), r)
    | .copy2, b1 :: b2 :: r => .ok (.copy2 (b0.extractLsb' 2 6) (b2 ++ b1), r)
    | .copy4, b1 :: b2 :: b3 :: b4 :: r =>
      .ok (.copy4 (b0.extractLsb' 2 6) (b4 ++ b3 ++ b2 ++ b1), r)
    | cls, _ => .error (.headerCut cls)

/-- The instruction a flag bit selects (30_encoding.md R100). -/
def decodeFlag (flag : Bool) : Instr :=
  if flag then .len3W3 else .len3W2

/-- A run of window bits: the first is the flag and the others are never read (30_encoding.md R100). -/
def decodeWindow : List Bool → Except Reject Instr
  | [] => .error .noFlagBit
  | flag :: _ => .ok (decodeFlag flag)

/-- A host write: a START when it goes to offset 0 with bit 0 set; bits 31:1 are ignored (30_encoding.md R101). -/
def decodeCommand (bank : Bank) (offset : Nat) (value : Word) : Except Reject Instr :=
  if offset = 0 ∧ value.getLsbD 0 = true then
    match bank with
    | .sd => .ok .sdStart
    | .lm => .ok .lmStart
  else .error .notACommand

/-- The instruction that words hold. -/
def decode : Words → Except Reject Instr
  | .stream bytes => (decodeStream bytes).map Prod.fst
  | .window bits => decodeWindow bits
  | .hostWrite bank offset value => decodeCommand bank offset value

/-- The first `n` bytes of a number, the least significant first: how stream bytes lie in memory (20_memory.md R66). -/
def leBytes : Nat → Nat → List Byte
  | 0, _ => []
  | n + 1, w => BitVec.ofNat 8 w :: leBytes n (w / 256)

/-- The longest header: `COPY4`'s and `LIT_EXT4`'s tag byte and four more (30_encoding.md R86). -/
def maxHeaderBytes : Nat := 5

/-- The words an opcode-table word of `nbits` bits stands for. The table's rows live in three encoding spaces, and a
number alone does not say which (log entry 7): fewer than 8 bits are window bits, 32 bits with bit 0 set a host write to
`SD_CTRL`, anything else stream bytes. -/
def tableWords (nbits w : Nat) : Words :=
  if nbits < 8 then .window [w.testBit 0, w.testBit 1, w.testBit 2]
  else if nbits = 32 ∧ w.testBit 0 = true then .hostWrite .sd 0 (Word.ofNat w)
  else .stream (leBytes maxHeaderBytes w)

/-- The instruction the decoder reads from an opcode-table word; none where it rejects. -/
def decodeTableWord (nbits w : Nat) : Option Instr :=
  match decode (tableWords nbits w) with
  | .ok i => some i
  | .error _ => none

/-- The header bytes of a stream symbol, from the formats of 30_encoding.md R89 to R95; none for the other rows. -/
def Instr.header : Instr → List Byte
  | .litShort l => [(0#4 ++ l ++ 0#2 : BitVec 8)]
  | .litMid l => [(l ++ 0#2 : BitVec 8)]
  | .litExt1 v => [0xF0#8, v]
  | .litExt2 v => [0xF4#8, v.extractLsb' 0 8, v.extractLsb' 8 8]
  | .litExt3 v => [0xF8#8, v.extractLsb' 0 8, v.extractLsb' 8 8, v.extractLsb' 16 8]
  | .litExt4 v => [0xFC#8, v.extractLsb' 0 8, v.extractLsb' 8 8, v.extractLsb' 16 8, v.extractLsb' 24 8]
  | .copy1 l off => [(off.extractLsb' 8 3 ++ l ++ 1#2 : BitVec 8), off.extractLsb' 0 8]
  | .copy2 l off => [(l ++ 2#2 : BitVec 8), off.extractLsb' 0 8, off.extractLsb' 8 8]
  | .copy4 l off =>
    [(l ++ 3#2 : BitVec 8), off.extractLsb' 0 8, off.extractLsb' 8 8, off.extractLsb' 16 8, off.extractLsb' 24 8]
  | .len3W2 | .len3W3 | .sdStart | .lmStart => []

/-- The words of an instruction; bits the spec says are ignored or never read are 0. -/
def encode : Instr → Words
  | .len3W2 => .window [false, false]
  | .len3W3 => .window [true, false, false]
  | .sdStart => .hostWrite .sd 0 1#32
  | .lmStart => .hostWrite .lm 0 1#32
  | .litShort l => .stream (Instr.litShort l).header
  | .litMid l => .stream (Instr.litMid l).header
  | .litExt1 v => .stream (Instr.litExt1 v).header
  | .litExt2 v => .stream (Instr.litExt2 v).header
  | .litExt3 v => .stream (Instr.litExt3 v).header
  | .litExt4 v => .stream (Instr.litExt4 v).header
  | .copy1 l off => .stream (Instr.copy1 l off).header
  | .copy2 l off => .stream (Instr.copy2 l off).header
  | .copy4 l off => .stream (Instr.copy4 l off).header

/-- The tag class of a stream symbol; none for the rows that are no stream symbols. -/
def Instr.tagClass? : Instr → Option TagClass
  | .litShort _ => some .litShort
  | .litMid _ => some .litMid
  | .litExt1 _ => some .litExt1
  | .litExt2 _ => some .litExt2
  | .litExt3 _ => some .litExt3
  | .litExt4 _ => some .litExt4
  | .copy1 _ _ => some .copy1
  | .copy2 _ _ => some .copy2
  | .copy4 _ _ => some .copy4
  | .len3W2 | .len3W3 | .sdStart | .lmStart => none

end Sys2Proof
end

