-- ==== Sys2Proof/Machine/State.lean ====
section
/-! DEFINITION. Everything the spec gives the machine, as plain data, and the state after reset. -/

namespace Sys2Proof.Machine

/-- `SD.STATE` and `LM.STATE`, a three-valued type (10_state.md R22, R33). -/
inductive RunState where
  | idle | busy | done
  deriving DecidableEq, Repr

/-- `SD.RESULT` (10_state.md R23). -/
inductive SdResult where
  | none | complete | endOfStream | truncated | overrun | badOffset | errContract
  deriving DecidableEq, Repr

/-- `LM.RESULT` (10_state.md R34). -/
inductive LmResult where
  | none | ok | errInsufficient | errContract
  deriving DecidableEq, Repr

/-- A symbol record (40_symbol_decoder.md R117). -/
structure SymRec where
  cls : TagClass
  kind : SymKind
  tag : Word
  width : Word
  dst : Word
  len : Word
  off : Word
  litStart : Word
  deriving DecidableEq, Repr

/-- The Symbol Decoder's registers and its output sequence (10_state.md R21, R30). -/
structure SdRegs where
  state : RunState
  result : SdResult
  streamLen : Word
  startCursor : Word
  ulen : Word
  cursor : Word
  bytesLeft : Word
  dstPos : Word
  symCount : Word
  out : List SymRec
  deriving DecidableEq, Repr

/-- The values one `LM_Compute` works on, hidden from the host (42_len3_mask.md R179; 10_state.md R40; log entry 8):
the index of the next output bit, the window position of the next flag, the mask so far. -/
structure LmWork where
  k : Nat
  p : Nat
  m : DWord
  deriving DecidableEq, Repr

/-- The working values at the start of `LM_Compute` and between steps. -/
def LmWork.zero : LmWork := { k := 0, p := 0, m := 0 }

/-- The Len3 Mask Engine's registers (10_state.md R32). `w` has one word for each `i < MAX_WORDS`. -/
structure LmRegs where
  state : RunState
  result : LmResult
  limit : BitVec 8
  nwords : BitVec 8
  w : List DWord
  mask : DWord
  consumed : BitVec 8
  work : LmWork
  deriving DecidableEq, Repr

/-- Stream memory: the cells that do not read as `Memory.blank`, by rising address (20_memory.md R61; log entry 3). -/
abbrev Memory := List Host.Cell

/-- The stream addresses `lo .. hi-1` that a run has borrowed (20_memory.md R76; log entry 11). -/
structure Loan where
  lo : Word
  hi : Word
  deriving DecidableEq, Repr

/-- What a host access names: a bank and an offset (43_host_interface.md R203), or an address that lies in a bank
(10_state.md R41, R44). -/
inductive Place where
  | reg (bank : Bank) (offset : Nat)
  | bus (addr : Nat)
  deriving DecidableEq, Repr

/-- One move of one agent (00_scope.md R5). -/
inductive Move where
  /-- The SD takes its turn (40_symbol_decoder.md R119). -/
  | sd
  /-- The LM takes its turn (42_len3_mask.md R179). -/
  | lm
  /-- The SINK accepts the oldest waiting record, if there is one (40_symbol_decoder.md R118). -/
  | sink
  /-- The platform asserts reset (70_reset_and_hazards.md R251). -/
  | reset
  /-- The host reads a register with an access of `bits` bits (43_host_interface.md R201). -/
  | read (at_ : Place) (bits : Nat)
  /-- The host writes a register with an access of `bits` bits (43_host_interface.md R202). -/
  | write (at_ : Place) (bits : Nat) (value : Word)
  /-- The host writes one byte of stream memory, at a stream address (20_memory.md R61). -/
  | fill (addr : Nat) (byte : Byte)
  /-- The host writes one byte of stream memory, at a platform address (20_memory.md R74; log entry 21). -/
  | fillBus (addr : Nat) (byte : Byte)
  deriving DecidableEq, Repr

/-- The state of the block, the SINK port, the stream memory and the host's side (INVENTORY.md, State). -/
structure State where
  /-- The instance's parameters; no step changes them (log entry 1). -/
  params : Params
  sd : SdRegs
  lm : LmRegs
  /-- The records handed to the SINK port and not yet accepted, oldest first (40_symbol_decoder.md R118). -/
  port : List SymRec
  /-- The records the SINK has accepted, oldest first, over all runs (70_reset_and_hazards.md R252). -/
  accepted : List SymRec
  mem : Memory
  loan : Option Loan
  /-- The model's own: what the host's last register read returned. -/
  readData : Word
  /-- The model's own: the moves to come (log entry 4). -/
  agenda : List Move
  deriving DecidableEq, Repr

/-- Why the machine stops with a fault. -/
inductive Fault where
  /-- The host writes stream memory at an address at or above `2^CUR_W`, which does not exist (20_memory.md R61).
  Raised by a `fill` move. Safe: the spec gives such a write no effect (log entry 13). -/
  | noSuchStreamAddress
  deriving DecidableEq, Repr

/-- Why a step has no meaning. -/
inductive Refusal where
  /-- An instruction with no meaning yet. Raised by exec's arms only. Safe. -/
  | notModelled (mnemonic : String)
  /-- A host access that is not 32 bits wide or not at a multiple of 4 (20_memory.md R71, 93_implementation_defined.md
  I1). Raised by `read` and `write` moves. Safe: the spec asks for the refusal. -/
  | accessForm
  /-- A host access outside both banks (20_memory.md R65). Raised by `read` and `write` moves. Safe: it does not reach
  the block (log entry 12). -/
  | outsideBanks
  /-- The host writes a stream byte by a platform address outside the stream memory (20_memory.md R74). Raised by
  `fillBus` moves. Safe: it does not reach the stream memory (log entry 21). -/
  | outsideStream
  /-- The host writes a stream byte a run has borrowed (20_memory.md R76, 93_implementation_defined.md I2). Raised by
  `fill` and `fillBus` moves. Safe: the spec asks for the refusal. -/
  | streamWriteDuringRun
  deriving DecidableEq, Repr

/-- What a meaning, a move or a step answers. -/
abbrev Result := Host.Outcome State Fault Refusal

/-- The SD after reset (10_state.md R48). -/
def SdRegs.reset : SdRegs where
  state := .idle
  result := .none
  streamLen := 0
  startCursor := 0
  ulen := 0
  cursor := 0
  bytesLeft := 0
  dstPos := 0
  symCount := 0
  out := []

/-- The LM after reset (10_state.md R48). -/
def LmRegs.reset (maxWords : Nat) : LmRegs where
  state := .idle
  result := .none
  limit := 0
  nwords := 0
  w := List.replicate maxWords 0
  mask := 0
  consumed := 0
  work := LmWork.zero

/-- The machine right after reset (10_state.md R48), with nothing in stream memory, no record at the SINK and no move
to come (log entries 2, 3, 6). -/
def State.reset : State where
  params := Config.params
  sd := SdRegs.reset
  lm := LmRegs.reset Config.params.maxWords
  port := []
  accepted := []
  mem := []
  loan := none
  readData := 0
  agenda := []

end Sys2Proof.Machine
end

