-- ==== Sys2Proof/Machine/Flags.lean ====
section
/-! DEFINITION. The status fields and the checks that decide them: the only flags of this hardware are STATE and RESULT
(43_host_interface.md R203). -/

namespace Sys2Proof.Machine

/-- The code of `STATE` (10_state.md R22, R33). -/
def RunState.code : RunState → BitVec 2
  | .idle => 0
  | .busy => 1
  | .done => 2

/-- The code of `SD.RESULT` (10_state.md R23). -/
def SdResult.code : SdResult → BitVec 4
  | .none => 0
  | .complete => 1
  | .endOfStream => 2
  | .truncated => 3
  | .overrun => 4
  | .badOffset => 5
  | .errContract => 6

/-- The code of `LM.RESULT` (10_state.md R34). -/
def LmResult.code : LmResult → BitVec 2
  | .none => 0
  | .ok => 1
  | .errInsufficient => 2
  | .errContract => 3

/-- `SD_STATUS`: STATE in bits 1:0, RESULT in bits 7:4, the rest 0 (10_state.md R41, R43). -/
def sdStatusWord (sd : SdRegs) : Word :=
  (sd.result.code ++ 0#2 ++ sd.state.code : BitVec 8).setWidth 32

/-- `LM_STATUS`: STATE in bits 1:0, RESULT in bits 5:4, the rest 0 (10_state.md R44, R46). -/
def lmStatusWord (lm : LmRegs) : Word :=
  (lm.result.code ++ 0#2 ++ lm.state.code : BitVec 6).setWidth 32

/-- What a check of a symbol says: accept it, or stop the run with a cause. -/
inductive Verdict where
  | accept
  | stop (r : SdResult)
  deriving DecidableEq, Repr

/-- `NeedHdr(c, nx)`: the extension bytes are all in the stream (40_symbol_decoder.md R122). -/
def needHdr (sd : SdRegs) (nx : Nat) : Bool :=
  decide (sd.cursor.toNat + 1 + nx ≤ sd.streamLen.toNat)

/-- `CheckLiteral(c, nx, blen)` (40_symbol_decoder.md R123). -/
def checkLiteral (sd : SdRegs) (nx blen : Nat) : Verdict :=
  if blen > sd.bytesLeft.toNat then .stop .overrun
  else if sd.cursor.toNat + 1 + nx + blen > sd.streamLen.toNat then .stop .truncated
  else .accept

/-- `CheckCopy(blen, off)` (40_symbol_decoder.md R124, 90_conflicts.md C1). -/
def checkCopy (sd : SdRegs) (blen off : Nat) : Verdict :=
  if blen > sd.bytesLeft.toNat then .stop .overrun
  else if off = 0 ∨ off > sd.dstPos.toNat then .stop .badOffset
  else .accept

/-- The SD START contract: the start cursor is a valid index into the stream (60_exceptions.md R231). -/
def startCursorValid (sd : SdRegs) : Bool :=
  decide (sd.startCursor.toNat < sd.streamLen.toNat)

/-- The LM contract: `LIMIT ≤ MASK_W` and `NWORDS ≤ MAX_WORDS` (42_len3_mask.md R178). -/
def lmContract (maxWords : Nat) (lm : LmRegs) : Bool :=
  decide (lm.limit.toNat ≤ Config.maskW) && decide (lm.nwords.toNat ≤ maxWords)

end Sys2Proof.Machine
end

