-- ==== Sys2Proof/Machine/Ops.lean ====
section
/-! DEFINITION. The named operations over stream memory and registers, the one way a run stops (this hardware's
counterpart of taking an exception: 60_exceptions.md R226, R229) and the reset event. -/

namespace Sys2Proof.Machine

/-- What an address of stream memory that is not listed reads as (log entry 3: the spec does not say). -/
def Memory.blank : Byte := 0

/-- The byte at a stream address. -/
def Memory.read : Memory → Nat → Byte
  | [], _ => Memory.blank
  | (a, b) :: m, x => if a = x then b else Memory.read m x

/-- Store a byte, keeping the canonical form. -/
def Memory.write : Memory → Nat → Byte → Memory
  | [], x, v => if v = Memory.blank then [] else [(x, v)]
  | (a, b) :: m, x, v =>
    if x < a then (if v = Memory.blank then (a, b) :: m else (x, v) :: (a, b) :: m)
    else if x = a then (if v = Memory.blank then m else (x, v) :: m)
    else (a, b) :: Memory.write m x v

/-- The canonical form: addresses strictly rise and no listed byte is blank. -/
abbrev Memory.wf (m : Memory) : Prop :=
  m.Pairwise (fun c d => c.1 < d.1) ∧ ∀ c ∈ m, c.2 ≠ Memory.blank

/-- Store consecutive bytes. -/
def Memory.writeBytes : Memory → Nat → List Byte → Memory
  | m, _, [] => m
  | m, a, b :: bs => Memory.writeBytes (Memory.write m a b) (a + 1) bs

/-- `MemRead(a, 1)` (00_scope.md R10). -/
def State.memRead (s : State) (a : Nat) : Byte := s.mem.read a

/-- The low `width` bits of a written value: all a narrower field keeps (43_host_interface.md R202). -/
def fieldBits (width : Nat) (v : Word) : Word := Word.ofNat (v.toNat % 2 ^ width)

/-- `finish(r)`: the only way an SD run ends (60_exceptions.md R229). -/
def finish (r : SdResult) (s : State) : State :=
  { s with sd := { s.sd with result := r, state := .done } }

/-- The SD has room at the SINK port (40_symbol_decoder.md R118). -/
def portHasRoom (s : State) : Bool := decide (s.port.length < s.params.sinkDepth)

/-- The four register writes and the emit of `Commit`, as one update (40_symbol_decoder.md R125): exact, then narrowed
(log entry 14). -/
def pushRecord (r : SymRec) (s : State) : State :=
  { s with
    sd := { s.sd with
      cursor := Word.ofNat (s.sd.cursor.toNat + r.width.toNat)
      bytesLeft := Word.ofNat (s.sd.bytesLeft.toNat - r.len.toNat)
      dstPos := Word.ofNat (s.sd.dstPos.toNat + r.len.toNat)
      symCount := Word.ofNat (s.sd.symCount.toNat + 1)
      out := s.sd.out ++ [r] }
    port := s.port ++ [r] }

/-- `Commit(c, rec)`: with no room at the port the step is held and changes nothing (40_symbol_decoder.md R118, R125). -/
def commit (r : SymRec) (s : State) : State :=
  if portHasRoom s then pushRecord r s else s

/-- An SD START that is taken (43_host_interface.md R206): the run's registers, then `st` and `r`, and the stream range
lent to the run (20_memory.md R76). -/
def beginSdRun (st : RunState) (r : SdResult) (s : State) : State :=
  { s with
    sd := { s.sd with
      cursor := s.sd.startCursor
      bytesLeft := s.sd.ulen
      dstPos := 0
      symCount := 0
      out := []
      state := st
      result := r }
    loan := some { lo := s.sd.startCursor, hi := s.sd.streamLen } }

/-- An LM START that is taken (43_host_interface.md R207). -/
def beginLmRun (s : State) : State :=
  { s with lm := { s.lm with state := .busy, result := .none } }

/-- The LM's working values set to the start of a computation (42_len3_mask.md R179). -/
def clearWork (s : State) : State :=
  { s with lm := { s.lm with work := LmWork.zero } }

/-- `LM_Fail(r)` (42_len3_mask.md R182). -/
def lmFail (r : LmResult) (s : State) : State :=
  { s with lm := { s.lm with mask := 0, consumed := 0, result := r, state := .done, work := LmWork.zero } }

/-- `LM_Succeed(M, p)` with the working `M` and `p` (42_len3_mask.md R183). -/
def lmSucceed (s : State) : State :=
  { s with lm := { s.lm with
      mask := s.lm.work.m
      consumed := BitVec.ofNat 8 s.lm.work.p
      result := .ok
      state := .done
      work := LmWork.zero } }

/-- One output bit of the LM: `M[k] <- bit; p <- p + width`, and on to the next `k` (42_len3_mask.md R180, R181). -/
def pushMaskBit (bit : Bool) (width : Nat) (s : State) : State :=
  { s with lm := { s.lm with work :=
      { k := s.lm.work.k + 1
        p := s.lm.work.p + width
        m := if bit then s.lm.work.m ||| (1#64 <<< s.lm.work.k) else s.lm.work.m &&& ~~~(1#64 <<< s.lm.work.k) } } }

/-- The reset event (70_reset_and_hazards.md R251, R252; log entry 16). Every register takes its reset value, the port
is emptied and no run goes on; stream memory, the SINK's records, the host's read data and the moves to come stay. -/
def resetEvent (s : State) : State :=
  { s with
    sd := SdRegs.reset
    lm := LmRegs.reset s.params.maxWords
    port := []
    loan := none }

/-- The bank and offset of a host access, or none outside both banks (20_memory.md R65; log entry 12). -/
def locate (p : Params) : Place → Option (Bank × Nat)
  | .reg bank offset => if offset < Config.bankBytes then some (bank, offset) else none
  | .bus addr =>
    if p.sdBase ≤ addr ∧ addr < p.sdBase + Config.bankBytes then some (.sd, addr - p.sdBase)
    else if p.lmBase ≤ addr ∧ addr < p.lmBase + Config.bankBytes then some (.lm, addr - p.lmBase)
    else none

/-- The stream address a platform address names, or none outside the stream memory (20_memory.md R61, R74; log
entry 21). -/
def locateStream (p : Params) (addr : Nat) : Option Nat :=
  if p.streamBase ≤ addr ∧ addr < p.streamBase + 2 ^ p.curW then some (addr - p.streamBase) else none

/-- The stream address lies in the range lent to a run (20_memory.md R76). -/
def onLoan (s : State) (a : Nat) : Bool :=
  match s.loan with
  | none => false
  | some l => decide (l.lo.toNat ≤ a) && decide (a < l.hi.toNat)

end Sys2Proof.Machine
end

