-- ==== Sys2Proof/Machine/Operands.lean ====
section
/-! DEFINITION. The operand forms: stream bytes, little-endian fields, lengths, offsets, records, window bits. -/

namespace Sys2Proof.Machine

/-- The `n` stream bytes from address `a` on. -/
def State.streamBytes (s : State) (a n : Nat) : List Byte :=
  (List.range n).map (fun i => s.memRead (a + i))

/-- `LE(a, n)`: the little-endian value of `n` stream bytes (00_scope.md R10). -/
def State.le (s : State) (a : Nat) : Nat → Nat
  | 0 => 0
  | n + 1 => s.le a n + (s.memRead (a + n)).toNat * 2 ^ (8 * n)

/-- The bytes the SD fetches for one symbol's header: at most the longest header, and none at or above `SD.STREAM_LEN`
(20_memory.md R62, R64; log entry 10). -/
def State.headerWindow (s : State) : List Byte :=
  s.streamBytes s.sd.cursor.toNat (min maxHeaderBytes (s.sd.streamLen.toNat - s.sd.cursor.toNat))

/-- `blen` of a stream symbol, the number of output bytes it stands for (30_encoding.md R90, R91, R93 to R95;
90_conflicts.md C5; log entry 20). -/
def blen : Instr → Nat
  | .litShort l => l.toNat + 1
  | .litMid l => l.toNat + 1
  | .litExt1 v => v.toNat + 1
  | .litExt2 v => v.toNat + 1
  | .litExt3 v => v.toNat + 1
  | .litExt4 v => v.toNat + 1
  | .copy1 l _ => l.toNat + 4
  | .copy2 l _ => l.toNat + 1
  | .copy4 l _ => l.toNat + 1
  | .len3W2 | .len3W3 | .sdStart | .lmStart => 0

/-- `off` of a copy, how far back its bytes come from; 0 for the other rows (30_encoding.md R93 to R95). -/
def copyOffset : Instr → Nat
  | .copy1 _ off => off.toNat
  | .copy2 _ off => off.toNat
  | .copy4 _ off => off.toNat
  | .litShort _ | .litMid _ | .litExt1 _ | .litExt2 _ | .litExt3 _ | .litExt4 _ => 0
  | .len3W2 | .len3W3 | .sdStart | .lmStart => 0

/-- The stream bytes of a symbol, payload included: `1 + nx` for a copy, `1 + nx + blen` for a literal
(30_encoding.md R86). -/
def encodedWidth (i : Instr) : Nat :=
  match i.tagClass? with
  | none => 0
  | some cls =>
    match cls.kind with
    | .lit => 1 + cls.nx + blen i
    | .copy => 1 + cls.nx

/-- The record of a literal at the cursor (40_symbol_decoder.md R117, R126 to R131; 90_conflicts.md C3). -/
def literalRecord (cls : TagClass) (len : Nat) (sd : SdRegs) : SymRec where
  cls := cls
  kind := .lit
  tag := sd.cursor
  width := Word.ofNat (1 + cls.nx + len)
  dst := sd.dstPos
  len := Word.ofNat len
  off := 0
  litStart := Word.ofNat (sd.cursor.toNat + 1 + cls.nx)

/-- The record of a copy at the cursor (40_symbol_decoder.md R117, R132 to R134). -/
def copyRecord (cls : TagClass) (len off : Nat) (sd : SdRegs) : SymRec where
  cls := cls
  kind := .copy
  tag := sd.cursor
  width := Word.ofNat (1 + cls.nx)
  dst := sd.dstPos
  len := Word.ofNat len
  off := Word.ofNat off
  litStart := 0

/-- The reference's single signed field: the offset of a copy, minus the payload's address for a literal. No hardware
register holds it (40_symbol_decoder.md R137). -/
def SymRec.legacyOffset (r : SymRec) : Int :=
  match r.kind with
  | .lit => -(r.litStart.toNat : Int)
  | .copy => (r.off.toNat : Int)

/-- `nbits`, the number of window positions (42_len3_mask.md R177). -/
def windowBits (lm : LmRegs) : Nat := 64 * lm.nwords.toNat

/-- `WBit(p)` (42_len3_mask.md R177). R177 leaves it undefined for `p ≥ nbits`, and `LM_Compute` never asks for it there;
this total function gives the stored bit of a word at or beyond NWORDS, and 0 past the last word (log entry 22). -/
def wbit (lm : LmRegs) (p : Nat) : Bool := (lm.w.getD (p / 64) 0).getLsbD (p % 64)

end Sys2Proof.Machine
end

