-- ==== Sys2Proof/Machine/Commands.lean ====
section
/-! DEFINITION. The host's two commands: SD_START and LM_START (43_host_interface.md R206 to R208). -/

namespace Sys2Proof.Machine

/-- `SD_START`: ignored while BUSY (43_host_interface.md R208), else a new run, which ends at once with `ERR_CONTRACT`
when the start cursor is no valid index (43_host_interface.md R206). -/
def execSdStart (s : State) : Result :=
  if s.sd.state = .busy then .next s
  else if startCursorValid s.sd then .next (beginSdRun .busy .none s)
  else .next (beginSdRun .done .errContract s)

/-- `LM_START`: ignored while BUSY (43_host_interface.md R208), else BUSY with no result; the mask and the consumed
count keep their values (43_host_interface.md R207). -/
def execLmStart (s : State) : Result :=
  if s.lm.state = .busy then .next s else .next (beginLmRun s)

end Sys2Proof.Machine
end

