-- ==== Sys2Proof/Machine/Copies.lean ====
section
/-! DEFINITION. The copy family: COPY1, COPY2, COPY4 (40_symbol_decoder.md R132 to R134). -/

namespace Sys2Proof.Machine

/-- A copy: its header, its checks, then commit it or stop (40_symbol_decoder.md R122, R124, R125). -/
def copySymbol (cls : TagClass) (len off : Nat) (s : State) : Result :=
  if needHdr s.sd cls.nx then
    match checkCopy s.sd len off with
    | .stop r => .next (finish r s)
    | .accept => .next (commit (copyRecord cls len off s.sd) s)
  else .next (finish .truncated s)

/-- `COPY1`: length 4 to 11, 11-bit offset (40_symbol_decoder.md R132). -/
def execCopy1 (l : BitVec 3) (off : BitVec 11) (s : State) : Result := copySymbol .copy1 (l.toNat + 4) off.toNat s

/-- `COPY2`: length 1 to 64, 16-bit offset (40_symbol_decoder.md R133; 90_conflicts.md C4). -/
def execCopy2 (l : BitVec 6) (off : BitVec 16) (s : State) : Result := copySymbol .copy2 (l.toNat + 1) off.toNat s

/-- `COPY4`: length 1 to 64, 32-bit offset (40_symbol_decoder.md R134; 90_conflicts.md C4). -/
def execCopy4 (l : BitVec 6) (off : BitVec 32) (s : State) : Result := copySymbol .copy4 (l.toNat + 1) off.toNat s

end Sys2Proof.Machine
end

