-- ==== Sys2Proof/Machine/Len3.lean ====
section
/-! DEFINITION. The LM's two flag instructions: LEN3_W2 and LEN3_W3 (42_len3_mask.md R180, R181). -/

namespace Sys2Proof.Machine

/-- `LEN3_W2`: output bit 0, two positions on (42_len3_mask.md R180). -/
def execLen3W2 (s : State) : Result := .next (pushMaskBit false 2 s)

/-- `LEN3_W3`: output bit 1, three positions on (42_len3_mask.md R181). -/
def execLen3W3 (s : State) : Result := .next (pushMaskBit true 3 s)

end Sys2Proof.Machine
end

