-- ==== Sys2Proof/Machine/Literals.lean ====
section
/-! DEFINITION. The literal family: LIT_SHORT, LIT_MID, LIT_EXT1 to LIT_EXT4 (40_symbol_decoder.md R126 to R131). -/

namespace Sys2Proof.Machine

/-- Check a literal and commit it, or stop (40_symbol_decoder.md R123, R125). -/
def literalBody (cls : TagClass) (len : Nat) (s : State) : Result :=
  match checkLiteral s.sd cls.nx len with
  | .stop r => .next (finish r s)
  | .accept => .next (commit (literalRecord cls len s.sd) s)

/-- An extended literal: its header first (40_symbol_decoder.md R122). -/
def extendedLiteral (cls : TagClass) (len : Nat) (s : State) : Result :=
  if needHdr s.sd cls.nx then literalBody cls len s else .next (finish .truncated s)

/-- `LIT_SHORT` (40_symbol_decoder.md R126). -/
def execLitShort (l : BitVec 2) (s : State) : Result := literalBody .litShort (l.toNat + 1) s

/-- `LIT_MID` (40_symbol_decoder.md R127; 90_conflicts.md C5). -/
def execLitMid (l : BitVec 6) (s : State) : Result := literalBody .litMid (l.toNat + 1) s

/-- `LIT_EXT1` (40_symbol_decoder.md R128; 90_conflicts.md C5). -/
def execLitExt1 (v : BitVec 8) (s : State) : Result := extendedLiteral .litExt1 (v.toNat + 1) s

/-- `LIT_EXT2` (40_symbol_decoder.md R129; 90_conflicts.md C5). -/
def execLitExt2 (v : BitVec 16) (s : State) : Result := extendedLiteral .litExt2 (v.toNat + 1) s

/-- `LIT_EXT3` (40_symbol_decoder.md R130; 90_conflicts.md C5). -/
def execLitExt3 (v : BitVec 24) (s : State) : Result := extendedLiteral .litExt3 (v.toNat + 1) s

/-- `LIT_EXT4`: the length can be `2^32`, so it is compared exactly (40_symbol_decoder.md R131; 90_conflicts.md C5). -/
def execLitExt4 (v : BitVec 32) (s : State) : Result := extendedLiteral .litExt4 (v.toNat + 1) s

end Sys2Proof.Machine
end

