-- ==== Sys2Proof/Machine/Dispatch.lean ====
section
/-! DEFINITION. One arm for each constructor of Instr. -/

namespace Sys2Proof.Machine

def exec (i : Instr) (s : State) : Host.Outcome State Fault Refusal :=
  match i with
  | .litShort l => Sys2Proof.Machine.execLitShort l s
  | .litMid l => Sys2Proof.Machine.execLitMid l s
  | .litExt1 v => Sys2Proof.Machine.execLitExt1 v s
  | .litExt2 v => Sys2Proof.Machine.execLitExt2 v s
  | .litExt3 v => Sys2Proof.Machine.execLitExt3 v s
  | .litExt4 v => Sys2Proof.Machine.execLitExt4 v s
  | .copy1 l off => Sys2Proof.Machine.execCopy1 l off s
  | .copy2 l off => Sys2Proof.Machine.execCopy2 l off s
  | .copy4 l off => Sys2Proof.Machine.execCopy4 l off s
  | .len3W2 => Sys2Proof.Machine.execLen3W2 s
  | .len3W3 => Sys2Proof.Machine.execLen3W3 s
  | .sdStart => Sys2Proof.Machine.execSdStart s
  | .lmStart => Sys2Proof.Machine.execLmStart s

end Sys2Proof.Machine
end

