-- ==== Sys2Proof/Machine/HostPort.lean ====
section
/-! DEFINITION. The register banks as the host sees them: what a read returns and what a write to a register other than
a command stores (10_state.md R41, R44, R47; 43_host_interface.md R201, R202, R204). -/

namespace Sys2Proof.Machine

/-- The low half of a 64-bit register (20_memory.md R67). -/
def loHalf (d : DWord) : Word := d.extractLsb' 0 32

/-- The high half of a 64-bit register (20_memory.md R67). -/
def hiHalf (d : DWord) : Word := d.extractLsb' 32 32

/-- A 64-bit register with its low half replaced. -/
def setLoHalf (d : DWord) (v : Word) : DWord := hiHalf d ++ v

/-- A 64-bit register with its high half replaced. -/
def setHiHalf (d : DWord) (v : Word) : DWord := v ++ loHalf d

/-- A read of the SD bank (10_state.md R41): CTRL, reserved bits and reserved offsets read 0. -/
def readSd (sd : SdRegs) (offset : Nat) : Word :=
  match offset with
  | 0x04 => sdStatusWord sd
  | 0x08 => sd.streamLen
  | 0x0C => sd.startCursor
  | 0x10 => sd.ulen
  | 0x14 => sd.cursor
  | 0x18 => sd.bytesLeft
  | 0x1C => sd.dstPos
  | 0x20 => sd.symCount
  | _ => 0

/-- The index of the window word an LM offset at or above `0x20` belongs to (10_state.md R44). -/
def windowIndex (offset : Nat) : Nat := (offset - 0x20) / 8

/-- A read of the LM bank (10_state.md R44): CTRL, reserved bits and reserved offsets read 0. -/
def readLm (maxWords : Nat) (lm : LmRegs) (offset : Nat) : Word :=
  match offset with
  | 0x04 => lmStatusWord lm
  | 0x08 => lm.limit.setWidth 32
  | 0x0C => lm.nwords.setWidth 32
  | 0x10 => lm.consumed.setWidth 32
  | 0x18 => loHalf lm.mask
  | 0x1C => hiHalf lm.mask
  | n =>
    if 0x20 ≤ n ∧ windowIndex n < maxWords then
      if n % 8 = 0 then loHalf (lm.w.getD (windowIndex n) 0)
      else if n % 8 = 4 then hiHalf (lm.w.getD (windowIndex n) 0)
      else 0
    else 0

/-- A read of a register (43_host_interface.md R201). -/
def readReg (s : State) (bank : Bank) (offset : Nat) : Word :=
  match bank with
  | .sd => readSd s.sd offset
  | .lm => readLm s.params.maxWords s.lm offset

/-- A write to the SD bank that is no command: a configuration register stores its field bits unless the SD is BUSY, and
any other offset ignores it (10_state.md R47; 43_host_interface.md R202, R204). -/
def writeSd (p : Params) (sd : SdRegs) (offset : Nat) (v : Word) : SdRegs :=
  if sd.state = .busy then sd
  else
    match offset with
    | 0x08 => { sd with streamLen := fieldBits p.curW v }
    | 0x0C => { sd with startCursor := fieldBits p.curW v }
    | 0x10 => { sd with ulen := fieldBits p.lenW v }
    | _ => sd

/-- A write to the LM bank that is no command (10_state.md R47; 43_host_interface.md R202, R204). -/
def writeLm (maxWords : Nat) (lm : LmRegs) (offset : Nat) (v : Word) : LmRegs :=
  if lm.state = .busy then lm
  else
    match offset with
    | 0x08 => { lm with limit := v.setWidth 8 }
    | 0x0C => { lm with nwords := v.setWidth 8 }
    | n =>
      if 0x20 ≤ n ∧ windowIndex n < maxWords then
        if n % 8 = 0 then
          { lm with w := lm.w.set (windowIndex n) (setLoHalf (lm.w.getD (windowIndex n) 0) v) }
        else if n % 8 = 4 then
          { lm with w := lm.w.set (windowIndex n) (setHiHalf (lm.w.getD (windowIndex n) 0) v) }
        else lm
      else lm

/-- A write to a register that is no command. -/
def writeReg (s : State) (bank : Bank) (offset : Nat) (v : Word) : State :=
  match bank with
  | .sd => { s with sd := writeSd s.params s.sd offset v }
  | .lm => { s with lm := writeLm s.params.maxWords s.lm offset v }

/-- The access has a form the block defines: 32 bits at a multiple of 4 (20_memory.md R71). -/
def accessOk (offset bits : Nat) : Bool := decide (bits = 32) && decide (offset % 4 = 0)

end Sys2Proof.Machine
end

