-- ==== Sys2Proof/Machine/Agents.lean ====
section
/-! DEFINITION. The moves of the four agents (00_scope.md R5), each the block's response to one turn. -/

namespace Sys2Proof.Machine

/-- The SD's turn (40_symbol_decoder.md R119 to R121, R242; log entry 19): a unit that is not BUSY takes no
step. The header's bytes are fetched and decoded; no byte is END_OF_STREAM (R120), a header cut short is TRUNCATED
(R122), and a decoded symbol runs. -/
def sdMove (s : State) : Result :=
  if s.sd.state ≠ .busy then .next s
  else if s.sd.bytesLeft = 0 then .next (finish .complete s)
  else
    match decodeStream s.headerWindow with
    | .error .noTagByte => .next (finish .endOfStream s)
    | .error _ => .next (finish .truncated s)
    | .ok (i, _) => exec i s

/-- The loop of `LM_Compute` over the output bits still to come (42_len3_mask.md R179). -/
def lmLoop : Nat → State → Result
  | 0, s => .next (lmSucceed s)
  | n + 1, s =>
    if windowBits s.lm ≤ s.lm.work.p then .next (lmFail .errInsufficient s)
    else
      match exec (decodeFlag (wbit s.lm s.lm.work.p)) s with
      | .next t => lmLoop n t
      | .fault f => .fault f
      | .refused r => .refused r

/-- `LM_Compute` (42_len3_mask.md R178, R179). -/
def lmCompute (s : State) : Result :=
  if lmContract s.params.maxWords s.lm then lmLoop s.lm.limit.toNat (clearWork s)
  else .next (lmFail .errContract s)

/-- The LM's turn: one step computes the whole result (42_len3_mask.md R176; 60_exceptions.md R242). -/
def lmMove (s : State) : Result :=
  if s.lm.state ≠ .busy then .next s else lmCompute s

/-- The SINK's turn: it accepts the oldest waiting record (40_symbol_decoder.md R118). -/
def sinkMove (s : State) : State :=
  match s.port with
  | [] => s
  | r :: rest => { s with port := rest, accepted := s.accepted ++ [r] }

/-- The host has read `SD.STATE = DONE`: the loan of the stream is over (20_memory.md R76; log entry 11). -/
def endsLoan (s : State) (bank : Bank) (offset : Nat) : Bool :=
  decide (bank = .sd) && decide (offset = 0x04) && decide (s.sd.state = .done)

/-- A host read of a register: it changes nothing of the block (43_host_interface.md R201). -/
def readAt (s : State) (bank : Bank) (offset : Nat) : State :=
  { s with
    readData := readReg s bank offset
    loan := if endsLoan s bank offset then none else s.loan }

/-- A host write: a command runs, any other write goes to the register (43_host_interface.md R202, R205). -/
def writeAt (s : State) (bank : Bank) (offset : Nat) (v : Word) : Result :=
  match decodeCommand bank offset v with
  | .ok i => exec i s
  | .error _ => .next (writeReg s bank offset v)

/-- A host access by place: refused outside the banks and in a form the block does not define (20_memory.md R65, R71). -/
def accessAt (s : State) (at_ : Place) (bits : Nat) (act : Bank → Nat → Result) : Result :=
  match locate s.params at_ with
  | none => .refused .outsideBanks
  | some (bank, offset) => if accessOk offset bits then act bank offset else .refused .accessForm

/-- A host write of one stream byte: refused in the range lent to a run (20_memory.md R61, R76). -/
def fillMove (s : State) (addr : Nat) (byte : Byte) : Result :=
  if 2 ^ s.params.curW ≤ addr then .fault .noSuchStreamAddress
  else if onLoan s addr then .refused .streamWriteDuringRun
  else .next { s with mem := s.mem.write addr byte }

/-- A host write of one stream byte by platform address (20_memory.md R74). -/
def fillBusMove (s : State) (addr : Nat) (byte : Byte) : Result :=
  match locateStream s.params addr with
  | none => .refused .outsideStream
  | some a => fillMove s a byte

/-- One move. -/
def runMove (mv : Move) (s : State) : Result :=
  match mv with
  | .sd => sdMove s
  | .lm => lmMove s
  | .sink => .next (sinkMove s)
  | .reset => .next (resetEvent s)
  | .read at_ bits => accessAt s at_ bits (fun bank offset => .next (readAt s bank offset))
  | .write at_ bits value => accessAt s at_ bits (fun bank offset => writeAt s bank offset value)
  | .fill addr byte => fillMove s addr byte
  | .fillBus addr byte => fillBusMove s addr byte

/-- Who moves once the agenda is empty: a BUSY LM, then a SINK with a record waiting, then a BUSY SD. Each gets its turn,
as 70_reset_and_hazards.md R265 asks (log entry 5). -/
def fairMove (s : State) : Option Move :=
  if s.lm.state = .busy then some .lm
  else if s.port ≠ [] then some .sink
  else if s.sd.state = .busy then some .sd
  else none

/-- The next move and the state it acts on: the head of the agenda, taken off it, or the fair choice. -/
def nextMove (s : State) : Option Move × State :=
  match s.agenda with
  | mv :: rest => (some mv, { s with agenda := rest })
  | [] => (fairMove s, s)

/-- Put a stream symbol at the tag cursor of a running SD whose turn it is: its bytes, a stream that reaches past its
payload, and output owed for it (log entry 6). Saturates at the registers' widths. -/
def loadStream (bytes : List Byte) (s : State) : State :=
  let c := s.sd.cursor.toNat
  let i := match decodeStream bytes with
    | .ok (i, _) => i
    | .error _ => .litShort 0
  let room := 2 ^ s.params.curW - 1
  let owed := min (2 ^ s.params.lenW - 1 - s.sd.dstPos.toNat) (max s.sd.bytesLeft.toNat (max 1 (blen i)))
  let len := max s.sd.streamLen.toNat (min room (c + max bytes.length (encodedWidth i)))
  { s with
    mem := s.mem.writeBytes c bytes
    sd := { s.sd with
      state := .busy
      result := .none
      streamLen := Word.ofNat len
      bytesLeft := Word.ofNat owed
      ulen := Word.ofNat (s.sd.dstPos.toNat + owed) }
    loan := some { lo := s.sd.startCursor, hi := Word.ofNat len }
    agenda := .sd :: s.agenda }

/-- Put window bits at position 0 of a running LM whose turn it is and which has one output bit to make (log entry 6). -/
def loadWindow (w : Nat) (s : State) : State :=
  { s with
    lm := { s.lm with
      state := .busy
      result := .none
      limit := 1
      nwords := 1
      w := s.lm.w.set 0 (BitVec.ofNat 64 w) }
    agenda := .lm :: s.agenda }

/-- Put a host write at the head of the agenda. -/
def loadWrite (bank : Bank) (offset : Nat) (v : Word) (s : State) : State :=
  { s with agenda := .write (.reg bank offset) 32 v :: s.agenda }

/-- Place an opcode-table word so that the very next step runs it (log entries 6, 7). -/
def loadTableWord (s : State) (nbits w : Nat) : State :=
  match tableWords nbits w with
  | .stream bytes => loadStream bytes s
  | .window _ => loadWindow w s
  | .hostWrite bank offset v => loadWrite bank offset v s

end Sys2Proof.Machine
end

