-- ==== Sys2Proof/Machine/Step.lean ====
section
/-! DEFINITION. One step of the machine: one move of one agent. -/

namespace Sys2Proof.Machine

/-- The next move of the agenda, or of the fair order once the agenda is empty; with nothing to do the machine stays as
it is (60_exceptions.md R242). -/
def step (s : State) : Host.Outcome State Fault Refusal :=
  match nextMove s with
  | (some mv, t) => runMove mv t
  | (none, t) => .next t

/-- `s` with the instruction of an opcode-table word placed where the next step fetches. -/
def State.withFetchWord (s : State) (nbits w : Nat) : State := loadTableWord s nbits w

end Sys2Proof.Machine
end

