-- ==== Sys2Proof/Machine/Assemble.lean ====
section
/-! DEFINITION. The notation for test streams and host programs (30_encoding.md R103, R104), the spec's own decision. -/

namespace Sys2Proof.Machine

/-- One line of a test stream. -/
inductive AsmLine where
  | litS (payload : List Byte)
  | litM (payload : List Byte)
  | litX (k : Nat) (payload : List Byte)
  | copy1 (len off : Nat)
  | copy2 (len off : Nat)
  | copy4 (len off : Nat)
  | bytes (values : List Byte)
  /-- The pseudo-instruction `lit` (R104). -/
  | lit (payload : List Byte)
  /-- The pseudo-instruction `copy` (R104). -/
  | copy (len off : Nat)
  deriving DecidableEq, Repr

/-- `lit.s` and `lit.m` lines, for payloads of `lo` to `hi` bytes. -/
def asmLit (lo hi : Nat) (payload : List Byte) : Option (List Byte) :=
  if lo ≤ payload.length ∧ payload.length ≤ hi then
    some (BitVec.ofNat 8 ((payload.length - 1) * 4) :: payload)
  else none

/-- `lit.x<k>` lines. -/
def asmLitX (k : Nat) (payload : List Byte) : Option (List Byte) :=
  if 1 ≤ k ∧ k ≤ 4 ∧ 1 ≤ payload.length ∧ payload.length ≤ 2 ^ (8 * k) then
    some (BitVec.ofNat 8 ((59 + k) * 4) :: (leBytes k (payload.length - 1) ++ payload))
  else none

/-- `copy1` lines. -/
def asmCopy1 (len off : Nat) : Option (List Byte) :=
  if 4 ≤ len ∧ len ≤ 11 ∧ off ≤ 2047 then
    some [BitVec.ofNat 8 (off / 256 * 32 + (len - 4) * 4 + 1), BitVec.ofNat 8 (off % 256)]
  else none

/-- `copy2` lines. -/
def asmCopy2 (len off : Nat) : Option (List Byte) :=
  if 1 ≤ len ∧ len ≤ 64 ∧ off ≤ 65535 then
    some (BitVec.ofNat 8 ((len - 1) * 4 + 2) :: leBytes 2 off)
  else none

/-- `copy4` lines. -/
def asmCopy4 (len off : Nat) : Option (List Byte) :=
  if 1 ≤ len ∧ len ≤ 64 ∧ off < 2 ^ 32 then
    some (BitVec.ofNat 8 ((len - 1) * 4 + 3) :: leBytes 4 off)
  else none

/-- The shortest literal form that fits (30_encoding.md R104). -/
def shortestLit (payload : List Byte) : AsmLine :=
  if payload.length ≤ 4 then .litS payload
  else if payload.length ≤ 60 then .litM payload
  else if payload.length ≤ 2 ^ 8 then .litX 1 payload
  else if payload.length ≤ 2 ^ 16 then .litX 2 payload
  else if payload.length ≤ 2 ^ 24 then .litX 3 payload
  else .litX 4 payload

/-- The shortest copy form that fits (30_encoding.md R104). -/
def shortestCopy (len off : Nat) : AsmLine :=
  if 4 ≤ len ∧ len ≤ 11 ∧ off ≤ 2047 then .copy1 len off
  else if len ≤ 64 ∧ off ≤ 65535 then .copy2 len off
  else .copy4 len off

/-- The bytes of a line that is no pseudo-instruction; none where it breaks its `requires`. -/
def asmCore : AsmLine → Option (List Byte)
  | .litS p => asmLit 1 4 p
  | .litM p => asmLit 5 60 p
  | .litX k p => asmLitX k p
  | .copy1 len off => asmCopy1 len off
  | .copy2 len off => asmCopy2 len off
  | .copy4 len off => asmCopy4 len off
  | .bytes vs => some vs
  | .lit _ => none
  | .copy _ _ => none

/-- The bytes of a line; none where the line is no program (30_encoding.md R103, R104). -/
def assemble : AsmLine → Option (List Byte)
  | .lit p => asmCore (shortestLit p)
  | .copy len off => asmCore (shortestCopy len off)
  | line => asmCore line

/-- The bytes of a stream of lines. -/
def assembleAll : List AsmLine → Option (List Byte)
  | [] => some []
  | l :: ls =>
    match assemble l, assembleAll ls with
    | some b, some bs => some (b ++ bs)
    | _, _ => none

/-- The registers by name (10_state.md R41, R44). -/
inductive HostReg where
  | sdCtrl | sdStatus | sdStreamLen | sdStartCursor | sdUlen | sdCursor | sdBytesLeft | sdDstPos | sdSymCount
  | lmCtrl | lmStatus | lmLimit | lmNwords | lmConsumed | lmMaskLo | lmMaskHi
  | lmWLo (i : Nat)
  | lmWHi (i : Nat)
  deriving DecidableEq, Repr

/-- The bank of a register. -/
def HostReg.bank : HostReg → Bank
  | .sdCtrl | .sdStatus | .sdStreamLen | .sdStartCursor | .sdUlen | .sdCursor | .sdBytesLeft | .sdDstPos
  | .sdSymCount => .sd
  | .lmCtrl | .lmStatus | .lmLimit | .lmNwords | .lmConsumed | .lmMaskLo | .lmMaskHi | .lmWLo _ | .lmWHi _ => .lm

/-- The byte offset of a register in its bank (10_state.md R41, R44). -/
def HostReg.offset : HostReg → Nat
  | .sdCtrl => 0x00
  | .sdStatus => 0x04
  | .sdStreamLen => 0x08
  | .sdStartCursor => 0x0C
  | .sdUlen => 0x10
  | .sdCursor => 0x14
  | .sdBytesLeft => 0x18
  | .sdDstPos => 0x1C
  | .sdSymCount => 0x20
  | .lmCtrl => 0x00
  | .lmStatus => 0x04
  | .lmLimit => 0x08
  | .lmNwords => 0x0C
  | .lmConsumed => 0x10
  | .lmMaskLo => 0x18
  | .lmMaskHi => 0x1C
  | .lmWLo i => 0x20 + 8 * i
  | .lmWHi i => 0x24 + 8 * i

/-- `wr <REG>, <value>`: one 32-bit register write (30_encoding.md R103). -/
def wr (r : HostReg) (v : Word) : Move := .write (.reg r.bank r.offset) 32 v

/-- One 32-bit register read. A `poll` is a run of these until the field has its value (30_encoding.md R103). -/
def rd (r : HostReg) : Move := .read (.reg r.bank r.offset) 32

/-- The host's writes of a stream into memory from an address on (70_reset_and_hazards.md R255 step 1). -/
def fillFrom : Nat → List Byte → List Move
  | _, [] => []
  | a, b :: bs => .fill a b :: fillFrom (a + 1) bs

/-- The SD boot sequence, steps 1 to 3 (70_reset_and_hazards.md R255). -/
def sdBoot (stream : List Byte) (start ulen : Nat) : List Move :=
  fillFrom 0 stream ++
    [wr .sdStreamLen (Word.ofNat stream.length), wr .sdStartCursor (Word.ofNat start), wr .sdUlen (Word.ofNat ulen),
      wr .sdCtrl 1]

/-- The writes of window words from index `i` on (70_reset_and_hazards.md R256 step 1). -/
def windowWrites : Nat → List DWord → List Move
  | _, [] => []
  | i, d :: ds => wr (.lmWLo i) (loHalf d) :: wr (.lmWHi i) (hiHalf d) :: windowWrites (i + 1) ds

/-- The LM boot sequence, steps 1 to 3 (70_reset_and_hazards.md R256). -/
def lmBoot (words : List DWord) (limit : Nat) : List Move :=
  windowWrites 0 words ++
    [wr .lmNwords (Word.ofNat words.length), wr .lmLimit (Word.ofNat limit), wr .lmCtrl 1]

end Sys2Proof.Machine
end

