-- ==== Sys2Proof/Machine/Expand.lean ====
section
/-! DEFINITION. Reference semantics of a record sequence: the output bytes it stands for. No unit of the block computes it
(41_symbol_expand.md R161, 00_scope.md R4 (g)). -/

namespace Sys2Proof.Machine

/-- A running SD at tag address `t` with `d` bytes produced, in the longest stream and with the most output owed that
CUR_W and LEN_W allow. -/
def SdRegs.running (p : Params) (t d : Word) : SdRegs :=
  { SdRegs.reset with
    state := .busy
    streamLen := Word.ofNat (2 ^ p.curW - 1)
    cursor := t
    bytesLeft := Word.ofNat (2 ^ p.lenW - 1 - d.toNat)
    dstPos := d }

/-- The record the turn of an SD emits at tag address `t` with `d` bytes produced, from the stream bytes `m`; none where
no run of this instance emits one there (40_symbol_decoder.md R119 to R134). -/
def emittedAt (p : Params) (m : Memory) (t d : Word) : Option SymRec :=
  match sdMove { State.reset with
    params := p
    mem := m
    sd := SdRegs.running p t d } with
  | .next s => s.sd.out.head?
  | .fault _ => none
  | .refused _ => none

/-- The records are what an SD emits from tag address `t` and output position `d` on, one turn after another. -/
def emittedFrom (p : Params) (m : Memory) : Word → Word → List SymRec → Bool
  | _, _, [] => true
  | t, d, r :: rs => decide (emittedAt p m t d = some r) && emittedFrom p m (t + r.width) (d + r.len) rs

/-- The sequence is one that a run of this instance emits from the stream bytes `m`: the run that starts at the first
record's tag (41_symbol_expand.md R161, R164; 93_implementation_defined.md I14; log entry 17). -/
def emitted (p : Params) (m : Memory) (recs : List SymRec) : Bool :=
  match recs with
  | [] => true
  | r :: _ => emittedFrom p m r.tag 0 recs

/-- `ExpandLiteral`: the payload bytes, verbatim (41_symbol_expand.md R162). -/
def expandLiteral (m : Memory) (r : SymRec) (o : List Byte) : List Byte :=
  o ++ (List.range r.len.toNat).map (fun i => m.read (r.litStart.toNat + i))

/-- `ExpandCopy`: `n` bytes, one at a time, each from `off` behind the current end (41_symbol_expand.md R163). -/
def expandCopy (off : Nat) : Nat → List Byte → List Byte
  | 0, o => o
  | n + 1, o => expandCopy off n (o ++ [o.getD (o.length - off) 0])

/-- One turn of the loop of `Expand` (41_symbol_expand.md R161). -/
def expandRecord (m : Memory) (o : List Byte) (r : SymRec) : List Byte :=
  match r.kind with
  | .lit => expandLiteral m r o
  | .copy => expandCopy r.off.toNat r.len.toNat o

/-- `Expand(recs, S)`: refused on every sequence the SD does not emit from `S` (41_symbol_expand.md R161, R164;
93_implementation_defined.md I14; log entry 17). -/
def expand (p : Params) (m : Memory) (recs : List SymRec) : Option (List Byte) :=
  if emitted p m recs then some (recs.foldl (expandRecord m) []) else none

/-- The record covers output position `q` (41_symbol_expand.md R166). -/
def SymRec.covers (r : SymRec) (q : Nat) : Bool :=
  decide (r.dst.toNat ≤ q) && decide (q < r.dst.toNat + r.len.toNat)

/-- `Byte(q)` with fuel: each copy resolved goes back by at least one position (41_symbol_expand.md R166). -/
def byteAtFuel (m : Memory) (recs : List SymRec) : Nat → Nat → Option Byte
  | 0, _ => none
  | fuel + 1, q =>
    match recs.find? (fun r => r.covers q) with
    | none => none
    | some r =>
      match r.kind with
      | .lit => some (m.read (r.litStart.toNat + (q - r.dst.toNat)))
      | .copy => byteAtFuel m recs fuel (q - r.off.toNat)

/-- `Byte(q)`, resolved through earlier records without an output buffer; refused where `Expand` is
(41_symbol_expand.md R166; log entry 17). -/
def byteAt (p : Params) (m : Memory) (recs : List SymRec) (q : Nat) : Option Byte :=
  if emitted p m recs then byteAtFuel m recs (q + 1) q else none

end Sys2Proof.Machine
end

