-- ==== Sys2Proof/Machine/Len3String.lean ====
section
/-! DEFINITION. The source's string form of the len3 mask, for the equivalence of 42_len3_mask.md R184 to R186. No unit of
the block computes it. -/

namespace Sys2Proof.Machine

/-- `bin64(w)`: the 64 characters of a word, most significant first (42_len3_mask.md R184). -/
def bin64 (w : DWord) : List Bool := (List.range 64).map (fun i => w.getLsbD (63 - i))

/-- `to_bitsequence(words)`: each new word's characters come before those so far (42_len3_mask.md R184). -/
def toBitsequence (words : List DWord) : List Bool := words.foldl (fun acc w => bin64 w ++ acc) []

/-- The scan from the last character backward (42_len3_mask.md R185): the output string, built by prepending, and the
final cursor; none where a character must be read with the cursor below 0. -/
def scanBack (str : List Bool) : Nat → Int → List Bool → Option (List Bool × Int)
  | 0, rc, acc => some (acc, rc)
  | n + 1, rc, acc =>
    if rc < 0 then none
    else if str.getD rc.toNat false then scanBack str n (rc - 3) (true :: acc)
    else scanBack str n (rc - 2) (false :: acc)

/-- `len3_mask(bitseq, limit)`: the output string and `orig_cursor - final_cursor` (42_len3_mask.md R185). -/
def len3MaskString (str : List Bool) (limit : Nat) : Option (List Bool × Int) :=
  (scanBack str limit ((str.length : Int) - 1) []).map
    (fun res => (res.1, (str.length : Int) - 1 - res.2))

/-- A string read as a binary numeral, most significant character first (42_len3_mask.md R186). -/
def numeral (str : List Bool) : Nat := str.foldl (fun n b => 2 * n + b.toNat) 0

end Sys2Proof.Machine
end

