-- ==== Sys2Proof/Machine/Runs.lean ====
section
/-! DEFINITION. Runs and what is observed of them (00_scope.md R14): from a START that is taken to the first state in which
the unit is DONE. -/

namespace Sys2Proof.Machine

/-- The observation of an SD run (00_scope.md R14). -/
structure SdObservation where
  result : SdResult
  cursor : Word
  bytesLeft : Word
  dstPos : Word
  symCount : Word
  records : List SymRec
  deriving DecidableEq, Repr

/-- The observation of an LM run (00_scope.md R14). -/
structure LmObservation where
  result : LmResult
  mask : DWord
  consumed : BitVec 8
  deriving DecidableEq, Repr

/-- An SD observation's fields, as the registers hold them at the end of a run. -/
def SdRegs.observe (sd : SdRegs) : SdObservation where
  result := sd.result
  cursor := sd.cursor
  bytesLeft := sd.bytesLeft
  dstPos := sd.dstPos
  symCount := sd.symCount
  records := sd.out

/-- An LM observation's fields, as the registers hold them at the end of a run. -/
def LmRegs.observe (lm : LmRegs) : LmObservation where
  result := lm.result
  mask := lm.mask
  consumed := lm.consumed

/-- The STATE of a bank's unit (10_state.md R22, R33). -/
def unitState (bank : Bank) (s : State) : RunState :=
  match bank with
  | .sd => s.sd.state
  | .lm => s.lm.state

/-- The move to come is a START of the bank's unit that is taken: a 32-bit write to its CTRL with bit 0 set, the unit not
BUSY (43_host_interface.md R205 to R208). -/
def startsRun (bank : Bank) (s : State) : Bool :=
  match s.agenda with
  | .write at_ bits v :: _ =>
    decide (locate s.params at_ = some (bank, 0)) && decide (bits = 32) && v.getLsbD 0 &&
      decide (unitState bank s ≠ .busy)
  | _ => false

/-- What is observed of the run a unit is in, within `n` steps: `obs` of the first state in which it is DONE. None where it
is IDLE first (a reset aborted the run, 70_reset_and_hazards.md R253), where a step answers no next state, and where the
run is not over yet. -/
def runOutcome {α : Type} (bank : Bank) (obs : State → α) : Nat → State → Option α
  | 0, s => if unitState bank s = .done then some (obs s) else none
  | n + 1, s =>
    match unitState bank s with
    | .done => some (obs s)
    | .idle => none
    | .busy =>
      match step s with
      | .next t => runOutcome bank obs n t
      | .fault _ => none
      | .refused _ => none

/-- What is observed of the run whose START is the move to come, within `n` steps after it; none where the move to come is
no START that is taken (00_scope.md R14). -/
def runObservation {α : Type} (bank : Bank) (obs : State → α) (n : Nat) (s : State) : Option α :=
  if startsRun bank s then
    match step s with
    | .next t => runOutcome bank obs n t
    | .fault _ => none
    | .refused _ => none
  else none

/-- The observation of an SD run (00_scope.md R14). -/
def sdRunObservation (n : Nat) (s : State) : Option SdObservation := runObservation .sd (fun t => t.sd.observe) n s

/-- The observation of an LM run (00_scope.md R14). -/
def lmRunObservation (n : Nat) (s : State) : Option LmObservation := runObservation .lm (fun t => t.lm.observe) n s

end Sys2Proof.Machine
end

