-- ==== Sys2Proof/Safety.lean ====
section
/-! DEFINITION. The terms claims are made in: the machine's invariant, what an accepted or stopped
symbol leaves, the len3 result in closed form. -/

namespace Sys2Proof.Machine

/-- The records' output bytes in all (40_symbol_decoder.md R138). -/
def outputLength (recs : List SymRec) : Nat := (recs.map (fun r => r.len.toNat)).sum

/-- The records follow one another from stream address `t` and output position `d` on, up to `t'` and `d'`
(40_symbol_decoder.md R140). -/
def chained : Nat → Nat → List SymRec → Nat → Nat → Bool
  | t, d, [], t', d' => decide (t = t') && decide (d = d')
  | t, d, r :: rs, t', d' =>
    decide (r.tag.toNat = t) && decide (r.dst.toNat = d) && chained (t + r.width.toNat) (d + r.len.toNat) rs t' d'

/-- The stream address the records begin at: the first one's tag, or the cursor where there is none. -/
def firstTag (recs : List SymRec) (cursor : Word) : Nat :=
  match recs with
  | [] => cursor.toNat
  | r :: _ => r.tag.toNat

/-- A record an SD emits, on its own (40_symbol_decoder.md R117, R136, R139, R140). -/
abbrev SymRec.sound (r : SymRec) : Prop :=
  r.kind = r.cls.kind ∧ 1 ≤ r.len.toNat ∧
    (r.kind = .lit → r.off = 0 ∧ r.litStart.toNat = r.tag.toNat + 1 + r.cls.nx ∧
      r.width.toNat = 1 + r.cls.nx + r.len.toNat) ∧
    (r.kind = .copy → r.litStart = 0 ∧ r.width.toNat = 1 + r.cls.nx ∧ 1 ≤ r.off.toNat ∧ r.off.toNat ≤ r.dst.toNat)

/-- What holds of the SD's registers in every state (10_state.md R22 to R30; 40_symbol_decoder.md R138 to R140). -/
structure SdRegs.Inv (p : Params) (sd : SdRegs) : Prop where
  streamLen_fits : sd.streamLen.toNat < 2 ^ p.curW
  startCursor_fits : sd.startCursor.toNat < 2 ^ p.curW
  ulen_fits : sd.ulen.toNat < 2 ^ p.lenW
  cursor_fits : sd.cursor.toNat < 2 ^ p.curW
  owed_fits : sd.dstPos.toNat + sd.bytesLeft.toNat < 2 ^ p.lenW
  count_le : sd.symCount.toNat ≤ sd.dstPos.toNat
  count_eq : sd.out.length = sd.symCount.toNat
  sound : ∀ r ∈ sd.out, r.sound
  chain : chained (firstTag sd.out sd.cursor) 0 sd.out sd.cursor.toNat sd.dstPos.toNat = true
  idle : sd.state = .idle → sd.result = .none ∧ sd.cursor = 0 ∧ sd.bytesLeft = 0 ∧ sd.out = []
  busy : sd.state = .busy → sd.result = .none ∧ sd.startCursor.toNat < sd.streamLen.toNat ∧
    sd.cursor.toNat ≤ sd.streamLen.toNat ∧ sd.dstPos.toNat + sd.bytesLeft.toNat = sd.ulen.toNat ∧
    firstTag sd.out sd.cursor = sd.startCursor.toNat
  done : sd.state = .done → sd.result ≠ .none ∧ (sd.result = .complete → sd.bytesLeft = 0) ∧
    (sd.result = .errContract → sd.out = []) ∧
    (sd.result ≠ .complete → sd.result ≠ .errContract → sd.bytesLeft ≠ 0)

/-- What holds of the LM's registers in every state (10_state.md R33 to R39). -/
structure LmRegs.Inv (p : Params) (lm : LmRegs) : Prop where
  words : lm.w.length = p.maxWords
  work : lm.work = LmWork.zero
  consumed_le : lm.consumed.toNat ≤ 192
  idle : lm.state = .idle → lm.result = .none ∧ lm.mask = 0 ∧ lm.consumed = 0
  busy : lm.state = .busy → lm.result = .none
  done : lm.state = .done → lm.result ≠ .none ∧ (lm.result ≠ .ok → lm.mask = 0 ∧ lm.consumed = 0)

/-- The machine's invariant: reset has it and every step keeps it. -/
structure State.Inv (s : State) : Prop where
  params : s.params.legal
  mem_wf : s.mem.wf
  mem_fits : ∀ c ∈ s.mem, c.1 < 2 ^ s.params.curW
  sd : s.sd.Inv s.params
  lm : s.lm.Inv s.params
  port_fits : s.port.length ≤ s.params.sinkDepth
  handed_over : s.sd.out <:+ s.accepted ++ s.port
  lent : s.sd.state = .busy → s.loan = some { lo := s.sd.startCursor, hi := s.sd.streamLen }

/-- While a run's stream is on loan, the run's records are what an SD emits from the stream bytes, and lie in the range
lent (20_memory.md R76; 40_symbol_decoder.md R140). The second invariant: reset has it, and steps keep it with the first. -/
structure State.Emitted (s : State) : Prop where
  from_stream : s.loan ≠ none → emitted s.params s.mem s.sd.out = true
  in_loan : ∀ l, s.loan = some l → ∀ r ∈ s.sd.out, l.lo.toNat ≤ r.tag.toNat ∧ r.tag.toNat + r.width.toNat ≤ l.hi.toNat

/-- The fields of a record, as numbers. -/
structure SymRec.Is (r : SymRec) (cls : TagClass) (kind : SymKind) (tag width dst len off litStart : Nat) : Prop where
  cls : r.cls = cls
  kind : r.kind = kind
  tag : r.tag.toNat = tag
  width : r.width.toNat = width
  dst : r.dst.toNat = dst
  len : r.len.toNat = len
  off : r.off.toNat = off
  litStart : r.litStart.toNat = litStart

/-- `t` is `s` after the record `r` was committed: the four registers and the emit, and nothing else
(40_symbol_decoder.md R125). -/
structure Committed (s t : State) (r : SymRec) : Prop where
  cursor : t.sd.cursor.toNat = s.sd.cursor.toNat + r.width.toNat
  bytesLeft : t.sd.bytesLeft.toNat + r.len.toNat = s.sd.bytesLeft.toNat
  dstPos : t.sd.dstPos.toNat = s.sd.dstPos.toNat + r.len.toNat
  symCount : t.sd.symCount.toNat = s.sd.symCount.toNat + 1
  out : t.sd.out = s.sd.out ++ [r]
  port : t.port = s.port ++ [r]
  frame : t = { s with
    sd := { s.sd with
      cursor := t.sd.cursor
      bytesLeft := t.sd.bytesLeft
      dstPos := t.sd.dstPos
      symCount := t.sd.symCount
      out := t.sd.out }
    port := t.port }

/-- `s` after its SD run has ended with `r`: nothing else changes (60_exceptions.md R229). -/
def stopped (s : State) (r : SdResult) : State :=
  { s with sd := { s.sd with state := .done, result := r } }

/-- `p_k`: the window position of the flag of output bit `k` (42_len3_mask.md R190). It means something while every
earlier flag lies in the window; from the first that does not, it follows `wbit` outside the window (log entry 22). -/
def flagPos (lm : LmRegs) : Nat → Nat
  | 0 => 0
  | k + 1 => flagPos lm k + 2 + (wbit lm (flagPos lm k)).toNat

/-- Every flag the limit asks for lies in the window (42_len3_mask.md R179, R191). -/
def flagsInWindow (lm : LmRegs) : Prop := ∀ k < lm.limit.toNat, flagPos lm k < windowBits lm

/-- How many of the low `n` bits of a mask are 1 (42_len3_mask.md R187). -/
def popcount (m : DWord) (n : Nat) : Nat := ((List.range n).map (fun k => (m.getLsbD k).toNat)).sum

/-- The machine behind the host's interface, run for some steps. -/
def runSteps (n : Nat) (s : State) : Result := Host.Core.run Sys2Proof.core n s

/-- `n` turns of the SINK and the SD, the SINK first: a SINK that keeps accepting (70_reset_and_hazards.md R262). -/
def drainedTurns (n : Nat) : List Move := (List.replicate n [Move.sink, Move.sd]).flatten

end Sys2Proof.Machine
end

