-- ==== Sys2Proof/Certificates/Slice0/Obligations.lean ====
section
/-! DEFINITION. The statements for the provers. Each docstring names the rule or section of spec/ it formalises. -/

open Sys2Proof Sys2Proof.Machine

/-! ### Encoding -/

/-- 30_encoding.md R86 to R101: no bit of an encoding is dropped, for every row of the table. The ignored bits of
LEN3_W2, LEN3_W3, SD_START and LM_START are no operands (log entry 9). -/
def Obligations.DecodeOfEncodeIsTheInstruction : Prop :=
  ∀ i : Instr, i.wellFormed = true → decode (encode i) = .ok i

/-- 30_encoding.md R86 to R99: each header has one meaning, the other direction of the round trip. -/
def Obligations.DecodedSymbolEncodesToTheBytesRead : Prop :=
  ∀ (bs : List Byte) (i : Instr) (rest : List Byte), decodeStream bs = .ok (i, rest) →
    i.wellFormed = true ∧ i.header ++ rest = bs ∧ ∃ cls, i.tagClass? = some cls ∧ i.header.length = 1 + cls.nx

/-- 30_encoding.md R87: the class of each tag byte, with its code and number of extension bytes, row by row. -/
def Obligations.TagBytesAreClassifiedByTheTable : Prop :=
  ∀ b0 : Byte,
    (b0.toNat % 4 = 1 → tagClass b0 = .copy1) ∧
    (b0.toNat % 4 = 2 → tagClass b0 = .copy2) ∧
    (b0.toNat % 4 = 3 → tagClass b0 = .copy4) ∧
    (b0.toNat % 4 = 0 → b0.toNat < 16 → tagClass b0 = .litShort) ∧
    (b0.toNat % 4 = 0 → 16 ≤ b0.toNat → b0.toNat / 4 ≤ 59 → tagClass b0 = .litMid) ∧
    (b0.toNat = 0xF0 → tagClass b0 = .litExt1) ∧
    (b0.toNat = 0xF4 → tagClass b0 = .litExt2) ∧
    (b0.toNat = 0xF8 → tagClass b0 = .litExt3) ∧
    (b0.toNat = 0xFC → tagClass b0 = .litExt4) ∧
    [TagClass.copy1, .copy2, .copy4, .litShort, .litMid, .litExt1, .litExt2, .litExt3, .litExt4].map
        (fun cls => (cls.code.toNat, cls.nx)) =
      [(6, 1), (7, 2), (8, 4), (0, 0), (1, 0), (2, 1), (3, 2), (4, 3), (5, 4)]

/-- 30_encoding.md R98, 40_symbol_decoder.md R122: no tag byte is illegal; decoding from it fails only, and always, when
its extension bytes are not all there. -/
def Obligations.OnlyAMissingExtensionByteStopsDecoding : Prop :=
  ∀ (b0 : Byte) (rest : List Byte),
    (rest.length < (tagClass b0).nx → decodeStream (b0 :: rest) = .error (.headerCut (tagClass b0))) ∧
    ((tagClass b0).nx ≤ rest.length → ∃ i, i.tagClass? = some (tagClass b0) ∧
      decodeStream (b0 :: rest) = .ok (i, rest.drop (tagClass b0).nx))

/-- 30_encoding.md R93 to R95: the length and the offset of every copy, from its bytes as numbers. -/
def Obligations.CopyFieldsAreReadFromTheirBytes : Prop :=
  ∀ (b0 b1 b2 b3 b4 : Byte) (rest : List Byte),
    (b0.toNat % 4 = 1 → ∃ l off, decodeStream (b0 :: b1 :: rest) = .ok (.copy1 l off, rest) ∧
      blen (.copy1 l off) = b0.toNat / 4 % 8 + 4 ∧ off.toNat = b0.toNat / 32 * 256 + b1.toNat) ∧
    (b0.toNat % 4 = 2 → ∃ l off, decodeStream (b0 :: b1 :: b2 :: rest) = .ok (.copy2 l off, rest) ∧
      blen (.copy2 l off) = b0.toNat / 4 + 1 ∧ off.toNat = b1.toNat + b2.toNat * 2 ^ 8) ∧
    (b0.toNat % 4 = 3 → ∃ l off, decodeStream (b0 :: b1 :: b2 :: b3 :: b4 :: rest) = .ok (.copy4 l off, rest) ∧
      blen (.copy4 l off) = b0.toNat / 4 + 1 ∧
      off.toNat = b1.toNat + b2.toNat * 2 ^ 8 + b3.toNat * 2 ^ 16 + b4.toNat * 2 ^ 24)

/-- 30_encoding.md R89 to R91: every literal header decodes to a literal, whose length is that of its bytes as numbers.
The `+ 1` of the classes but LIT_SHORT is the spec's own reading (90_conflicts.md C5), marked as general knowledge in R90 and R91. -/
def Obligations.LiteralLengthsAreReadFromTheirBytes : Prop :=
  ∀ (b0 e1 e2 e3 e4 : Byte) (rest : List Byte),
    (b0.toNat % 4 = 0 → b0.toNat / 4 ≤ 59 → ∃ i cls, decodeStream (b0 :: rest) = .ok (i, rest) ∧
      i.tagClass? = some cls ∧ cls.kind = .lit ∧ blen i = b0.toNat / 4 + 1) ∧
    (∃ i cls, decodeStream (0xF0#8 :: e1 :: rest) = .ok (i, rest) ∧ i.tagClass? = some cls ∧ cls.kind = .lit ∧
      blen i = e1.toNat + 1) ∧
    (∃ i cls, decodeStream (0xF4#8 :: e1 :: e2 :: rest) = .ok (i, rest) ∧ i.tagClass? = some cls ∧ cls.kind = .lit ∧
      blen i = e1.toNat + e2.toNat * 2 ^ 8 + 1) ∧
    (∃ i cls, decodeStream (0xF8#8 :: e1 :: e2 :: e3 :: rest) = .ok (i, rest) ∧ i.tagClass? = some cls ∧
      cls.kind = .lit ∧ blen i = e1.toNat + e2.toNat * 2 ^ 8 + e3.toNat * 2 ^ 16 + 1) ∧
    (∃ i cls, decodeStream (0xFC#8 :: e1 :: e2 :: e3 :: e4 :: rest) = .ok (i, rest) ∧ i.tagClass? = some cls ∧
      cls.kind = .lit ∧
      blen i = e1.toNat + e2.toNat * 2 ^ 8 + e3.toNat * 2 ^ 16 + e4.toNat * 2 ^ 24 + 1)

/-- Words written out from 30_encoding.md R89 to R101 decode to the instructions they stand for. -/
def Obligations.WordsOfTheSpecDecode : Prop :=
  decode (.stream [0x04#8]) = .ok (.litShort 1) ∧
  decode (.stream [0xEC#8]) = .ok (.litMid 59) ∧
  decode (.stream [0xF4#8, 0x00#8, 0x01#8]) = .ok (.litExt2 256) ∧
  decode (.stream [0xE1#8, 0xFF#8]) = .ok (.copy1 0 2047) ∧
  decode (.stream [0x0F#8, 0x01#8, 0x00#8, 0x00#8, 0x00#8]) = .ok (.copy4 3 1) ∧
  decode (.window [true, false, true]) = .ok .len3W3 ∧
  decode (.hostWrite .lm 0 0x00000001#32) = .ok .lmStart

/-! ### The step -/

/-- 40_symbol_decoder.md R119 to R121: with the header of a well-formed stream symbol at the tag cursor of a running SD
that still owes output, the SD's turn is `exec` of that symbol. -/
def Obligations.StepRunsTheSymbolAtTheCursor : Prop :=
  ∀ (s : State) (ag : List Move) (i : Instr) (cls : TagClass), s.agenda = .sd :: ag → s.sd.state = .busy →
    s.sd.bytesLeft ≠ 0 → i.wellFormed = true → i.tagClass? = some cls →
    s.sd.cursor.toNat + i.header.length ≤ s.sd.streamLen.toNat →
    (∀ k < i.header.length, s.memRead (s.sd.cursor.toNat + k) = i.header.getD k 0) →
    step s = exec i { s with agenda := ag }

/-- 30_encoding.md R101: a 32-bit write to a bank's base address with bit 0 set is that unit's START, whatever the other
bits are. SD_BASE and LM_BASE are such that the LM's base lies outside the SD's bank. -/
def Obligations.StepRunsTheCommandWritten : Prop :=
  ∀ (s : State) (ag : List Move) (v : Word), v.getLsbD 0 = true →
    (s.agenda = .write (.bus s.params.sdBase) 32 v :: ag → step s = exec .sdStart { s with agenda := ag }) ∧
    (s.agenda = .write (.bus s.params.lmBase) 32 v :: ag →
      (s.params.lmBase < s.params.sdBase ∨ s.params.sdBase + 128 ≤ s.params.lmBase) →
      step s = exec .lmStart { s with agenda := ag })

/-- 42_len3_mask.md R179: a BUSY LM's turn is a loop of LIMIT output bits from position 0; one output bit is `exec` of the
instruction the flag at `p` selects, and the rest of the loop goes on from there. -/
def Obligations.LmTurnRunsTheFlagsInOrder : Prop :=
  ∀ (s : State) (ag : List Move) (n : Nat),
    (s.agenda = .lm :: ag → s.lm.state = .busy → s.lm.limit.toNat ≤ 64 → s.lm.nwords.toNat ≤ s.params.maxWords →
      step s = lmLoop s.lm.limit.toNat { s with agenda := ag, lm := { s.lm with work := { k := 0, p := 0, m := 0 } } }) ∧
    (s.lm.work.p < windowBits s.lm → ∃ t,
      exec (if wbit s.lm s.lm.work.p then .len3W3 else .len3W2) s = .next t ∧ lmLoop (n + 1) s = lmLoop n t)

/-- 40_symbol_decoder.md R119: the completion check comes first and depends on no stream byte. -/
def Obligations.CompletionIsCheckedBeforeAnyByte : Prop :=
  ∀ (s : State) (ag : List Move) (m : Memory), s.agenda = .sd :: ag → s.sd.state = .busy → s.sd.bytesLeft = 0 →
    step { s with mem := m } = .next (stopped { s with mem := m, agenda := ag } .complete)

/-- 40_symbol_decoder.md R120, R122; 60_exceptions.md R233: with output owed, a cursor at the stream's end is
END_OF_STREAM, and a header cut short by the end is TRUNCATED, before the symbol's length is compared with anything. -/
def Obligations.MissingHeaderBytesStopTheRun : Prop :=
  ∀ (s : State) (ag : List Move), s.agenda = .sd :: ag → s.sd.state = .busy → s.sd.bytesLeft ≠ 0 →
    (s.sd.streamLen.toNat ≤ s.sd.cursor.toNat → step s = .next (stopped { s with agenda := ag } .endOfStream)) ∧
    (s.sd.cursor.toNat < s.sd.streamLen.toNat →
      s.sd.streamLen.toNat < s.sd.cursor.toNat + 1 + (tagClass (s.memRead s.sd.cursor.toNat)).nx →
      step s = .next (stopped { s with agenda := ag } .truncated))

/-- 60_exceptions.md R242: an IDLE or DONE unit takes no step. -/
def Obligations.AUnitThatIsNotBusyTakesNoStep : Prop :=
  ∀ (s : State) (ag : List Move),
    (s.agenda = .sd :: ag → s.sd.state ≠ .busy → step s = .next { s with agenda := ag }) ∧
    (s.agenda = .lm :: ag → s.lm.state ≠ .busy → step s = .next { s with agenda := ag })

/-! ### Symbols -/

/-- 40_symbol_decoder.md R126: LIT_SHORT, `blen = L + 1`: OVERRUN, else TRUNCATED, else its record committed, the payload
right after the tag byte. (What a full port does is R118's, in AFullPortHoldsTheSymbol.) -/
def Obligations.LitShortStopsOrIsCommitted : Prop :=
  ∀ (s : State) (l : BitVec 2), s.Inv →
    (s.sd.bytesLeft.toNat < l.toNat + 1 → exec (.litShort l) s = .next (stopped s .overrun)) ∧
    (l.toNat + 1 ≤ s.sd.bytesLeft.toNat → s.sd.streamLen.toNat < s.sd.cursor.toNat + 1 + (l.toNat + 1) →
      exec (.litShort l) s = .next (stopped s .truncated)) ∧
    (l.toNat + 1 ≤ s.sd.bytesLeft.toNat → s.sd.cursor.toNat + 1 + (l.toNat + 1) ≤ s.sd.streamLen.toNat →
      s.port.length < s.params.sinkDepth →
      ∃ t r, exec (.litShort l) s = .next t ∧ Committed s t r ∧
        r.Is .litShort .lit s.sd.cursor.toNat (1 + (l.toNat + 1)) s.sd.dstPos.toNat (l.toNat + 1) 0
          (s.sd.cursor.toNat + 1))

/-- 40_symbol_decoder.md R127 to R131, R125: a longer literal accepted: `blen` is its field plus 1, the payload after the
extension bytes (90_conflicts.md C3). The `+ 1` is the spec's own reading (90_conflicts.md C5). -/
def Obligations.LongerLiteralsAreAccepted : Prop :=
  ∀ (s : State) (i : Instr) (cls : TagClass) (v : Nat), s.Inv → s.port.length < s.params.sinkDepth →
    ((∃ l, i = .litMid l ∧ cls = .litMid ∧ v = l.toNat) ∨
      (∃ e, i = .litExt1 e ∧ cls = .litExt1 ∧ v = e.toNat) ∨ (∃ e, i = .litExt2 e ∧ cls = .litExt2 ∧ v = e.toNat) ∨
      (∃ e, i = .litExt3 e ∧ cls = .litExt3 ∧ v = e.toNat) ∨ (∃ e, i = .litExt4 e ∧ cls = .litExt4 ∧ v = e.toNat)) →
    v + 1 ≤ s.sd.bytesLeft.toNat → s.sd.cursor.toNat + 1 + cls.nx + (v + 1) ≤ s.sd.streamLen.toNat →
    ∃ t r, exec i s = .next t ∧ Committed s t r ∧
      r.Is cls .lit s.sd.cursor.toNat (1 + cls.nx + (v + 1)) s.sd.dstPos.toNat (v + 1) 0 (s.sd.cursor.toNat + 1 + cls.nx)

/-- 40_symbol_decoder.md R132, R124, 60_exceptions.md R233: COPY1, length 4 to 11: TRUNCATED where its second byte is
missing, else OVERRUN, else BAD_OFFSET, else its record committed. R132's remark that a copy as the first symbol always stops
with BAD_OFFSET holds only where neither earlier check stops it. -/
def Obligations.Copy1StopsOrIsCommitted : Prop :=
  ∀ (s : State) (l : BitVec 3) (off : BitVec 11), s.Inv →
    (s.sd.streamLen.toNat < s.sd.cursor.toNat + 2 → exec (.copy1 l off) s = .next (stopped s .truncated)) ∧
    (s.sd.cursor.toNat + 2 ≤ s.sd.streamLen.toNat →
      (s.sd.bytesLeft.toNat < l.toNat + 4 → exec (.copy1 l off) s = .next (stopped s .overrun)) ∧
      (l.toNat + 4 ≤ s.sd.bytesLeft.toNat → off = 0 ∨ s.sd.dstPos.toNat < off.toNat →
        exec (.copy1 l off) s = .next (stopped s .badOffset)) ∧
      (l.toNat + 4 ≤ s.sd.bytesLeft.toNat → 1 ≤ off.toNat → off.toNat ≤ s.sd.dstPos.toNat →
        s.port.length < s.params.sinkDepth →
        ∃ t r, exec (.copy1 l off) s = .next t ∧ Committed s t r ∧
          r.Is .copy1 .copy s.sd.cursor.toNat 2 s.sd.dstPos.toNat (l.toNat + 4) off.toNat 0))

/-- 40_symbol_decoder.md R133, R134: COPY2 and COPY4, of every length from 1 to 64 (90_conflicts.md C4): TRUNCATED where
an offset byte is missing, else OVERRUN, else BAD_OFFSET, else the record committed (R124, 60_exceptions.md R233). -/
def Obligations.Copy2AndCopy4StopOrAreCommitted : Prop :=
  ∀ (s : State) (i : Instr) (cls : TagClass) (l : BitVec 6) (off : Nat), s.Inv →
    ((∃ o, i = .copy2 l o ∧ cls = .copy2 ∧ off = o.toNat) ∨ (∃ o, i = .copy4 l o ∧ cls = .copy4 ∧ off = o.toNat)) →
    (s.sd.streamLen.toNat < s.sd.cursor.toNat + 1 + cls.nx → exec i s = .next (stopped s .truncated)) ∧
    (s.sd.cursor.toNat + 1 + cls.nx ≤ s.sd.streamLen.toNat →
      (s.sd.bytesLeft.toNat < l.toNat + 1 → exec i s = .next (stopped s .overrun)) ∧
      (l.toNat + 1 ≤ s.sd.bytesLeft.toNat → off = 0 ∨ s.sd.dstPos.toNat < off →
        exec i s = .next (stopped s .badOffset)) ∧
      (l.toNat + 1 ≤ s.sd.bytesLeft.toNat → 1 ≤ off → off ≤ s.sd.dstPos.toNat →
        s.port.length < s.params.sinkDepth →
        ∃ t r, exec i s = .next t ∧ Committed s t r ∧
          r.Is cls .copy s.sd.cursor.toNat (1 + cls.nx) s.sd.dstPos.toNat (l.toNat + 1) off 0))

/-- 40_symbol_decoder.md R123: the literal check in its order, for every literal whose header is there: OVERRUN, else
TRUNCATED, else accepted. -/
def Obligations.LiteralCheckInItsOrder : Prop :=
  ∀ (s : State) (i : Instr) (cls : TagClass), i.tagClass? = some cls → cls.kind = .lit →
    s.sd.cursor.toNat + 1 + cls.nx ≤ s.sd.streamLen.toNat →
    (s.sd.bytesLeft.toNat < blen i → exec i s = .next (stopped s .overrun)) ∧
    (blen i ≤ s.sd.bytesLeft.toNat → s.sd.streamLen.toNat < s.sd.cursor.toNat + 1 + cls.nx + blen i →
      exec i s = .next (stopped s .truncated)) ∧
    (blen i ≤ s.sd.bytesLeft.toNat → s.sd.cursor.toNat + 1 + cls.nx + blen i ≤ s.sd.streamLen.toNat →
      s.port.length < s.params.sinkDepth → ∃ t r, exec i s = .next t ∧ t.sd.out = s.sd.out ++ [r])

/-- 40_symbol_decoder.md R124: the copy check in its order, for every copy whose header is there: OVERRUN, else
BAD_OFFSET for an offset that is 0 or beyond the output produced, else accepted. -/
def Obligations.CopyCheckInItsOrder : Prop :=
  ∀ (s : State) (i : Instr) (cls : TagClass) (off : Nat), i.tagClass? = some cls →
    ((∃ l o, i = .copy1 l o ∧ off = o.toNat) ∨ (∃ l o, i = .copy2 l o ∧ off = o.toNat) ∨
      (∃ l o, i = .copy4 l o ∧ off = o.toNat)) →
    s.sd.cursor.toNat + 1 + cls.nx ≤ s.sd.streamLen.toNat →
    (s.sd.bytesLeft.toNat < blen i → exec i s = .next (stopped s .overrun)) ∧
    (blen i ≤ s.sd.bytesLeft.toNat → off = 0 ∨ s.sd.dstPos.toNat < off → exec i s = .next (stopped s .badOffset)) ∧
    (blen i ≤ s.sd.bytesLeft.toNat → 1 ≤ off → off ≤ s.sd.dstPos.toNat → s.port.length < s.params.sinkDepth →
      ∃ t r, exec i s = .next t ∧ t.sd.out = s.sd.out ++ [r])

/-- 40_symbol_decoder.md R122: a symbol with extension bytes first checks that they are in the stream, whatever its
length and offset are (60_exceptions.md R233). -/
def Obligations.ExtensionBytesAreCheckedFirst : Prop :=
  ∀ (s : State) (i : Instr) (cls : TagClass), i.tagClass? = some cls → 1 ≤ cls.nx →
    s.sd.streamLen.toNat < s.sd.cursor.toNat + 1 + cls.nx → exec i s = .next (stopped s .truncated)

/-- 40_symbol_decoder.md R118: while the port is full, a symbol that would emit with a deeper port is held, and a hold
changes nothing. -/
def Obligations.AFullPortHoldsTheSymbol : Prop :=
  ∀ (s t : State) (i : Instr) (r : SymRec) (depth : Nat), s.params.sinkDepth ≤ s.port.length →
    exec i { s with params := { s.params with sinkDepth := depth } } = .next t → t.sd.out = s.sd.out ++ [r] →
    exec i s = .next s

/-- 40_symbol_decoder.md R135, 60_exceptions.md R229, R230: what a stream symbol can do: stop with the live registers
and the output as they were, be held at a full port (R118), or append one record, whose class code and kind code agree
(R117). -/
def Obligations.ASymbolStopsHoldsOrCommits : Prop :=
  ∀ (s : State) (i : Instr) (cls : TagClass), s.Inv → i.tagClass? = some cls → s.sd.state = .busy →
    s.sd.cursor.toNat < s.sd.streamLen.toNat → ∃ t, exec i s = .next t ∧
      ((∃ r, r ∈ [SdResult.truncated, .overrun, .badOffset] ∧ t = stopped s r) ∨
        (s.params.sinkDepth ≤ s.port.length ∧ t = s) ∨
        ∃ r, Committed s t r ∧ r.sound ∧ r.cls = cls ∧ r.kind.code.toNat = (if r.cls.code.toNat ≤ 5 then 0 else 1) ∧
          r.tag = s.sd.cursor ∧ r.dst = s.sd.dstPos ∧
          r.tag.toNat + r.width.toNat ≤ s.sd.streamLen.toNat)

/-- 40_symbol_decoder.md R137: the reference's single field is the offset of a copy and minus `lit_start` for a literal,
which is at least 1. -/
def Obligations.LegacyOffsetTellsTheKind : Prop :=
  ∀ (s : State) (r : SymRec), s.Inv → r ∈ s.sd.out →
    (r.kind = .copy → r.legacyOffset = (r.off.toNat : Int)) ∧
    (r.kind = .lit → r.legacyOffset = -(r.litStart.toNat : Int) ∧ 1 ≤ r.litStart.toNat ∧ r.legacyOffset < 0)

/-! ### The len3 mask -/

/-- 42_len3_mask.md R180, R181: one flag writes one bit of the working mask and advances `p` by 2 or 3; nothing else
changes. The working values are the model's own way to hold R179's `k`, `p` and `M`, and that the step also moves `k` on is
log entry 8's choice. -/
def Obligations.Len3FlagsPushOneMaskBit : Prop :=
  ∀ (s : State) (i : Instr) (bit : Bool) (adv : Nat), s.lm.work.k < 64 →
    ((i = .len3W2 ∧ bit = false ∧ adv = 2) ∨ (i = .len3W3 ∧ bit = true ∧ adv = 3)) →
    ∃ t, exec i s = .next t ∧ t.lm.work.k = s.lm.work.k + 1 ∧ t.lm.work.p = s.lm.work.p + adv ∧
      t.lm.work.m.getLsbD s.lm.work.k = bit ∧
      (∀ j, j ≠ s.lm.work.k → t.lm.work.m.getLsbD j = s.lm.work.m.getLsbD j) ∧
      t = { s with lm := { s.lm with work := t.lm.work } }

/-- 42_len3_mask.md R179, R182, R183: a BUSY LM's turn computes the whole result: bit `k` of the mask is the flag at
`p_k`, the count is `p_LIMIT`, and a flag needed outside the window is ERR_INSUFFICIENT with nothing partial. Only MASK,
CONSUMED, RESULT and STATE change (R176). -/
def Obligations.LmTurnComputesTheMask : Prop :=
  ∀ (s : State) (ag : List Move), s.Inv → s.agenda = .lm :: ag → s.lm.state = .busy →
    s.lm.limit.toNat ≤ 64 → s.lm.nwords.toNat ≤ s.params.maxWords →
    ∃ t, step s = .next t ∧
      t = { s with
        agenda := ag
        lm := { s.lm with
          state := .done
          result := t.lm.result
          mask := t.lm.mask
          consumed := t.lm.consumed } } ∧
      (flagsInWindow s.lm → t.lm.result = .ok ∧ t.lm.consumed.toNat = flagPos s.lm s.lm.limit.toNat ∧
        ∀ k, t.lm.mask.getLsbD k = (decide (k < s.lm.limit.toNat) && wbit s.lm (flagPos s.lm k))) ∧
      (¬ flagsInWindow s.lm → t.lm.result = .errInsufficient ∧ t.lm.mask = 0 ∧ t.lm.consumed = 0)

/-- 42_len3_mask.md R178, R182; 60_exceptions.md R234: a request beyond the mask or the window is ERR_CONTRACT, before
any bit is read, and leaves no mask. That the hidden working values are 0 afterwards is log entry 8's choice. -/
def Obligations.LmContractErrorReadsNoWord : Prop :=
  ∀ (s : State) (ag : List Move) (ws : List DWord), s.agenda = .lm :: ag → s.lm.state = .busy →
    64 < s.lm.limit.toNat ∨ s.params.maxWords < s.lm.nwords.toNat →
    step { s with lm := { s.lm with w := ws } } = .next { s with
      agenda := ag
      lm := { s.lm with
        w := ws
        state := .done
        result := .errContract
        mask := 0
        consumed := 0
        work := LmWork.zero } }

/-- 42_len3_mask.md R187, R188: after OK the count is `2 * LIMIT` plus the ones of the mask, and no bit at or above
LIMIT is set. -/
def Obligations.Len3BitCost : Prop :=
  ∀ (s t : State) (ag : List Move), s.Inv → s.agenda = .lm :: ag → s.lm.state = .busy → step s = .next t →
    t.lm.result = .ok →
    t.lm.consumed.toNat = 2 * s.lm.limit.toNat + popcount t.lm.mask 64 ∧
    t.lm.consumed.toNat ≤ 3 * s.lm.limit.toNat ∧
    ∀ k, s.lm.limit.toNat ≤ k → t.lm.mask.getLsbD k = false

/-- 42_len3_mask.md R191, 00_scope.md R7: how many words suffice and how many are necessary. -/
def Obligations.Len3WordsThatSuffice : Prop :=
  ∀ (s t : State) (ag : List Move), s.Inv → s.agenda = .lm :: ag → s.lm.state = .busy → step s = .next t →
    1 ≤ s.lm.limit.toNat → s.lm.limit.toNat ≤ 64 → s.lm.nwords.toNat ≤ s.params.maxWords →
    (t.lm.result = .ok ↔ flagPos s.lm (s.lm.limit.toNat - 1) < 64 * s.lm.nwords.toNat) ∧
    (3 * s.lm.limit.toNat - 2 ≤ 64 * s.lm.nwords.toNat → t.lm.result = .ok) ∧
    (t.lm.result = .ok → 2 * s.lm.limit.toNat - 1 ≤ 64 * s.lm.nwords.toNat)

/-- 42_len3_mask.md R192: the result depends on LIMIT, NWORDS and the words below NWORDS alone. -/
def Obligations.Len3IgnoresWordsBeyondNwords : Prop :=
  ∀ (s t : State) (ag : List Move) (ws : List DWord),
    (∀ j < s.lm.nwords.toNat, ws.getD j 0 = s.lm.w.getD j 0) →
    s.agenda = .lm :: ag → step s = .next t →
    step { s with lm := { s.lm with w := ws } } = .next { t with lm := { t.lm with w := ws } }

/-- 42_len3_mask.md R184 to R186: the LM's result is the source's scan of the string form, read as a numeral. -/
def Obligations.Len3AgreesWithTheStringForm : Prop :=
  ∀ (s t : State) (ag : List Move), s.Inv → s.agenda = .lm :: ag → s.lm.state = .busy → step s = .next t →
    s.lm.limit.toNat ≤ 64 → s.lm.nwords.toNat ≤ s.params.maxWords →
    (len3MaskString (toBitsequence (s.lm.w.take s.lm.nwords.toNat)) s.lm.limit.toNat = none →
      t.lm.result = .errInsufficient) ∧
    ∀ str used, len3MaskString (toBitsequence (s.lm.w.take s.lm.nwords.toNat)) s.lm.limit.toNat = some (str, used) →
      t.lm.result = .ok ∧ t.lm.mask.toNat = numeral str ∧ (t.lm.consumed.toNat : Int) = used

/-! ### Commands and the register banks -/

/-- 43_host_interface.md R206: SD START when the SD is not BUSY. That it records the range as on loan, an empty range for
ERR_CONTRACT, in place of an older one, is the model's reading of 20_memory.md R76 (log entry 11). -/
def Obligations.SdStartBeginsARun : Prop :=
  ∀ s : State, s.sd.state ≠ .busy →
    (s.sd.startCursor.toNat < s.sd.streamLen.toNat → exec .sdStart s = .next { s with
      sd := { s.sd with
        cursor := s.sd.startCursor
        bytesLeft := s.sd.ulen
        dstPos := 0
        symCount := 0
        out := []
        state := .busy
        result := .none }
      loan := some { lo := s.sd.startCursor, hi := s.sd.streamLen } }) ∧
    (s.sd.streamLen.toNat ≤ s.sd.startCursor.toNat → exec .sdStart s = .next { s with
      sd := { s.sd with
        cursor := s.sd.startCursor
        bytesLeft := s.sd.ulen
        dstPos := 0
        symCount := 0
        out := []
        state := .done
        result := .errContract }
      loan := some { lo := s.sd.startCursor, hi := s.sd.streamLen } })

/-- 43_host_interface.md R207: LM START when the LM is not BUSY; the mask and the count keep their values. -/
def Obligations.LmStartBeginsARun : Prop :=
  ∀ s : State, s.lm.state ≠ .busy → exec .lmStart s = .next { s with lm := { s.lm with state := .busy, result := .none } }

/-- 43_host_interface.md R205: a CTRL write with bit 0 clear has no effect, in any state of the units, and the bits above
bit 0 make no difference to any CTRL write. -/
def Obligations.CtrlWritesAreDecidedByBitZero : Prop :=
  ∀ (s : State) (ag : List Move) (v w : Word),
    (v.getLsbD 0 = false → s.agenda = wr .sdCtrl v :: ag ∨ s.agenda = wr .lmCtrl v :: ag →
      step s = .next { s with agenda := ag }) ∧
    (v.getLsbD 0 = w.getLsbD 0 →
      step { s with agenda := wr .sdCtrl v :: ag } = step { s with agenda := wr .sdCtrl w :: ag } ∧
      step { s with agenda := wr .lmCtrl v :: ag } = step { s with agenda := wr .lmCtrl w :: ag })

/-- 43_host_interface.md R204, R208: while a unit is BUSY no write to its bank, START included, changes anything. -/
def Obligations.ConfigurationIsLockedWhileBusy : Prop :=
  ∀ (s : State) (ag : List Move) (offset : Nat) (v : Word), offset < 128 → offset % 4 = 0 →
    (s.agenda = .write (.reg .sd offset) 32 v :: ag → s.sd.state = .busy → step s = .next { s with agenda := ag }) ∧
    (s.agenda = .write (.reg .lm offset) 32 v :: ag → s.lm.state = .busy → step s = .next { s with agenda := ag })

/-- 43_host_interface.md R202, 10_state.md R47: a configuration register stores its field's low bits and nothing else
changes; a read returns what is stored. Only the register's own unit must not be BUSY (R204). -/
def Obligations.ConfigurationWritesStoreTheirField : Prop :=
  ∀ (s : State) (ag : List Move) (v : Word), s.Inv →
    (s.sd.state ≠ .busy → s.agenda = wr .sdStreamLen v :: ag → ∃ t, step s = .next t ∧
      t.sd.streamLen.toNat = v.toNat % 2 ^ s.params.curW ∧
      t = { s with agenda := ag, sd := { s.sd with streamLen := t.sd.streamLen } } ∧
      readReg t .sd 0x08 = t.sd.streamLen) ∧
    (s.sd.state ≠ .busy → s.agenda = wr .sdStartCursor v :: ag → ∃ t, step s = .next t ∧
      t.sd.startCursor.toNat = v.toNat % 2 ^ s.params.curW ∧
      t = { s with agenda := ag, sd := { s.sd with startCursor := t.sd.startCursor } } ∧
      readReg t .sd 0x0C = t.sd.startCursor) ∧
    (s.sd.state ≠ .busy → s.agenda = wr .sdUlen v :: ag → ∃ t, step s = .next t ∧
      t.sd.ulen.toNat = v.toNat % 2 ^ s.params.lenW ∧
      t = { s with agenda := ag, sd := { s.sd with ulen := t.sd.ulen } } ∧ readReg t .sd 0x10 = t.sd.ulen) ∧
    (s.lm.state ≠ .busy → s.agenda = wr .lmLimit v :: ag → ∃ t, step s = .next t ∧
      t.lm.limit.toNat = v.toNat % 2 ^ 8 ∧
      t = { s with agenda := ag, lm := { s.lm with limit := t.lm.limit } } ∧
      (readReg t .lm 0x08).toNat = v.toNat % 2 ^ 8) ∧
    (s.lm.state ≠ .busy → s.agenda = wr .lmNwords v :: ag → ∃ t, step s = .next t ∧
      t.lm.nwords.toNat = v.toNat % 2 ^ 8 ∧
      t = { s with agenda := ag, lm := { s.lm with nwords := t.lm.nwords } } ∧
      (readReg t .lm 0x0C).toNat = v.toNat % 2 ^ 8)

/-- 10_state.md R37, R44, 20_memory.md R67: the two halves of a window word are two registers; a write to one changes
that half of that word alone and is read back, LO is the word's bits 31:0 and HI its bits 63:32, and at or beyond MAX_WORDS
there is none. -/
def Obligations.WindowHalvesAreWrittenAndReadApart : Prop :=
  ∀ (s : State) (ag : List Move) (i : Nat) (hi : Bool) (v : Word), s.Inv → s.lm.state ≠ .busy → i < 8 →
    s.agenda = wr (if hi then .lmWHi i else .lmWLo i) v :: ag → ∃ t, step s = .next t ∧
      t = { s with agenda := ag, lm := { s.lm with w := t.lm.w } } ∧
      (s.params.maxWords ≤ i → t.lm.w = s.lm.w) ∧
      (i < s.params.maxWords → readReg t .lm ((if hi then 0x24 else 0x20) + 8 * i) = v ∧
        readReg t .lm ((if hi then 0x20 else 0x24) + 8 * i) = readReg s .lm ((if hi then 0x20 else 0x24) + 8 * i) ∧
        (t.lm.w.getD i 0).toNat =
          (readReg t .lm (0x20 + 8 * i)).toNat + (readReg t .lm (0x24 + 8 * i)).toNat * 2 ^ 32) ∧
      ∀ j, j ≠ i → t.lm.w.getD j 0 = s.lm.w.getD j 0

/-- 10_state.md R41, R43, R44, R46: what each read-only, control and reserved offset of the banks reads as. -/
def Obligations.LiveAndReservedRegistersReadAsMapped : Prop :=
  ∀ (s : State) (n : Nat), s.Inv → n < 128 → n % 4 = 0 →
    (readReg s .sd 0x04).toNat = s.sd.state.code.toNat + 16 * s.sd.result.code.toNat ∧
    (readReg s .lm 0x04).toNat = s.lm.state.code.toNat + 16 * s.lm.result.code.toNat ∧
    readReg s .sd 0x14 = s.sd.cursor ∧ readReg s .sd 0x18 = s.sd.bytesLeft ∧ readReg s .sd 0x1C = s.sd.dstPos ∧
    readReg s .sd 0x20 = s.sd.symCount ∧ readReg s .sd 0x00 = 0 ∧ (0x24 ≤ n → readReg s .sd n = 0) ∧
    (readReg s .lm 0x10).toNat = s.lm.consumed.toNat ∧
    s.lm.mask.toNat = (readReg s .lm 0x18).toNat + (readReg s .lm 0x1C).toNat * 2 ^ 32 ∧
    readReg s .lm 0x00 = 0 ∧ readReg s .lm 0x14 = 0 ∧ (0x20 + 8 * s.params.maxWords ≤ n → readReg s .lm n = 0)

/-- 10_state.md R47, 43_host_interface.md R202: a write to a read-only or reserved offset does nothing. -/
def Obligations.ReadOnlyAndReservedWritesAreIgnored : Prop :=
  ∀ (s : State) (ag : List Move) (n : Nat) (v : Word), n < 128 → n % 4 = 0 →
    (s.agenda = .write (.reg .sd n) 32 v :: ag → n = 0x04 ∨ 0x14 ≤ n → step s = .next { s with agenda := ag }) ∧
    (s.agenda = .write (.reg .lm n) 32 v :: ag →
      n = 0x04 ∨ (0x10 ≤ n ∧ n ≤ 0x1C) ∨ 0x20 + 8 * s.params.maxWords ≤ n → step s = .next { s with agenda := ag })

/-- 43_host_interface.md R201, 20_memory.md R73: a read changes nothing of the block; it returns the register to the host,
and a read of SD_STATUS that returns DONE ends the loan of the stream (20_memory.md R76, log entry 11). -/
def Obligations.ReadsHaveNoSideEffect : Prop :=
  ∀ (s : State) (ag : List Move) (bank : Bank) (n : Nat), n < 128 → n % 4 = 0 →
    s.agenda = .read (.reg bank n) 32 :: ag →
    step s = .next { s with
      agenda := ag
      readData := readReg s bank n
      loan := if bank = .sd ∧ n = 0x04 ∧ s.sd.state = .done then none else s.loan }

/-- 20_memory.md R71: an access of another width or at a misaligned offset is refused. -/
def Obligations.AccessesOfAnotherFormAreRefused : Prop :=
  ∀ (s : State) (ag : List Move) (bank : Bank) (n bits : Nat) (v : Word), n < 128 → bits ≠ 32 ∨ n % 4 ≠ 0 →
    s.agenda = .read (.reg bank n) bits :: ag ∨ s.agenda = .write (.reg bank n) bits v :: ag →
    step s = .refused .accessForm

/-! ### Stream memory -/

/-- 20_memory.md R63: no instruction and no unit's turn writes memory, every byte reads as before, and what the LM's turn
does to the rest of the state is the same whatever memory holds. -/
def Obligations.NeitherUnitWritesMemory : Prop :=
  ∀ (s t : State),
    (∀ i : Instr, exec i s = .next t → ∀ a, t.memRead a = s.memRead a) ∧
    (∀ ag, s.agenda = .sd :: ag ∨ s.agenda = .lm :: ag → step s = .next t → ∀ a, t.memRead a = s.memRead a) ∧
    (∀ ag m, s.agenda = .lm :: ag → step s = .next t → step { s with mem := m } = .next { t with mem := m })

/-- 20_memory.md R61, R74: a host stream write, by stream address or by platform address, stores one byte, and every other
byte reads as before. That a platform address is the base plus the stream address, and that one outside the stream memory is
refused, is log entry 21's choice. -/
def Obligations.AStreamWriteStoresOneByte : Prop :=
  ∀ (s : State) (ag : List Move) (a : Nat) (b : Byte), s.Inv →
    (s.agenda = .fill a b :: ag ∨ s.agenda = .fillBus (s.params.streamBase + a) b :: ag → a < 2 ^ s.params.curW →
      onLoan s a = false → ∃ t, step s = .next t ∧ t.memRead a = b ∧ (∀ x, x ≠ a → t.memRead x = s.memRead x) ∧
        t = { s with agenda := ag, mem := t.mem }) ∧
    (s.agenda = .fillBus a b :: ag → a < s.params.streamBase ∨ s.params.streamBase + 2 ^ s.params.curW ≤ a →
      step s = .refused .outsideStream)

/-- 20_memory.md R76, 70_reset_and_hazards.md R259: a stream write into the range of a running SD is refused, whichever kind
of address names the byte. That a platform address is the base plus the stream address is log entry 21's choice. -/
def Obligations.StreamWritesDuringARunAreRefused : Prop :=
  ∀ (s : State) (ag : List Move) (a : Nat) (b : Byte), s.Inv →
    s.agenda = .fill a b :: ag ∨ s.agenda = .fillBus (s.params.streamBase + a) b :: ag → s.sd.state = .busy →
    s.sd.startCursor.toNat ≤ a → a < s.sd.streamLen.toNat → step s = .refused .streamWriteDuringRun

/-- 20_memory.md R76: a loan refuses every host write into its range, and only the host's read of SD_STATUS that returns
DONE, the next START that is taken (a write to SD_CTRL with bit 0 set, the SD not BUSY) and the reset event end it (log
entry 11). That a platform address is the base plus the stream address is log entry 21's choice. -/
def Obligations.TheLoanLastsUntilTheHostReadsDone : Prop :=
  ∀ (s t : State) (l : Loan), s.loan = some l →
    (∀ (ag : List Move) (a : Nat) (b : Byte),
      s.agenda = .fill a b :: ag ∨ s.agenda = .fillBus (s.params.streamBase + a) b :: ag →
      a < 2 ^ s.params.curW → l.lo.toNat ≤ a → a < l.hi.toNat → step s = .refused .streamWriteDuringRun) ∧
    (step s = .next t → t.loan = some l ∨ s.agenda.head? = some .reset ∨
      (∃ at_ v, s.agenda.head? = some (.write at_ 32 v) ∧ locate s.params at_ = some (.sd, 0x00) ∧
        v.getLsbD 0 = true ∧ s.sd.state ≠ .busy ∧ t.sd.state ≠ .idle ∧
        t.loan = some { lo := s.sd.startCursor, hi := s.sd.streamLen }) ∨
      (∃ at_, s.agenda.head? = some (.read at_ 32) ∧ locate s.params at_ = some (.sd, 0x04) ∧ s.sd.state = .done ∧
        t.loan = none))

/-- 20_memory.md R62, R64: the SD's turn depends on the stream bytes of `[SD.START_CURSOR, SD.STREAM_LEN)` alone. -/
def Obligations.TheSdReadsOnlyItsRange : Prop :=
  ∀ (s t : State) (ag : List Move) (m : Memory), s.Inv → s.agenda = .sd :: ag → s.sd.state = .busy →
    (∀ a, s.sd.startCursor.toNat ≤ a → a < s.sd.streamLen.toNat → m.read a = s.mem.read a) →
    step s = .next t → step { s with mem := m } = .next { t with mem := m }

/-! ### The two units and the SINK -/

/-- 60_exceptions.md R240: an instruction of one unit changes no register of the other, nor its records. -/
def Obligations.TheUnitsShareNoState : Prop :=
  ∀ (s t : State) (i : Instr), exec i s = .next t →
    (i ∈ [Instr.len3W2, .len3W3, .lmStart] → t.sd = s.sd ∧ t.port = s.port ∧ t.loan = s.loan) ∧
    (i ∉ [Instr.len3W2, .len3W3, .lmStart] → t.lm = s.lm) ∧
    t.params = s.params ∧ t.accepted = s.accepted ∧ t.readData = s.readData ∧ t.agenda = s.agenda

/-- 00_scope.md R14, R15, 60_exceptions.md R240, 70_reset_and_hazards.md R265: the turns of the two units commute, and no
observation of a run depends on the interleaving: two SD runs of one configuration and stream, and two LM runs of one
configuration, have one observation, whatever moves stand between and whatever the rest of the state is. -/
def Obligations.NoObservationDependsOnTheInterleaving : Prop :=
  (∀ (s t : State) (ag : List Move),
    runSteps 2 { s with agenda := .sd :: .lm :: ag } = .next t ↔
    runSteps 2 { s with agenda := .lm :: .sd :: ag } = .next t) ∧
  (∀ (s s' : State) (n n' : Nat) (o o' : SdObservation), s.Inv → s'.Inv →
    s'.sd.streamLen = s.sd.streamLen → s'.sd.startCursor = s.sd.startCursor → s'.sd.ulen = s.sd.ulen →
    (∀ a, s.sd.startCursor.toNat ≤ a → a < s.sd.streamLen.toNat → s'.memRead a = s.memRead a) →
    sdRunObservation n s = some o → sdRunObservation n' s' = some o' → o' = o) ∧
  (∀ (s s' : State) (n n' : Nat) (o o' : LmObservation), s'.params.maxWords = s.params.maxWords →
    s'.lm.limit = s.lm.limit → s'.lm.nwords = s.lm.nwords → s'.lm.w = s.lm.w →
    lmRunObservation n s = some o → lmRunObservation n' s' = some o' → o' = o)

/-- 40_symbol_decoder.md R118, 00_scope.md R15, 92_eei_decisions.md D22: the SINK's turn accepts the oldest waiting record
and changes nothing else; and unless the port is full, when it accepts makes no difference: its turn commutes with the SD's.
That a turn with no record waiting is taken off the agenda and changes nothing is log entry 19's reading. -/
def Obligations.TheSinksTurnCommutesWithTheSds : Prop :=
  ∀ (s : State) (ag : List Move),
    (s.agenda = .sink :: ag → s.port = [] → step s = .next { s with agenda := ag }) ∧
    (∀ (r : SymRec) (rest : List SymRec), s.agenda = .sink :: ag → s.port = r :: rest →
      step s = .next { s with agenda := ag, port := rest, accepted := s.accepted ++ [r] }) ∧
    (∀ t : State, s.port ≠ [] → s.port.length < s.params.sinkDepth →
      runSteps 2 { s with agenda := .sd :: .sink :: ag } = .next t →
      runSteps 2 { s with agenda := .sink :: .sd :: ag } = .next t)

/-! ### Reset -/

/-- 10_state.md R48: every register after reset, and the reset event leaves stream memory. (What State.reset holds besides
is the model's, log entries 1 to 3.) -/
def Obligations.ResetValuesOfTheRegisters : Prop :=
  State.reset.sd.state = .idle ∧ State.reset.sd.result = .none ∧ State.reset.sd.streamLen = 0 ∧
  State.reset.sd.startCursor = 0 ∧ State.reset.sd.ulen = 0 ∧ State.reset.sd.cursor = 0 ∧
  State.reset.sd.bytesLeft = 0 ∧ State.reset.sd.dstPos = 0 ∧ State.reset.sd.symCount = 0 ∧ State.reset.sd.out = [] ∧
  State.reset.lm.state = .idle ∧ State.reset.lm.result = .none ∧ State.reset.lm.limit = 0 ∧
  State.reset.lm.nwords = 0 ∧ State.reset.lm.w = [0, 0, 0] ∧ State.reset.lm.mask = 0 ∧ State.reset.lm.consumed = 0 ∧
  ∀ (s t : State) (ag : List Move), s.agenda = .reset :: ag → step s = .next t → t.mem = s.mem

/-- 70_reset_and_hazards.md R251 to R253: the reset event, in any state, a run in progress or not. A run it aborts has no
observation (00_scope.md R14). -/
def Obligations.TheResetEvent : Prop :=
  ∀ (s : State) (ag : List Move), s.Inv → s.agenda = .reset :: ag → ∃ t, step s = .next t ∧
    t.sd = State.reset.sd ∧
    t.lm = { State.reset.lm with w := s.lm.w.map (fun _ => 0) } ∧
    t.port = [] ∧ t.loan = none ∧ t.mem = s.mem ∧ t.accepted = s.accepted ∧ t.params = s.params ∧
    t.readData = s.readData ∧ t.agenda = ag ∧
    ∀ n, (s.sd.state = .busy → runOutcome .sd (fun u => u.sd.observe) n s = none) ∧
      (s.lm.state = .busy → runOutcome .lm (fun u => u.lm.observe) n s = none)

/-- The reset state meets both invariants. -/
def Obligations.ResetMeetsTheInvariant : Prop := State.reset.Inv ∧ State.reset.Emitted

/-- Every step keeps the invariant: the memory's canonical form, register widths, the records' chain and bounds, the
run states, the port's bound, the loan (10_state.md R22 to R39, 40_symbol_decoder.md R118, R138 to R140). It keeps the
second invariant with it: while the stream is on loan, the records are what an SD emits from the bytes now in memory
(20_memory.md R76). -/
def Obligations.EveryStepKeepsTheInvariant : Prop :=
  ∀ s t : State, s.Inv → step s = .next t → t.Inv ∧ (s.Emitted → t.Emitted)

/-! ### Runs and their output -/

/-- 40_symbol_decoder.md R136, 00_scope.md R14: with a SINK that keeps accepting, a BUSY SD is DONE after `BYTES_LEFT + 1`
turns, so an SD START that is taken begins a run with an observation; an LM's first turn ends its run, with one. -/
def Obligations.EveryRunEndsWithAnObservation : Prop :=
  (∀ (s : State) (ag : List Move), s.Inv → s.sd.state = .busy →
    s.agenda = drainedTurns (s.sd.bytesLeft.toNat + 1) ++ ag →
    ∃ t, runSteps (2 * (s.sd.bytesLeft.toNat + 1)) s = .next t ∧ t.sd.state = .done ∧ t.agenda = ag) ∧
  (∀ (s : State) (ag : List Move), s.Inv → startsRun .sd s = true →
    s.agenda.tail = drainedTurns (s.sd.ulen.toNat + 1) ++ ag →
    ∃ o, sdRunObservation (2 * (s.sd.ulen.toNat + 1)) s = some o) ∧
  (∀ (s : State) (ag : List Move), startsRun .lm s = true → s.agenda.tail = .lm :: ag →
    ∃ o, lmRunObservation 1 s = some o)

/-- 40_symbol_decoder.md R138: the step that ends a run: COMPLETE means all the output is produced, any other cause means
less; in every state the records' lengths add up to DST_POS. -/
def Obligations.CompleteExactlyWhenAllOutputIsProduced : Prop :=
  ∀ s t : State, s.Inv → s.sd.state = .busy → s.agenda.head? = some .sd → step s = .next t → t.sd.state = .done →
    outputLength t.sd.out = t.sd.dstPos.toNat ∧ t.sd.dstPos.toNat + t.sd.bytesLeft.toNat = t.sd.ulen.toNat ∧
    (t.sd.result = .complete → outputLength t.sd.out = t.sd.ulen.toNat) ∧
    (t.sd.result ≠ .complete → outputLength t.sd.out < t.sd.ulen.toNat)

/-- 10_state.md R29 and 40_symbol_decoder.md R138 read literally, over every stopped state: BYTES_LEFT = 0 is the same as
COMPLETE. It fails: a START with ULEN = 0 and no valid start cursor is ERR_CONTRACT with BYTES_LEFT = 0 (43_host_interface.md
R206; 95_test_vectors.md V-SD-33; log entry 18). -/
def Obligations.BytesLeftZeroIsTheSameAsComplete : Prop :=
  ∀ s t : State, s.Inv → step s = .next t → t.sd.state = .done → (t.sd.bytesLeft = 0 ↔ t.sd.result = .complete)

/-- 41_symbol_expand.md R167: of two runs on one stream that differ in the output owed, the smaller's records are a prefix
of the larger's, after any number of turns. -/
def Obligations.ASmallerRunIsAPrefix : Prop :=
  ∀ (s t u : State) (owed : Word) (n : Nat), s.Inv → s.sd.state = .busy →
    s.sd.bytesLeft.toNat ≤ owed.toNat → s.sd.dstPos.toNat + owed.toNat < 2 ^ s.params.lenW →
    runSteps (2 * n) { s with agenda := drainedTurns n } = .next t →
    runSteps (2 * n) { s with
      agenda := drainedTurns n
      sd := { s.sd with
        bytesLeft := owed
        ulen := Word.ofNat (s.sd.dstPos.toNat + owed.toNat) } } = .next u →
    t.sd.out <+: u.sd.out

/-- 41_symbol_expand.md R161, R164, R165, 93_implementation_defined.md I14: `Expand` answers on what the SD emits, and on
nothing else. On a run's records it has DST_POS bytes, over every memory that holds the run's stream, memory itself among
them. Of a sequence it answers on, any run that starts at its first tag, whose stream reaches over its records and that owes
at least its bytes, emits exactly that sequence, a record a turn. That the instance's widths bound such a run is log entry
17's choice. -/
def Obligations.ExpandAnswersOnTheSdsRecordsAlone : Prop :=
  (∀ (s : State) (l : Loan) (m : Memory), s.Inv → s.Emitted → s.loan = some l →
    (∀ a, l.lo.toNat ≤ a → a < l.hi.toNat → m.read a = s.mem.read a) →
    ∃ o, expand s.params m s.sd.out = some o ∧ o.length = s.sd.dstPos.toNat) ∧
  (∀ (s : State) (recs : List SymRec) (o : List Byte), s.Inv → s.sd.state = .busy → s.sd.out = [] →
    expand s.params s.mem recs = some o → firstTag recs s.sd.cursor = s.sd.cursor.toNat →
    (∀ r ∈ recs, r.tag.toNat + r.width.toNat ≤ s.sd.streamLen.toNat) → o.length ≤ s.sd.bytesLeft.toNat →
    s.agenda = drainedTurns recs.length → ∃ t, runSteps (2 * recs.length) s = .next t ∧ t.sd.out = recs)

/-- 41_symbol_expand.md R166: resolving a position through the records gives the byte `Expand` puts there, on every
sequence and at every position; where `Expand` is refused or the position is past its end, neither gives one (log entry
17). -/
def Obligations.ResolvingAPositionAgreesWithExpand : Prop :=
  ∀ (p : Params) (m : Memory) (recs : List SymRec) (q : Nat), p.legal →
    byteAt p m recs q = (expand p m recs).bind (fun o => o[q]?)

/-- 41_symbol_expand.md R161 to R163, R167: each record starts at the length of the output so far and appends to it; a
literal's bytes are the stream's; a copy's repeat with period `off`. -/
def Obligations.ExpandedRecordsHaveTheirBytes : Prop :=
  ∀ (p : Params) (m : Memory) (recs : List SymRec) (r : SymRec) (o' : List Byte) (i : Nat), p.legal →
    expand p m (recs ++ [r]) = some o' → i < r.len.toNat → ∃ o, expand p m recs = some o ∧
    o.length = r.dst.toNat ∧ o <+: o' ∧ o'.length = r.dst.toNat + r.len.toNat ∧
    (r.kind = .lit → o'[r.dst.toNat + i]? = some (m.read (r.litStart.toNat + i))) ∧
    (r.kind = .copy → 1 ≤ r.off.toNat ∧ r.off.toNat ≤ r.dst.toNat ∧
      o'[r.dst.toNat + i]? = o[r.dst.toNat - r.off.toNat + i % r.off.toNat]?)

/-- 30_encoding.md R103, R104: each literal and copy line, pseudo-instructions included, assembles to bytes that decode
to a symbol of its length, with the payload left over, and for a copy its offset. The notation is the spec's own decision
(92_eei_decisions.md D31). -/
def Obligations.AssembledLinesDecode : Prop :=
  (∀ (p bs : List Byte) (line : AsmLine),
    line ∈ [AsmLine.lit p, .litS p, .litM p, .litX 1 p, .litX 2 p, .litX 3 p, .litX 4 p] → assemble line = some bs →
    ∃ i cls, decodeStream bs = .ok (i, p) ∧ i.tagClass? = some cls ∧ cls.kind = .lit ∧ blen i = p.length) ∧
  (∀ (len off : Nat) (bs : List Byte) (line : AsmLine),
    line ∈ [AsmLine.copy len off, .copy1 len off, .copy2 len off, .copy4 len off] → assemble line = some bs →
    ∃ i, decodeStream bs = .ok (i, []) ∧ blen i = len ∧ ((∃ l o, i = .copy1 l o ∧ o.toNat = off) ∨
      (∃ l o, i = .copy2 l o ∧ o.toNat = off) ∨ (∃ l o, i = .copy4 l o ∧ o.toNat = off)))
end

