-- ==== Sys2Proof/Laws/Decode.lean ====
section
/-! SUPPORT. The decoder, constructor by constructor: tag bytes, headers, what a decoded symbol is. -/

namespace Sys2Proof

@[simp] theorem tagClass_litShort (l : BitVec 2) : tagClass (0#4 ++ l ++ 0#2 : BitVec 8) = .litShort := by
  revert l; decide

theorem tagClass_litMid (l : BitVec 6) (h4 : 4 ≤ l.toNat) (h59 : l.toNat ≤ 59) :
    tagClass (l ++ 0#2 : BitVec 8) = .litMid := by
  revert l; decide

@[simp] theorem tagClass_copy1 (h l : BitVec 3) : tagClass (h ++ l ++ 1#2 : BitVec 8) = .copy1 := by
  revert h l; decide

@[simp] theorem tagClass_copy2 (l : BitVec 6) : tagClass (l ++ 2#2 : BitVec 8) = .copy2 := by
  revert l; decide

@[simp] theorem tagClass_copy4 (l : BitVec 6) : tagClass (l ++ 3#2 : BitVec 8) = .copy4 := by
  revert l; decide

@[simp] theorem tagClass_litExt1 : tagClass 0xF0#8 = .litExt1 := by decide
@[simp] theorem tagClass_litExt2 : tagClass 0xF4#8 = .litExt2 := by decide
@[simp] theorem tagClass_litExt3 : tagClass 0xF8#8 = .litExt3 := by decide
@[simp] theorem tagClass_litExt4 : tagClass 0xFC#8 = .litExt4 := by decide

@[simp] theorem litShort_field (l : BitVec 2) : (0#4 ++ l ++ 0#2 : BitVec 8).extractLsb' 2 2 = l := by
  revert l; decide

@[simp] theorem litMid_field (l : BitVec 6) (x : BitVec 2) : (l ++ x : BitVec 8).extractLsb' 2 6 = l := by
  revert l x; decide

@[simp] theorem copy1_length_field (h l : BitVec 3) : (h ++ l ++ 1#2 : BitVec 8).extractLsb' 2 3 = l := by
  revert h l; decide

@[simp] theorem copy1_offset_field (h l : BitVec 3) : (h ++ l ++ 1#2 : BitVec 8).extractLsb' 5 3 = h := by
  revert h l; decide

/-- A byte of class LIT_SHORT is its field between fixed zeros. -/
theorem litShort_byte (b : Byte) (h : tagClass b = .litShort) : (0#4 ++ b.extractLsb' 2 2 ++ 0#2 : BitVec 8) = b := by
  revert b; decide

/-- A byte of class LIT_MID is its field above two zeros, and the field is 4..59. -/
theorem litMid_byte (b : Byte) (h : tagClass b = .litMid) : (b.extractLsb' 2 6 ++ 0#2 : BitVec 8) = b ∧
    4 ≤ (b.extractLsb' 2 6).toNat ∧ (b.extractLsb' 2 6).toNat ≤ 59 := by
  revert b; decide

theorem litExt1_byte (b : Byte) (h : tagClass b = .litExt1) : b = 0xF0#8 := by revert b; decide
theorem litExt2_byte (b : Byte) (h : tagClass b = .litExt2) : b = 0xF4#8 := by revert b; decide
theorem litExt3_byte (b : Byte) (h : tagClass b = .litExt3) : b = 0xF8#8 := by revert b; decide
theorem litExt4_byte (b : Byte) (h : tagClass b = .litExt4) : b = 0xFC#8 := by revert b; decide

theorem copy1_byte (b : Byte) (h : tagClass b = .copy1) :
    (b.extractLsb' 5 3 ++ b.extractLsb' 2 3 ++ 1#2 : BitVec 8) = b := by
  revert b; decide

theorem copy2_byte (b : Byte) (h : tagClass b = .copy2) : (b.extractLsb' 2 6 ++ 2#2 : BitVec 8) = b := by
  revert b; decide

theorem copy4_byte (b : Byte) (h : tagClass b = .copy4) : (b.extractLsb' 2 6 ++ 3#2 : BitVec 8) = b := by
  revert b; decide

/-- The low byte of a concatenation. -/
@[simp] theorem extract_low_byte {n : Nat} (x : BitVec n) (y : BitVec 8) : (x ++ y).extractLsb' 0 8 = y := by
  ext i hi
  simp [BitVec.getLsbD_append, hi]

/-- The bytes above the low one, at multiples of 8. -/
theorem extract_next_byte {n : Nat} (x : BitVec n) (y : BitVec 8) (k : Nat) :
    (x ++ y).extractLsb' (8 + k) 8 = x.extractLsb' k 8 := by
  ext i hi
  simp only [BitVec.getElem_extractLsb', BitVec.getLsbD_append]
  rw [if_neg (by omega)]
  congr 1
  omega

@[simp] theorem le2_high (e1 e2 : Byte) : (e2 ++ e1 : BitVec 16).extractLsb' 8 8 = e2 := by
  rw [extract_next_byte e2 e1 0]
  ext i hi
  simp

@[simp] theorem le3_mid (e1 e2 e3 : Byte) : (e3 ++ e2 ++ e1 : BitVec 24).extractLsb' 8 8 = e2 := by
  rw [extract_next_byte (e3 ++ e2) e1 0, extract_low_byte]

@[simp] theorem le3_high (e1 e2 e3 : Byte) : (e3 ++ e2 ++ e1 : BitVec 24).extractLsb' 16 8 = e3 := by
  rw [extract_next_byte (e3 ++ e2) e1 8]
  exact le2_high e2 e3

@[simp] theorem le4_second (e1 e2 e3 e4 : Byte) : (e4 ++ e3 ++ e2 ++ e1 : BitVec 32).extractLsb' 8 8 = e2 := by
  rw [extract_next_byte (e4 ++ e3 ++ e2) e1 0, extract_low_byte]

@[simp] theorem le4_third (e1 e2 e3 e4 : Byte) : (e4 ++ e3 ++ e2 ++ e1 : BitVec 32).extractLsb' 16 8 = e3 := by
  rw [extract_next_byte (e4 ++ e3 ++ e2) e1 8]
  exact le3_mid e2 e3 e4

@[simp] theorem le4_fourth (e1 e2 e3 e4 : Byte) : (e4 ++ e3 ++ e2 ++ e1 : BitVec 32).extractLsb' 24 8 = e4 := by
  rw [extract_next_byte (e4 ++ e3 ++ e2) e1 16]
  exact le3_high e2 e3 e4

/-- A 16-bit value is its two bytes. -/
@[simp] theorem le2_join (v : BitVec 16) : (v.extractLsb' 8 8 ++ v.extractLsb' 0 8 : BitVec 16) = v := by
  apply BitVec.eq_of_toNat_eq
  rw [BitVec.toNat_append]
  simp only [BitVec.extractLsb'_toNat]
  rw [← Nat.shiftLeft_add_eq_or_of_lt (by omega)]
  simp only [Nat.shiftLeft_eq, Nat.shiftRight_eq_div_pow]
  omega

/-- A 24-bit value is its three bytes. -/
@[simp] theorem le3_join (v : BitVec 24) :
    (v.extractLsb' 16 8 ++ v.extractLsb' 8 8 ++ v.extractLsb' 0 8 : BitVec 24) = v := by
  apply BitVec.eq_of_toNat_eq
  rw [BitVec.toNat_append, BitVec.toNat_append]
  simp only [BitVec.extractLsb'_toNat]
  rw [← Nat.shiftLeft_add_eq_or_of_lt (by omega), ← Nat.shiftLeft_add_eq_or_of_lt (by omega)]
  simp only [Nat.shiftLeft_eq, Nat.shiftRight_eq_div_pow]
  omega

/-- A 32-bit value is its four bytes. -/
@[simp] theorem le4_join (v : BitVec 32) :
    (v.extractLsb' 24 8 ++ v.extractLsb' 16 8 ++ v.extractLsb' 8 8 ++ v.extractLsb' 0 8 : BitVec 32) = v := by
  apply BitVec.eq_of_toNat_eq
  rw [BitVec.toNat_append, BitVec.toNat_append, BitVec.toNat_append]
  simp only [BitVec.extractLsb'_toNat]
  rw [← Nat.shiftLeft_add_eq_or_of_lt (by omega), ← Nat.shiftLeft_add_eq_or_of_lt (by omega),
    ← Nat.shiftLeft_add_eq_or_of_lt (by omega)]
  simp only [Nat.shiftLeft_eq, Nat.shiftRight_eq_div_pow]
  omega

/-- An 11-bit offset is its high three bits and its low byte. -/
@[simp] theorem offset11_join (v : BitVec 11) : (v.extractLsb' 8 3 ++ v.extractLsb' 0 8 : BitVec 11) = v := by
  apply BitVec.eq_of_toNat_eq
  rw [BitVec.toNat_append]
  simp only [BitVec.extractLsb'_toNat]
  rw [← Nat.shiftLeft_add_eq_or_of_lt (by omega)]
  simp only [Nat.shiftLeft_eq, Nat.shiftRight_eq_div_pow]
  omega

@[simp] theorem offset11_high (h : BitVec 3) (b1 : Byte) : (h ++ b1 : BitVec 11).extractLsb' 8 3 = h := by
  ext i hi
  simp only [BitVec.getElem_extractLsb', BitVec.getLsbD_append]
  rw [if_neg (by omega)]
  simp [hi]

/-- Bytes joined are the little-endian sum (20_memory.md R66). -/
theorem le2_toNat (e1 e2 : Byte) : (e2 ++ e1 : BitVec 16).toNat = e1.toNat + e2.toNat * 2 ^ 8 := by
  rw [BitVec.toNat_append, ← Nat.shiftLeft_add_eq_or_of_lt (by omega), Nat.shiftLeft_eq]
  omega

theorem le3_toNat (e1 e2 e3 : Byte) :
    (e3 ++ e2 ++ e1 : BitVec 24).toNat = e1.toNat + e2.toNat * 2 ^ 8 + e3.toNat * 2 ^ 16 := by
  rw [BitVec.toNat_append, ← Nat.shiftLeft_add_eq_or_of_lt (by omega), Nat.shiftLeft_eq, le2_toNat]
  omega

theorem le4_toNat (e1 e2 e3 e4 : Byte) : (e4 ++ e3 ++ e2 ++ e1 : BitVec 32).toNat =
    e1.toNat + e2.toNat * 2 ^ 8 + e3.toNat * 2 ^ 16 + e4.toNat * 2 ^ 24 := by
  rw [BitVec.toNat_append, ← Nat.shiftLeft_add_eq_or_of_lt (by omega), Nat.shiftLeft_eq, le3_toNat]
  omega

theorem offset11_toNat (h : BitVec 3) (b1 : Byte) : (h ++ b1 : BitVec 11).toNat = h.toNat * 256 + b1.toNat := by
  rw [BitVec.toNat_append, ← Nat.shiftLeft_add_eq_or_of_lt (by omega), Nat.shiftLeft_eq]

/-- A decoded symbol has the class of its tag byte. -/
theorem tagClass_of_decoded {b0 : Byte} {rest r : List Byte} {i : Instr}
    (h : decodeStream (b0 :: rest) = .ok (i, r)) : i.tagClass? = some (tagClass b0) := by
  simp only [decodeStream] at h
  split at h <;> simp_all [Instr.tagClass?]
  all_goals (obtain ⟨rfl, rfl⟩ := h; rfl)

/-- Only an empty list has no tag byte. -/
theorem decode_noTagByte_iff (bs : List Byte) : decodeStream bs = .error .noTagByte ↔ bs = [] := by
  cases bs with
  | nil => simp [decodeStream]
  | cons b rest =>
    simp only [decodeStream]
    split <;> simp

/-- Whatever is decoded is a stream symbol. -/
theorem decoded_is_symbol {bs r : List Byte} {i : Instr} (h : decodeStream bs = .ok (i, r)) :
    ∃ cls, i.tagClass? = some cls := by
  cases bs with
  | nil => simp [decodeStream] at h
  | cons b rest => exact ⟨_, tagClass_of_decoded h⟩

/-- A stream symbol's header decodes to it whatever bytes follow, and those are left over. -/
theorem decodeStream_header (i : Instr) (cls : TagClass) (rest : List Byte) (hw : i.wellFormed = true)
    (hc : i.tagClass? = some cls) : decodeStream (i.header ++ rest) = .ok (i, rest) := by
  cases i <;> simp only [Instr.tagClass?, reduceCtorEq] at hc
  case litMid l =>
    simp only [Instr.wellFormed, Bool.and_eq_true, decide_eq_true_eq] at hw
    simp [Instr.header, decodeStream, tagClass_litMid l hw.1 hw.2]
  all_goals simp [Instr.header, decodeStream]

end Sys2Proof
end

