-- ==== Sys2Proof/Laws/Assemble.lean ====
section
/-! SUPPORT. The notation: what each line form assembles to decodes to. -/

namespace Sys2Proof.Machine

/-- The tag byte of an inline literal. -/
theorem inline_literal_byte : ∀ k : Fin 60, (k.val < 4 → tagClass (BitVec.ofNat 8 (k.val * 4)) = .litShort ∧ ((BitVec.ofNat 8 (k.val * 4)).extractLsb' 2 2).toNat = k.val) ∧
   (4 ≤ k.val → tagClass (BitVec.ofNat 8 (k.val * 4)) = .litMid ∧ ((BitVec.ofNat 8 (k.val * 4)).extractLsb' 2 6).toNat = k.val) := by decide

/-- The bytes decode to a literal of the payload's length, with the payload left over. -/
def DecodesToLiteral (p bs : List Byte) : Prop := ∃ i cls, decodeStream bs = .ok (i, p) ∧ i.tagClass? = some cls ∧ cls.kind = .lit ∧ blen i = p.length

/-- An inline literal line. -/
theorem asmLit_decodes {lo hi : Nat} {p bs : List Byte} (hlo : 1 ≤ lo) (hhi : hi ≤ 60) (h : asmLit lo hi p = some bs) : DecodesToLiteral p bs := by
  simp only [asmLit] at h
  split at h
  · rename_i hl
    injection h with h; subst h
    have := inline_literal_byte ⟨p.length - 1, by omega⟩
    simp only at this
    by_cases h4 : p.length - 1 < 4
    · obtain ⟨e1, e2⟩ := this.1 h4
      refine ⟨_, .litShort, by simp only [decodeStream, e1]; exact rfl, rfl, rfl, ?_⟩
      simp only [blen, e2]; omega
    · obtain ⟨e1, e2⟩ := this.2 (by omega)
      refine ⟨_, .litMid, by simp only [decodeStream, e1]; exact rfl, rfl, rfl, ?_⟩
      simp only [blen, e2]; omega
  · cases h

/-- The low byte of a number. -/
theorem low_byte_toNat (n : Nat) : (BitVec.ofNat 8 n).toNat = n % 256 := by simp

/-- An extended literal line. -/
theorem asmLitX_decodes {k : Nat} {p bs : List Byte} (h : asmLitX k p = some bs) : DecodesToLiteral p bs := by
  simp only [asmLitX] at h
  split at h
  · rename_i hl
    injection h with h; subst h
    obtain ⟨h1, h2, h3, h4⟩ := hl
    obtain rfl | rfl | rfl | rfl : k = 1 ∨ k = 2 ∨ k = 3 ∨ k = 4 := by omega
    · refine ⟨_, .litExt1, rfl, rfl, rfl, ?_⟩
      simp only [blen, low_byte_toNat]; omega
    · refine ⟨_, .litExt2, rfl, rfl, rfl, ?_⟩
      simp only [blen, le2_toNat, low_byte_toNat]; omega
    · refine ⟨_, .litExt3, rfl, rfl, rfl, ?_⟩
      simp only [blen, le3_toNat, low_byte_toNat]; omega
    · refine ⟨_, .litExt4, rfl, rfl, rfl, ?_⟩
      simp only [blen, le4_toNat, low_byte_toNat]; omega
  · cases h

/-- The shortest literal form. -/
theorem shortestLit_decodes {p bs : List Byte} (h : asmCore (shortestLit p) = some bs) : DecodesToLiteral p bs := by
  simp only [shortestLit] at h
  split at h
  · exact asmLit_decodes (by omega) (by omega) h
  · split at h
    · exact asmLit_decodes (by omega) (by omega) h
    · split at h
      · exact asmLitX_decodes h
      · split at h
        · exact asmLitX_decodes h
        · split at h <;> exact asmLitX_decodes h

/-- The bytes decode to a copy of that length and offset, with nothing left over. -/
def DecodesToCopy (len off : Nat) (bs : List Byte) : Prop := ∃ i, decodeStream bs = .ok (i, []) ∧ blen i = len ∧ ((∃ l o, i = .copy1 l o ∧ o.toNat = off) ∨
      (∃ l o, i = .copy2 l o ∧ o.toNat = off) ∨ (∃ l o, i = .copy4 l o ∧ o.toNat = off))

/-- The tag byte of a COPY1. -/
theorem copy1_tag_byte : ∀ (h : Fin 8) (l : Fin 8), tagClass (BitVec.ofNat 8 (h.val * 32 + l.val * 4 + 1)) = .copy1 ∧
    ((BitVec.ofNat 8 (h.val * 32 + l.val * 4 + 1)).extractLsb' 2 3).toNat = l.val ∧ ((BitVec.ofNat 8 (h.val * 32 + l.val * 4 + 1)).extractLsb' 5 3).toNat = h.val := by decide

/-- The tag byte of a COPY2. -/
theorem copy2_tag_byte : ∀ (l : Fin 64), tagClass (BitVec.ofNat 8 (l.val * 4 + 2)) = .copy2 ∧ ((BitVec.ofNat 8 (l.val * 4 + 2)).extractLsb' 2 6).toNat = l.val := by decide

/-- The tag byte of a COPY4. -/
theorem copy4_tag_byte : ∀ (l : Fin 64), tagClass (BitVec.ofNat 8 (l.val * 4 + 3)) = .copy4 ∧ ((BitVec.ofNat 8 (l.val * 4 + 3)).extractLsb' 2 6).toNat = l.val := by decide

/-- A `copy1` line. -/
theorem asmCopy1_decodes {len off : Nat} {bs : List Byte} (h : asmCopy1 len off = some bs) : DecodesToCopy len off bs := by
  simp only [asmCopy1] at h
  split at h
  · injection h with h; subst h
    obtain ⟨e1, e2, e3⟩ := copy1_tag_byte ⟨off / 256, by omega⟩ ⟨len - 4, by omega⟩
    simp only at e1 e2 e3
    refine ⟨_, by simp only [decodeStream, e1]; exact rfl, by simp only [blen, e2]; omega, .inl ⟨_, _, rfl, ?_⟩⟩
    rw [offset11_toNat, e3, low_byte_toNat]; omega
  · cases h

/-- A `copy2` line. -/
theorem asmCopy2_decodes {len off : Nat} {bs : List Byte} (h : asmCopy2 len off = some bs) : DecodesToCopy len off bs := by
  simp only [asmCopy2] at h
  split at h
  · injection h with h; subst h
    obtain ⟨e1, e2⟩ := copy2_tag_byte ⟨len - 1, by omega⟩
    simp only at e1 e2
    refine ⟨_, by simp only [decodeStream, e1, leBytes]; exact rfl, by simp only [blen, e2]; omega, .inr (.inl ⟨_, _, rfl, ?_⟩)⟩
    rw [le2_toNat, low_byte_toNat, low_byte_toNat]; omega
  · cases h

/-- A `copy4` line. -/
theorem asmCopy4_decodes {len off : Nat} {bs : List Byte} (h : asmCopy4 len off = some bs) : DecodesToCopy len off bs := by
  simp only [asmCopy4] at h
  split at h
  · injection h with h; subst h
    obtain ⟨e1, e2⟩ := copy4_tag_byte ⟨len - 1, by omega⟩
    simp only at e1 e2
    refine ⟨_, by simp only [decodeStream, e1, leBytes]; exact rfl, by simp only [blen, e2]; omega, .inr (.inr ⟨_, _, rfl, ?_⟩)⟩
    rw [le4_toNat, low_byte_toNat, low_byte_toNat, low_byte_toNat, low_byte_toNat]; omega
  · cases h

end Sys2Proof.Machine
end

