-- ==== Sys2Proof/Laws/State.lean ====
section
/-! SUPPORT. For each named update of the state, one lemma a field: what the field holds afterwards. -/

namespace Sys2Proof.Machine

/-! ### finish -/

@[simp] theorem finish_sd_state (r : SdResult) (s : State) : (finish r s).sd.state = .done := rfl
@[simp] theorem finish_sd_result (r : SdResult) (s : State) : (finish r s).sd.result = r := rfl
@[simp] theorem finish_sd_streamLen (r : SdResult) (s : State) : (finish r s).sd.streamLen = s.sd.streamLen := rfl
@[simp] theorem finish_sd_startCursor (r : SdResult) (s : State) : (finish r s).sd.startCursor = s.sd.startCursor := rfl
@[simp] theorem finish_sd_ulen (r : SdResult) (s : State) : (finish r s).sd.ulen = s.sd.ulen := rfl
@[simp] theorem finish_sd_cursor (r : SdResult) (s : State) : (finish r s).sd.cursor = s.sd.cursor := rfl
@[simp] theorem finish_sd_bytesLeft (r : SdResult) (s : State) : (finish r s).sd.bytesLeft = s.sd.bytesLeft := rfl
@[simp] theorem finish_sd_dstPos (r : SdResult) (s : State) : (finish r s).sd.dstPos = s.sd.dstPos := rfl
@[simp] theorem finish_sd_symCount (r : SdResult) (s : State) : (finish r s).sd.symCount = s.sd.symCount := rfl
@[simp] theorem finish_sd_out (r : SdResult) (s : State) : (finish r s).sd.out = s.sd.out := rfl
@[simp] theorem finish_lm (r : SdResult) (s : State) : (finish r s).lm = s.lm := rfl
@[simp] theorem finish_params (r : SdResult) (s : State) : (finish r s).params = s.params := rfl
@[simp] theorem finish_port (r : SdResult) (s : State) : (finish r s).port = s.port := rfl
@[simp] theorem finish_accepted (r : SdResult) (s : State) : (finish r s).accepted = s.accepted := rfl
@[simp] theorem finish_mem (r : SdResult) (s : State) : (finish r s).mem = s.mem := rfl
@[simp] theorem finish_loan (r : SdResult) (s : State) : (finish r s).loan = s.loan := rfl
@[simp] theorem finish_readData (r : SdResult) (s : State) : (finish r s).readData = s.readData := rfl
@[simp] theorem finish_agenda (r : SdResult) (s : State) : (finish r s).agenda = s.agenda := rfl

/-! ### pushRecord -/

@[simp] theorem pushRecord_sd_state (r : SymRec) (s : State) : (pushRecord r s).sd.state = s.sd.state := rfl
@[simp] theorem pushRecord_sd_result (r : SymRec) (s : State) : (pushRecord r s).sd.result = s.sd.result := rfl
@[simp] theorem pushRecord_sd_streamLen (r : SymRec) (s : State) : (pushRecord r s).sd.streamLen = s.sd.streamLen := rfl
@[simp] theorem pushRecord_sd_startCursor (r : SymRec) (s : State) : (pushRecord r s).sd.startCursor = s.sd.startCursor := rfl
@[simp] theorem pushRecord_sd_ulen (r : SymRec) (s : State) : (pushRecord r s).sd.ulen = s.sd.ulen := rfl
@[simp] theorem pushRecord_sd_cursor (r : SymRec) (s : State) : (pushRecord r s).sd.cursor = Word.ofNat (s.sd.cursor.toNat + r.width.toNat) := rfl
@[simp] theorem pushRecord_sd_bytesLeft (r : SymRec) (s : State) : (pushRecord r s).sd.bytesLeft = Word.ofNat (s.sd.bytesLeft.toNat - r.len.toNat) := rfl
@[simp] theorem pushRecord_sd_dstPos (r : SymRec) (s : State) : (pushRecord r s).sd.dstPos = Word.ofNat (s.sd.dstPos.toNat + r.len.toNat) := rfl
@[simp] theorem pushRecord_sd_symCount (r : SymRec) (s : State) : (pushRecord r s).sd.symCount = Word.ofNat (s.sd.symCount.toNat + 1) := rfl
@[simp] theorem pushRecord_sd_out (r : SymRec) (s : State) : (pushRecord r s).sd.out = s.sd.out ++ [r] := rfl
@[simp] theorem pushRecord_lm (r : SymRec) (s : State) : (pushRecord r s).lm = s.lm := rfl
@[simp] theorem pushRecord_params (r : SymRec) (s : State) : (pushRecord r s).params = s.params := rfl
@[simp] theorem pushRecord_port (r : SymRec) (s : State) : (pushRecord r s).port = s.port ++ [r] := rfl
@[simp] theorem pushRecord_accepted (r : SymRec) (s : State) : (pushRecord r s).accepted = s.accepted := rfl
@[simp] theorem pushRecord_mem (r : SymRec) (s : State) : (pushRecord r s).mem = s.mem := rfl
@[simp] theorem pushRecord_loan (r : SymRec) (s : State) : (pushRecord r s).loan = s.loan := rfl
@[simp] theorem pushRecord_readData (r : SymRec) (s : State) : (pushRecord r s).readData = s.readData := rfl
@[simp] theorem pushRecord_agenda (r : SymRec) (s : State) : (pushRecord r s).agenda = s.agenda := rfl

/-! ### beginSdRun -/

@[simp] theorem beginSdRun_sd_state (st : RunState) (r : SdResult) (s : State) : (beginSdRun st r s).sd.state = st := rfl
@[simp] theorem beginSdRun_sd_result (st : RunState) (r : SdResult) (s : State) : (beginSdRun st r s).sd.result = r := rfl
@[simp] theorem beginSdRun_sd_streamLen (st : RunState) (r : SdResult) (s : State) : (beginSdRun st r s).sd.streamLen = s.sd.streamLen := rfl
@[simp] theorem beginSdRun_sd_startCursor (st : RunState) (r : SdResult) (s : State) : (beginSdRun st r s).sd.startCursor = s.sd.startCursor := rfl
@[simp] theorem beginSdRun_sd_ulen (st : RunState) (r : SdResult) (s : State) : (beginSdRun st r s).sd.ulen = s.sd.ulen := rfl
@[simp] theorem beginSdRun_sd_cursor (st : RunState) (r : SdResult) (s : State) : (beginSdRun st r s).sd.cursor = s.sd.startCursor := rfl
@[simp] theorem beginSdRun_sd_bytesLeft (st : RunState) (r : SdResult) (s : State) : (beginSdRun st r s).sd.bytesLeft = s.sd.ulen := rfl
@[simp] theorem beginSdRun_sd_dstPos (st : RunState) (r : SdResult) (s : State) : (beginSdRun st r s).sd.dstPos = 0 := rfl
@[simp] theorem beginSdRun_sd_symCount (st : RunState) (r : SdResult) (s : State) : (beginSdRun st r s).sd.symCount = 0 := rfl
@[simp] theorem beginSdRun_sd_out (st : RunState) (r : SdResult) (s : State) : (beginSdRun st r s).sd.out = [] := rfl
@[simp] theorem beginSdRun_lm (st : RunState) (r : SdResult) (s : State) : (beginSdRun st r s).lm = s.lm := rfl
@[simp] theorem beginSdRun_params (st : RunState) (r : SdResult) (s : State) : (beginSdRun st r s).params = s.params := rfl
@[simp] theorem beginSdRun_port (st : RunState) (r : SdResult) (s : State) : (beginSdRun st r s).port = s.port := rfl
@[simp] theorem beginSdRun_accepted (st : RunState) (r : SdResult) (s : State) : (beginSdRun st r s).accepted = s.accepted := rfl
@[simp] theorem beginSdRun_mem (st : RunState) (r : SdResult) (s : State) : (beginSdRun st r s).mem = s.mem := rfl
@[simp] theorem beginSdRun_loan (st : RunState) (r : SdResult) (s : State) : (beginSdRun st r s).loan = some { lo := s.sd.startCursor, hi := s.sd.streamLen } := rfl
@[simp] theorem beginSdRun_readData (st : RunState) (r : SdResult) (s : State) : (beginSdRun st r s).readData = s.readData := rfl
@[simp] theorem beginSdRun_agenda (st : RunState) (r : SdResult) (s : State) : (beginSdRun st r s).agenda = s.agenda := rfl

/-! ### beginLmRun -/

@[simp] theorem beginLmRun_sd  (s : State) : (beginLmRun s).sd = s.sd := rfl
@[simp] theorem beginLmRun_lm_state  (s : State) : (beginLmRun s).lm.state = .busy := rfl
@[simp] theorem beginLmRun_lm_result  (s : State) : (beginLmRun s).lm.result = .none := rfl
@[simp] theorem beginLmRun_lm_limit  (s : State) : (beginLmRun s).lm.limit = s.lm.limit := rfl
@[simp] theorem beginLmRun_lm_nwords  (s : State) : (beginLmRun s).lm.nwords = s.lm.nwords := rfl
@[simp] theorem beginLmRun_lm_w  (s : State) : (beginLmRun s).lm.w = s.lm.w := rfl
@[simp] theorem beginLmRun_lm_mask  (s : State) : (beginLmRun s).lm.mask = s.lm.mask := rfl
@[simp] theorem beginLmRun_lm_consumed  (s : State) : (beginLmRun s).lm.consumed = s.lm.consumed := rfl
@[simp] theorem beginLmRun_lm_work  (s : State) : (beginLmRun s).lm.work = s.lm.work := rfl
@[simp] theorem beginLmRun_params  (s : State) : (beginLmRun s).params = s.params := rfl
@[simp] theorem beginLmRun_port  (s : State) : (beginLmRun s).port = s.port := rfl
@[simp] theorem beginLmRun_accepted  (s : State) : (beginLmRun s).accepted = s.accepted := rfl
@[simp] theorem beginLmRun_mem  (s : State) : (beginLmRun s).mem = s.mem := rfl
@[simp] theorem beginLmRun_loan  (s : State) : (beginLmRun s).loan = s.loan := rfl
@[simp] theorem beginLmRun_readData  (s : State) : (beginLmRun s).readData = s.readData := rfl
@[simp] theorem beginLmRun_agenda  (s : State) : (beginLmRun s).agenda = s.agenda := rfl

/-! ### clearWork -/

@[simp] theorem clearWork_sd  (s : State) : (clearWork s).sd = s.sd := rfl
@[simp] theorem clearWork_lm_state  (s : State) : (clearWork s).lm.state = s.lm.state := rfl
@[simp] theorem clearWork_lm_result  (s : State) : (clearWork s).lm.result = s.lm.result := rfl
@[simp] theorem clearWork_lm_limit  (s : State) : (clearWork s).lm.limit = s.lm.limit := rfl
@[simp] theorem clearWork_lm_nwords  (s : State) : (clearWork s).lm.nwords = s.lm.nwords := rfl
@[simp] theorem clearWork_lm_w  (s : State) : (clearWork s).lm.w = s.lm.w := rfl
@[simp] theorem clearWork_lm_mask  (s : State) : (clearWork s).lm.mask = s.lm.mask := rfl
@[simp] theorem clearWork_lm_consumed  (s : State) : (clearWork s).lm.consumed = s.lm.consumed := rfl
@[simp] theorem clearWork_lm_work  (s : State) : (clearWork s).lm.work = LmWork.zero := rfl
@[simp] theorem clearWork_params  (s : State) : (clearWork s).params = s.params := rfl
@[simp] theorem clearWork_port  (s : State) : (clearWork s).port = s.port := rfl
@[simp] theorem clearWork_accepted  (s : State) : (clearWork s).accepted = s.accepted := rfl
@[simp] theorem clearWork_mem  (s : State) : (clearWork s).mem = s.mem := rfl
@[simp] theorem clearWork_loan  (s : State) : (clearWork s).loan = s.loan := rfl
@[simp] theorem clearWork_readData  (s : State) : (clearWork s).readData = s.readData := rfl
@[simp] theorem clearWork_agenda  (s : State) : (clearWork s).agenda = s.agenda := rfl

/-! ### lmFail -/

@[simp] theorem lmFail_sd (r : LmResult) (s : State) : (lmFail r s).sd = s.sd := rfl
@[simp] theorem lmFail_lm_state (r : LmResult) (s : State) : (lmFail r s).lm.state = .done := rfl
@[simp] theorem lmFail_lm_result (r : LmResult) (s : State) : (lmFail r s).lm.result = r := rfl
@[simp] theorem lmFail_lm_limit (r : LmResult) (s : State) : (lmFail r s).lm.limit = s.lm.limit := rfl
@[simp] theorem lmFail_lm_nwords (r : LmResult) (s : State) : (lmFail r s).lm.nwords = s.lm.nwords := rfl
@[simp] theorem lmFail_lm_w (r : LmResult) (s : State) : (lmFail r s).lm.w = s.lm.w := rfl
@[simp] theorem lmFail_lm_mask (r : LmResult) (s : State) : (lmFail r s).lm.mask = 0 := rfl
@[simp] theorem lmFail_lm_consumed (r : LmResult) (s : State) : (lmFail r s).lm.consumed = 0 := rfl
@[simp] theorem lmFail_lm_work (r : LmResult) (s : State) : (lmFail r s).lm.work = LmWork.zero := rfl
@[simp] theorem lmFail_params (r : LmResult) (s : State) : (lmFail r s).params = s.params := rfl
@[simp] theorem lmFail_port (r : LmResult) (s : State) : (lmFail r s).port = s.port := rfl
@[simp] theorem lmFail_accepted (r : LmResult) (s : State) : (lmFail r s).accepted = s.accepted := rfl
@[simp] theorem lmFail_mem (r : LmResult) (s : State) : (lmFail r s).mem = s.mem := rfl
@[simp] theorem lmFail_loan (r : LmResult) (s : State) : (lmFail r s).loan = s.loan := rfl
@[simp] theorem lmFail_readData (r : LmResult) (s : State) : (lmFail r s).readData = s.readData := rfl
@[simp] theorem lmFail_agenda (r : LmResult) (s : State) : (lmFail r s).agenda = s.agenda := rfl

/-! ### lmSucceed -/

@[simp] theorem lmSucceed_sd  (s : State) : (lmSucceed s).sd = s.sd := rfl
@[simp] theorem lmSucceed_lm_state  (s : State) : (lmSucceed s).lm.state = .done := rfl
@[simp] theorem lmSucceed_lm_result  (s : State) : (lmSucceed s).lm.result = .ok := rfl
@[simp] theorem lmSucceed_lm_limit  (s : State) : (lmSucceed s).lm.limit = s.lm.limit := rfl
@[simp] theorem lmSucceed_lm_nwords  (s : State) : (lmSucceed s).lm.nwords = s.lm.nwords := rfl
@[simp] theorem lmSucceed_lm_w  (s : State) : (lmSucceed s).lm.w = s.lm.w := rfl
@[simp] theorem lmSucceed_lm_mask  (s : State) : (lmSucceed s).lm.mask = s.lm.work.m := rfl
@[simp] theorem lmSucceed_lm_consumed  (s : State) : (lmSucceed s).lm.consumed = BitVec.ofNat 8 s.lm.work.p := rfl
@[simp] theorem lmSucceed_lm_work  (s : State) : (lmSucceed s).lm.work = LmWork.zero := rfl
@[simp] theorem lmSucceed_params  (s : State) : (lmSucceed s).params = s.params := rfl
@[simp] theorem lmSucceed_port  (s : State) : (lmSucceed s).port = s.port := rfl
@[simp] theorem lmSucceed_accepted  (s : State) : (lmSucceed s).accepted = s.accepted := rfl
@[simp] theorem lmSucceed_mem  (s : State) : (lmSucceed s).mem = s.mem := rfl
@[simp] theorem lmSucceed_loan  (s : State) : (lmSucceed s).loan = s.loan := rfl
@[simp] theorem lmSucceed_readData  (s : State) : (lmSucceed s).readData = s.readData := rfl
@[simp] theorem lmSucceed_agenda  (s : State) : (lmSucceed s).agenda = s.agenda := rfl

/-! ### resetEvent -/

@[simp] theorem resetEvent_sd  (s : State) : (resetEvent s).sd = SdRegs.reset := rfl
@[simp] theorem resetEvent_lm  (s : State) : (resetEvent s).lm = LmRegs.reset s.params.maxWords := rfl
@[simp] theorem resetEvent_params  (s : State) : (resetEvent s).params = s.params := rfl
@[simp] theorem resetEvent_port  (s : State) : (resetEvent s).port = [] := rfl
@[simp] theorem resetEvent_accepted  (s : State) : (resetEvent s).accepted = s.accepted := rfl
@[simp] theorem resetEvent_mem  (s : State) : (resetEvent s).mem = s.mem := rfl
@[simp] theorem resetEvent_loan  (s : State) : (resetEvent s).loan = none := rfl
@[simp] theorem resetEvent_readData  (s : State) : (resetEvent s).readData = s.readData := rfl
@[simp] theorem resetEvent_agenda  (s : State) : (resetEvent s).agenda = s.agenda := rfl

/-! ### pushMaskBit -/

@[simp] theorem pushMaskBit_sd (bit : Bool) (width : Nat) (s : State) : (pushMaskBit bit width s).sd = s.sd := rfl
@[simp] theorem pushMaskBit_lm_state (bit : Bool) (width : Nat) (s : State) : (pushMaskBit bit width s).lm.state = s.lm.state := rfl
@[simp] theorem pushMaskBit_lm_result (bit : Bool) (width : Nat) (s : State) : (pushMaskBit bit width s).lm.result = s.lm.result := rfl
@[simp] theorem pushMaskBit_lm_limit (bit : Bool) (width : Nat) (s : State) : (pushMaskBit bit width s).lm.limit = s.lm.limit := rfl
@[simp] theorem pushMaskBit_lm_nwords (bit : Bool) (width : Nat) (s : State) : (pushMaskBit bit width s).lm.nwords = s.lm.nwords := rfl
@[simp] theorem pushMaskBit_lm_w (bit : Bool) (width : Nat) (s : State) : (pushMaskBit bit width s).lm.w = s.lm.w := rfl
@[simp] theorem pushMaskBit_lm_mask (bit : Bool) (width : Nat) (s : State) : (pushMaskBit bit width s).lm.mask = s.lm.mask := rfl
@[simp] theorem pushMaskBit_lm_consumed (bit : Bool) (width : Nat) (s : State) : (pushMaskBit bit width s).lm.consumed = s.lm.consumed := rfl
@[simp] theorem pushMaskBit_lm_work (bit : Bool) (width : Nat) (s : State) : (pushMaskBit bit width s).lm.work = 
    { k := s.lm.work.k + 1
      p := s.lm.work.p + width
      m := if bit then s.lm.work.m ||| (1#64 <<< s.lm.work.k) else s.lm.work.m &&& ~~~(1#64 <<< s.lm.work.k) } := rfl
@[simp] theorem pushMaskBit_params (bit : Bool) (width : Nat) (s : State) : (pushMaskBit bit width s).params = s.params := rfl
@[simp] theorem pushMaskBit_port (bit : Bool) (width : Nat) (s : State) : (pushMaskBit bit width s).port = s.port := rfl
@[simp] theorem pushMaskBit_accepted (bit : Bool) (width : Nat) (s : State) : (pushMaskBit bit width s).accepted = s.accepted := rfl
@[simp] theorem pushMaskBit_mem (bit : Bool) (width : Nat) (s : State) : (pushMaskBit bit width s).mem = s.mem := rfl
@[simp] theorem pushMaskBit_loan (bit : Bool) (width : Nat) (s : State) : (pushMaskBit bit width s).loan = s.loan := rfl
@[simp] theorem pushMaskBit_readData (bit : Bool) (width : Nat) (s : State) : (pushMaskBit bit width s).readData = s.readData := rfl
@[simp] theorem pushMaskBit_agenda (bit : Bool) (width : Nat) (s : State) : (pushMaskBit bit width s).agenda = s.agenda := rfl

/-- `finish` is the stop of 60_exceptions.md R229. -/
theorem finish_eq_stopped (r : SdResult) (s : State) : finish r s = stopped s r := rfl

end Sys2Proof.Machine
end

