-- ==== Sys2Proof/Laws/Len3.lean ====
section
/-! SUPPORT. The len3 loop: where each flag stands and what the loop leaves. -/

namespace Sys2Proof.Machine

/-- Set one bit of a mask. -/
theorem getLsbD_set_bit (m : DWord) (k b : Nat) (hk : k < 64) :
    (m ||| (1#64 <<< k)).getLsbD b = (m.getLsbD b || decide (b = k)) := by
  rw [BitVec.getLsbD_or, BitVec.getLsbD_shiftLeft]
  by_cases h : b = k
  · subst h; simp [hk]
  · by_cases hb : b < k
    · simp [h, hb]
    · have : b - k ≠ 0 := by omega
      simp [h, BitVec.getLsbD_one, this]

/-- Clear one bit of a mask. -/
theorem getLsbD_clear_bit (m : DWord) (k b : Nat) (hk : k < 64) :
    (m &&& ~~~(1#64 <<< k)).getLsbD b = (m.getLsbD b && decide (b ≠ k)) := by
  rw [BitVec.getLsbD_and, BitVec.getLsbD_not, BitVec.getLsbD_shiftLeft]
  by_cases hb64 : b < 64
  · by_cases h : b = k
    · subst h; simp [hk]
    · by_cases hb : b < k
      · simp [h, hb, hb64]
      · have : b - k ≠ 0 := by omega
        simp [h, hb64, BitVec.getLsbD_one, this]
  · have : m.getLsbD b = false := BitVec.getLsbD_of_ge _ _ (by omega)
    simp [this]

/-- One output bit sets its own bit of the working mask and no other (42_len3_mask.md R180, R181). -/
theorem pushMaskBit_bit (bit : Bool) (width : Nat) (s : State) (b : Nat) (hk : s.lm.work.k < 64) :
    (pushMaskBit bit width s).lm.work.m.getLsbD b = if b = s.lm.work.k then bit else s.lm.work.m.getLsbD b := by
  have h : (pushMaskBit bit width s).lm.work.m = if bit then s.lm.work.m ||| (1#64 <<< s.lm.work.k)
      else s.lm.work.m &&& ~~~(1#64 <<< s.lm.work.k) := rfl
  rw [h]
  cases bit
  · rw [if_neg (by simp), getLsbD_clear_bit _ _ _ hk]
    by_cases hb : b = s.lm.work.k <;> simp [hb]
  · rw [if_pos rfl, getLsbD_set_bit _ _ _ hk]
    by_cases hb : b = s.lm.work.k <;> simp [hb]

/-- The flags' positions depend on the words alone. -/
theorem flagPos_work (lm : LmRegs) (x : LmWork) (k : Nat) : flagPos { lm with work := x } k = flagPos lm k := by
  induction k with
  | zero => rfl
  | succ k ih => simp only [flagPos, ih]; rfl

/-- `p_k` lies between `2k` and `3k` (42_len3_mask.md R191). -/
theorem flagPos_bounds (lm : LmRegs) (k : Nat) : 2 * k ≤ flagPos lm k ∧ flagPos lm k ≤ 3 * k := by
  induction k with
  | zero => simp [flagPos]
  | succ k ih =>
    have := Bool.toNat_le (wbit lm (flagPos lm k))
    simp only [flagPos]
    omega

/-- `p` strictly increases (42_len3_mask.md R191). -/
theorem flagPos_strict (lm : LmRegs) {j k : Nat} (h : j < k) : flagPos lm j < flagPos lm k := by
  induction k with
  | zero => omega
  | succ k ih =>
    simp only [flagPos]
    rcases Nat.lt_or_eq_of_le (Nat.le_of_lt_succ h) with h | h
    · have := ih h; omega
    · subst h; omega

/-- A flag's instruction pushes its own bit. -/
theorem exec_decodeFlag (flag : Bool) (s : State) :
    exec (decodeFlag flag) s = .next (pushMaskBit flag (2 + flag.toNat) s) := by
  cases flag <;> rfl

/-- One turn of the loop with a flag in the window. -/
theorem lmLoop_succ (n : Nat) (s : State) (h : s.lm.work.p < windowBits s.lm) :
    lmLoop (n + 1) s =
      lmLoop n (pushMaskBit (wbit s.lm s.lm.work.p) (2 + (wbit s.lm s.lm.work.p).toNat) s) := by
  simp only [lmLoop]
  rw [if_neg (by omega), exec_decodeFlag]

/-- What the loop does from working values that stand at flag `k`: it succeeds with the flags' bits, or it meets a flag
outside the window and fails. -/
theorem lmLoop_cases (n : Nat) (s : State) (hk : s.lm.work.k + n ≤ 64)
    (hp : s.lm.work.p = flagPos s.lm s.lm.work.k) :
    ((∀ j < n, flagPos s.lm (s.lm.work.k + j) < windowBits s.lm) ∧ ∃ m : DWord,
      lmLoop n s = .next (lmSucceed { s with lm := { s.lm with work :=
        { k := s.lm.work.k + n, p := flagPos s.lm (s.lm.work.k + n), m := m } } }) ∧
      ∀ b, m.getLsbD b = if s.lm.work.k ≤ b ∧ b < s.lm.work.k + n then wbit s.lm (flagPos s.lm b)
        else s.lm.work.m.getLsbD b) ∨
    ((∃ j < n, windowBits s.lm ≤ flagPos s.lm (s.lm.work.k + j)) ∧ lmLoop n s = .next (lmFail .errInsufficient s)) := by
  induction n generalizing s with
  | zero =>
    refine .inl ⟨fun j hj => by omega, s.lm.work.m, ?_, fun b => ?_⟩
    · simp only [lmLoop, Nat.add_zero, ← hp]
    · rw [if_neg (by omega)]
  | succ n ih =>
    by_cases hw : s.lm.work.p < windowBits s.lm
    · rw [lmLoop_succ n s hw]
      have step1 := ih (pushMaskBit (wbit s.lm s.lm.work.p) (2 + (wbit s.lm s.lm.work.p).toNat) s)
        (by simp; omega)
        (by
          show s.lm.work.p + _ = flagPos { s.lm with work := _ } (s.lm.work.k + 1)
          rw [flagPos_work]
          simp only [flagPos, ← hp]
          omega)
      generalize hfl : wbit s.lm s.lm.work.p = fl at step1 ⊢
      have hpos : ∀ k, flagPos (pushMaskBit fl (2 + fl.toNat) s).lm k = flagPos s.lm k := fun k => flagPos_work s.lm _ k
      simp only [hpos] at step1
      have hwin : windowBits (pushMaskBit fl (2 + fl.toNat) s).lm = windowBits s.lm := rfl
      have hwb : ∀ p, wbit (pushMaskBit fl (2 + fl.toNat) s).lm p = wbit s.lm p := fun _ => rfl
      have hkk : (pushMaskBit fl (2 + fl.toNat) s).lm.work.k = s.lm.work.k + 1 := rfl
      have hbit := fun b => pushMaskBit_bit fl (2 + fl.toNat) s b (by omega)
      simp only [hwin, hwb, hkk, hbit] at step1
      rcases step1 with ⟨hall, m, he, hm⟩ | ⟨⟨j, hj, hout⟩, he⟩
      · refine .inl ⟨fun j hj => ?_, m, ?_, fun b => ?_⟩
        · cases j with
          | zero => rw [Nat.add_zero, ← hp]; exact hw
          | succ j => rw [show s.lm.work.k + (j + 1) = s.lm.work.k + 1 + j by omega]; exact hall j (by omega)
        · rw [he, show s.lm.work.k + (n + 1) = s.lm.work.k + 1 + n by omega]
          rfl
        · rw [hm b]
          by_cases hb : b = s.lm.work.k
          · subst hb
            rw [if_neg (fun h => by omega), if_pos rfl, if_pos ⟨Nat.le_refl _, by omega⟩, ← hp, hfl]
          · by_cases hin : s.lm.work.k + 1 ≤ b ∧ b < s.lm.work.k + 1 + n
            · rw [if_pos hin, if_pos ⟨by omega, by omega⟩]
            · rw [if_neg hin, if_neg hb, if_neg (fun h => hin ⟨by omega, by omega⟩)]
      · refine .inr ⟨⟨j + 1, by omega, ?_⟩, ?_⟩
        · rw [show s.lm.work.k + (j + 1) = s.lm.work.k + 1 + j by omega]; exact hout
        · rw [he]; rfl
    · refine .inr ⟨⟨0, by omega, by rw [Nat.add_zero, ← hp]; omega⟩, ?_⟩
      simp only [lmLoop]
      rw [if_pos (by omega)]

/-- What a BUSY LM's turn does: a contract error, a result, or too few words (60_exceptions.md R234). -/
theorem lmMove_cases (s : State) (hb : s.lm.state = .busy) :
    ((64 < s.lm.limit.toNat ∨ s.params.maxWords < s.lm.nwords.toNat) ∧ lmMove s = .next (lmFail .errContract s)) ∨
    (s.lm.limit.toNat ≤ 64 ∧ s.lm.nwords.toNat ≤ s.params.maxWords ∧
      ((flagsInWindow s.lm ∧ ∃ m : DWord,
        lmMove s = .next (lmSucceed { s with lm := { s.lm with work :=
          { k := s.lm.limit.toNat, p := flagPos s.lm s.lm.limit.toNat, m := m } } }) ∧
        ∀ b, m.getLsbD b = (decide (b < s.lm.limit.toNat) && wbit s.lm (flagPos s.lm b))) ∨
      (¬ flagsInWindow s.lm ∧ lmMove s = .next (lmFail .errInsufficient s)))) := by
  by_cases hc : s.lm.limit.toNat ≤ 64 ∧ s.lm.nwords.toNat ≤ s.params.maxWords
  · refine .inr ⟨hc.1, hc.2, ?_⟩
    have hmove : lmMove s = lmLoop s.lm.limit.toNat (clearWork s) := by
      simp [lmMove, lmCompute, lmContract, Config.maskW, hb, hc.1, hc.2]
    have hpos : ∀ k, flagPos (clearWork s).lm k = flagPos s.lm k := fun k => flagPos_work s.lm _ k
    have hloop := lmLoop_cases s.lm.limit.toNat (clearWork s) (by simp [LmWork.zero]; exact hc.1) (by simp [LmWork.zero, flagPos])
    simp only [hpos, clearWork_lm_work, LmWork.zero, Nat.zero_add] at hloop
    have hwin : windowBits (clearWork s).lm = windowBits s.lm := rfl
    have hwb : ∀ p, wbit (clearWork s).lm p = wbit s.lm p := fun _ => rfl
    simp only [hwin, hwb] at hloop
    rcases hloop with ⟨hall, m, he, hm⟩ | ⟨⟨j, hj, hout⟩, he⟩
    · refine .inl ⟨hall, m, ?_, fun b => ?_⟩
      · rw [hmove, he]; rfl
      · rw [hm b]
        by_cases hlt : b < s.lm.limit.toNat
        · rw [if_pos ⟨Nat.zero_le _, hlt⟩]; simp [hlt]
        · rw [if_neg (by omega)]; simp [hlt]
    · refine .inr ⟨fun h => ?_, ?_⟩
      · have := h j hj; omega
      · rw [hmove, he]; rfl
  · refine .inl ⟨by omega, ?_⟩
    have : lmContract s.params.maxWords s.lm = false := by
      simp only [lmContract, Config.maskW, Bool.and_eq_false_iff, decide_eq_false_iff_not]
      omega
    simp [lmMove, lmCompute, this, hb]

/-- What a BUSY LM's turn leaves in its result registers, field by field. -/
theorem lmMove_result {s t : State} (hb : s.lm.state = .busy) (h : lmMove s = .next t) :
    ((64 < s.lm.limit.toNat ∨ s.params.maxWords < s.lm.nwords.toNat) ∧
      t.lm.result = .errContract ∧ t.lm.mask = 0 ∧ t.lm.consumed = 0) ∨
    (s.lm.limit.toNat ≤ 64 ∧ s.lm.nwords.toNat ≤ s.params.maxWords ∧ flagsInWindow s.lm ∧ t.lm.result = .ok ∧
      t.lm.consumed.toNat = flagPos s.lm s.lm.limit.toNat ∧
      ∀ b, t.lm.mask.getLsbD b = (decide (b < s.lm.limit.toNat) && wbit s.lm (flagPos s.lm b))) ∨
    (s.lm.limit.toNat ≤ 64 ∧ s.lm.nwords.toNat ≤ s.params.maxWords ∧ ¬ flagsInWindow s.lm ∧
      t.lm.result = .errInsufficient ∧ t.lm.mask = 0 ∧ t.lm.consumed = 0) := by
  rcases lmMove_cases s hb with ⟨hc, e⟩ | ⟨hl, hn, ⟨hin, m, e, hm⟩ | ⟨hout, e⟩⟩
  · rw [e] at h; injection h with h; subst h
    exact .inl ⟨hc, rfl, rfl, rfl⟩
  · rw [e] at h; injection h with h; subst h
    have hbd := (flagPos_bounds s.lm s.lm.limit.toNat).2
    refine .inr (.inl ⟨hl, hn, hin, rfl, ?_, hm⟩)
    simp only [lmSucceed_lm_consumed, BitVec.toNat_ofNat]
    exact Nat.mod_eq_of_lt (by omega)
  · rw [e] at h; injection h with h; subst h
    exact .inr (.inr ⟨hl, hn, hout, rfl, rfl, rfl⟩)

/-- After `n` flags the window position is `2 * n` and the ones among their bits (42_len3_mask.md R187). -/
theorem popcount_flags (lm : LmRegs) (m : DWord) (n L : Nat) (hn : n ≤ L)
    (hm : ∀ b, m.getLsbD b = (decide (b < L) && wbit lm (flagPos lm b))) : flagPos lm n = 2 * n + popcount m n := by
  induction n with
  | zero => rfl
  | succ n ih =>
    simp only [flagPos, popcount, List.range_succ, List.map_append, List.map_cons, List.map_nil, List.sum_append, List.sum_cons, List.sum_nil]
    have := ih (by omega)
    rw [popcount] at this
    rw [hm n]
    simp only [show n < L by omega, decide_true, Bool.true_and]
    omega

/-- Bits that are all 0 add nothing to the count. -/
theorem popcount_ext (m : DWord) (n d : Nat) (h : ∀ k, n ≤ k → m.getLsbD k = false) : popcount m (n + d) = popcount m n := by
  induction d with
  | zero => rfl
  | succ d ih =>
    rw [← Nat.add_assoc, popcount, List.range_succ, List.map_append, List.sum_append]
    rw [popcount] at ih
    rw [ih]; simp [h (n + d) (by omega)]

/-- A flag's position depends on the words before it alone (42_len3_mask.md R192). -/
theorem flagPos_congr (lm : LmRegs) (ws : List DWord) (N : Nat) (hw : ∀ j < N, ws.getD j 0 = lm.w.getD j 0) (k : Nat)
    (h : ∀ j < k, flagPos lm j < 64 * N) : flagPos { lm with w := ws } k = flagPos lm k := by
  induction k with
  | zero => rfl
  | succ k ih =>
    have e := ih (fun j hj => h j (by omega))
    simp only [flagPos, e]
    have : wbit { lm with w := ws } (flagPos lm k) = wbit lm (flagPos lm k) := by
      simp only [wbit]; rw [hw _ (by have := h k (by omega); omega)]
    rw [this]

/-- The loop runs alike on windows that agree below NWORDS (42_len3_mask.md R192). -/
theorem lmLoop_words (n : Nat) (s : State) (ws : List DWord) (hw : ∀ j < s.lm.nwords.toNat, ws.getD j 0 = s.lm.w.getD j 0) (t : State) (h : lmLoop n s = .next t) :
    lmLoop n { s with lm := { s.lm with w := ws } } = .next { t with lm := { t.lm with w := ws } } := by
  induction n generalizing s with
  | zero => simp only [lmLoop] at h ⊢; injection h with h; subst h; rfl
  | succ n ih =>
    by_cases hp : s.lm.work.p < windowBits s.lm
    · rw [lmLoop_succ n s hp] at h
      rw [lmLoop_succ n { s with lm := { s.lm with w := ws } } hp]
      have hb : wbit { s.lm with w := ws } s.lm.work.p = wbit s.lm s.lm.work.p := by
        simp only [wbit]; rw [hw _ (by simp only [windowBits] at hp; omega)]
      have ih' := ih (pushMaskBit (wbit s.lm s.lm.work.p) (2 + (wbit s.lm s.lm.work.p).toNat) s) hw h
      show lmLoop n (pushMaskBit (wbit { s.lm with w := ws } s.lm.work.p) (2 + (wbit { s.lm with w := ws } s.lm.work.p).toNat) { s with lm := { s.lm with w := ws } }) = _
      rw [hb]
      exact ih'
    · have : lmLoop (n+1) s = .next (lmFail .errInsufficient s) := by simp only [lmLoop]; rw [if_pos (by omega)]
      rw [this] at h; injection h with h; subst h
      simp only [lmLoop]; rw [if_pos (by show windowBits s.lm ≤ s.lm.work.p; omega)]; rfl

end Sys2Proof.Machine
end

