-- ==== Sys2Proof/Laws/Memory.lean ====
section
/-! SUPPORT. Stream memory: read after write, and the canonical form. -/

namespace Sys2Proof.Machine

/-- An address below all listed ones reads blank. -/
theorem Memory.read_of_all_gt (m : Memory) (x : Nat) (h : ∀ c ∈ m, x < c.1) : Memory.read m x = Memory.blank := by
  induction m with
  | nil => rfl
  | cons c m ih =>
    have hc := h c (by simp)
    simp only [Memory.read]
    rw [if_neg (by omega)]
    exact ih (fun d hd => h d (by simp [hd]))

/-- A read at the written address gives the byte written. -/
theorem Memory.read_write_same (m : Memory) (hm : m.wf) (x : Nat) (v : Byte) : (m.write x v).read x = v := by
  induction m with
  | nil => by_cases hv : v = Memory.blank <;> simp [Memory.write, Memory.read, hv]
  | cons c m ih =>
    obtain ⟨a, b⟩ := c
    obtain ⟨hp, hb⟩ := hm
    rw [List.pairwise_cons] at hp
    have ihm := ih ⟨hp.2, fun d hd => hb d (by simp [hd])⟩
    simp only [Memory.write]
    split
    · by_cases hv : v = Memory.blank
      · subst hv
        rw [if_pos rfl]
        apply Memory.read_of_all_gt
        intro d hd
        rcases List.mem_cons.mp hd with rfl | hd
        · assumption
        · have := hp.1 d hd
          simp at this
          omega
      · simp [hv, Memory.read]
    · split
      · by_cases hv : v = Memory.blank
        · subst hv
          rw [if_pos rfl]
          apply Memory.read_of_all_gt
          intro d hd
          have := hp.1 d hd
          simp at this
          omega
        · simp [hv, Memory.read]
      · simp only [Memory.read]
        rw [if_neg (by omega)]
        exact ihm

/-- A write leaves every other address as it was. -/
theorem Memory.read_write_other (m : Memory) (x y : Nat) (v : Byte) (h : y ≠ x) :
    (m.write x v).read y = m.read y := by
  induction m with
  | nil =>
    by_cases hv : v = Memory.blank <;> simp [Memory.write, Memory.read, hv]
    omega
  | cons c m ih =>
    obtain ⟨a, b⟩ := c
    simp only [Memory.write]
    split
    · split
      · rfl
      · simp only [Memory.read]; rw [if_neg (by omega)]
    · split
      · subst_vars
        split <;> simp only [Memory.read] <;> rw [if_neg (by omega)]
        rw [if_neg (by omega)]
      · simp only [Memory.read, ih]

/-- The cells of a written memory are old ones or the new one. -/
theorem Memory.mem_write {m : Memory} {x : Nat} {v : Byte} {c : Host.Cell} (h : c ∈ m.write x v) :
    c ∈ m ∨ (c = (x, v) ∧ v ≠ Memory.blank) := by
  induction m with
  | nil =>
    simp only [Memory.write] at h
    split at h
    · simp at h
    · simp_all
  | cons d m ih =>
    obtain ⟨a, b⟩ := d
    simp only [Memory.write] at h
    split at h
    · split at h
      · exact .inl h
      · rcases List.mem_cons.mp h with rfl | h
        · exact .inr ⟨rfl, by assumption⟩
        · exact .inl h
    · split at h
      · split at h
        · exact .inl (List.mem_cons_of_mem _ h)
        · rcases List.mem_cons.mp h with rfl | h
          · exact .inr ⟨rfl, by assumption⟩
          · exact .inl (List.mem_cons_of_mem _ h)
      · rcases List.mem_cons.mp h with rfl | h
        · exact .inl (by simp)
        · rcases ih h with h | h
          · exact .inl (List.mem_cons_of_mem _ h)
          · exact .inr h

/-- A write keeps the canonical form. -/
theorem Memory.write_wf (m : Memory) (hm : m.wf) (x : Nat) (v : Byte) : (m.write x v).wf := by
  refine ⟨?_, fun c hc => ?_⟩
  · induction m with
    | nil => by_cases hv : v = Memory.blank <;> simp [Memory.write, hv]
    | cons d m ih =>
      obtain ⟨a, b⟩ := d
      obtain ⟨hp, hb⟩ := hm
      have hp' := hp
      rw [List.pairwise_cons] at hp
      have ihm := ih ⟨hp.2, fun d hd => hb d (by simp [hd])⟩
      simp only [Memory.write]
      split
      · split
        · exact hp'
        · rw [List.pairwise_cons]
          refine ⟨fun d hd => ?_, hp'⟩
          rcases List.mem_cons.mp hd with rfl | hd
          · assumption
          · have := hp.1 d hd
            simp at this ⊢
            omega
      · split
        · split
          · exact hp.2
          · rw [List.pairwise_cons]
            refine ⟨fun d hd => ?_, hp.2⟩
            have := hp.1 d hd
            simp at this ⊢
            omega
        · rw [List.pairwise_cons]
          refine ⟨fun d hd => ?_, ihm⟩
          rcases Memory.mem_write hd with hd | ⟨rfl, -⟩
          · exact hp.1 d hd
          · simp
            omega
  · rcases Memory.mem_write hc with hc | ⟨rfl, hv⟩
    · exact hm.2 c hc
    · exact hv

/-- Writing consecutive bytes keeps the canonical form. -/
theorem Memory.writeBytes_wf (m : Memory) (hm : m.wf) (a : Nat) (bs : List Byte) : (m.writeBytes a bs).wf := by
  induction bs generalizing m a with
  | nil => exact hm
  | cons b bs ih => exact ih _ (Memory.write_wf m hm a b) (a + 1)

/-- Nothing is listed at reset, so reset memory has the canonical form. -/
theorem reset_mem_wf : State.reset.mem.wf := by decide

/-- Memories in canonical form that read alike are equal data. -/
theorem Memory.ext_of_read (m m' : Memory) (hm : m.wf) (hm' : m'.wf) (h : ∀ a, m.read a = m'.read a) : m = m' := by
  induction m generalizing m' with
  | nil =>
    cases m' with
    | nil => rfl
    | cons d m' =>
      obtain ⟨a, b⟩ := d
      have := h a
      simp only [Memory.read, if_true] at this
      exact absurd this.symm (hm'.2 (a, b) (by simp))
  | cons c m ih =>
    obtain ⟨a, b⟩ := c
    have hb := hm.2 (a, b) (by simp)
    have hp := List.pairwise_cons.mp hm.1
    cases m' with
    | nil =>
      have := h a
      simp only [Memory.read, if_true] at this
      exact absurd this hb
    | cons d m' =>
      obtain ⟨a', b'⟩ := d
      have hb' := hm'.2 (a', b') (by simp)
      have hp' := List.pairwise_cons.mp hm'.1
      have haa : a = a' := by
        rcases Nat.lt_trichotomy a a' with hlt | heq | hgt
        · have := h a
          rw [Memory.read_of_all_gt ((a', b') :: m') a (by
            intro d hd
            rcases List.mem_cons.mp hd with rfl | hd
            · exact hlt
            · have := hp'.1 d hd; simp at this; omega)] at this
          simp only [Memory.read, if_true] at this
          exact absurd this hb
        · exact heq
        · have := h a'
          rw [Memory.read_of_all_gt ((a, b) :: m) a' (by
            intro d hd
            rcases List.mem_cons.mp hd with rfl | hd
            · exact hgt
            · have := hp.1 d hd; simp at this; omega)] at this
          simp only [Memory.read, if_true] at this
          exact absurd this.symm hb'
      subst haa
      have hbb : b = b' := by
        have := h a
        simpa only [Memory.read, if_true] using this
      subst hbb
      congr 1
      refine ih m' ⟨hp.2, fun d hd => hm.2 d (by simp [hd])⟩ ⟨hp'.2, fun d hd => hm'.2 d (by simp [hd])⟩ (fun x => ?_)
      by_cases hx : x = a
      · subst hx
        rw [Memory.read_of_all_gt m x (fun d hd => hp.1 d hd), Memory.read_of_all_gt m' x (fun d hd => hp'.1 d hd)]
      · have := h x
        simp only [Memory.read] at this
        rwa [if_neg (fun e => hx e.symm), if_neg (fun e => hx e.symm)] at this

end Sys2Proof.Machine
end

