-- ==== Sys2Proof/Laws/Symbols.lean ====
section
/-! SUPPORT. What a stream symbol can do: one lemma for each shared operation, and the meanings in terms of them. -/

namespace Sys2Proof.Machine

/-- A commit is held, or appends the record. -/
theorem commit_cases (r : SymRec) (s : State) :
    (s.params.sinkDepth ≤ s.port.length ∧ commit r s = s) ∨
    (s.port.length < s.params.sinkDepth ∧ commit r s = pushRecord r s) := by
  by_cases h : s.port.length < s.params.sinkDepth
  · exact .inr ⟨h, by simp [commit, portHasRoom, h]⟩
  · exact .inl ⟨by omega, by simp [commit, portHasRoom, h]⟩

/-- The literal check and what follows from it (40_symbol_decoder.md R123). -/
theorem literalBody_cases (cls : TagClass) (len : Nat) (s : State) :
    (s.sd.bytesLeft.toNat < len ∧ literalBody cls len s = .next (finish .overrun s)) ∨
    (len ≤ s.sd.bytesLeft.toNat ∧ s.sd.streamLen.toNat < s.sd.cursor.toNat + 1 + cls.nx + len ∧
      literalBody cls len s = .next (finish .truncated s)) ∨
    (len ≤ s.sd.bytesLeft.toNat ∧ s.sd.cursor.toNat + 1 + cls.nx + len ≤ s.sd.streamLen.toNat ∧
      literalBody cls len s = .next (commit (literalRecord cls len s.sd) s)) := by
  by_cases h1 : len > s.sd.bytesLeft.toNat
  · exact .inl ⟨h1, by simp [literalBody, checkLiteral, h1]⟩
  · by_cases h2 : s.sd.cursor.toNat + 1 + cls.nx + len > s.sd.streamLen.toNat
    · exact .inr (.inl ⟨by omega, h2, by simp [literalBody, checkLiteral, h1, h2]⟩)
    · exact .inr (.inr ⟨by omega, by omega, by simp [literalBody, checkLiteral, h1, h2]⟩)

/-- An extended literal's header check (40_symbol_decoder.md R122). -/
theorem extendedLiteral_cases (cls : TagClass) (len : Nat) (s : State) :
    (s.sd.streamLen.toNat < s.sd.cursor.toNat + 1 + cls.nx ∧
      extendedLiteral cls len s = .next (finish .truncated s)) ∨
    (s.sd.cursor.toNat + 1 + cls.nx ≤ s.sd.streamLen.toNat ∧ extendedLiteral cls len s = literalBody cls len s) := by
  by_cases h : s.sd.cursor.toNat + 1 + cls.nx ≤ s.sd.streamLen.toNat
  · exact .inr ⟨h, by simp [extendedLiteral, needHdr, h]⟩
  · exact .inl ⟨by omega, by simp [extendedLiteral, needHdr, h]⟩

/-- The copy checks and what follows from them (40_symbol_decoder.md R122, R124). -/
theorem copySymbol_cases (cls : TagClass) (len off : Nat) (s : State) :
    (s.sd.streamLen.toNat < s.sd.cursor.toNat + 1 + cls.nx ∧ copySymbol cls len off s = .next (finish .truncated s)) ∨
    (s.sd.cursor.toNat + 1 + cls.nx ≤ s.sd.streamLen.toNat ∧
      ((s.sd.bytesLeft.toNat < len ∧ copySymbol cls len off s = .next (finish .overrun s)) ∨
        (len ≤ s.sd.bytesLeft.toNat ∧ (off = 0 ∨ s.sd.dstPos.toNat < off) ∧
          copySymbol cls len off s = .next (finish .badOffset s)) ∨
        (len ≤ s.sd.bytesLeft.toNat ∧ 1 ≤ off ∧ off ≤ s.sd.dstPos.toNat ∧
          copySymbol cls len off s = .next (commit (copyRecord cls len off s.sd) s)))) := by
  by_cases h : s.sd.cursor.toNat + 1 + cls.nx ≤ s.sd.streamLen.toNat
  · refine .inr ⟨h, ?_⟩
    by_cases h1 : len > s.sd.bytesLeft.toNat
    · exact .inl ⟨h1, by simp [copySymbol, needHdr, checkCopy, h, h1]⟩
    · by_cases h2 : off = 0 ∨ off > s.sd.dstPos.toNat
      · exact .inr (.inl ⟨by omega, h2, by simp [copySymbol, needHdr, checkCopy, h, h1, h2]⟩)
      · exact .inr (.inr ⟨by omega, by omega, by omega, by simp [copySymbol, needHdr, checkCopy, h, h1, h2]⟩)
  · exact .inl ⟨by omega, by simp [copySymbol, needHdr, h]⟩

/-- A literal without extension bytes runs its check at once. -/
theorem exec_inline_literal {i : Instr} {cls : TagClass} (hc : i.tagClass? = some cls) (hk : cls.kind = .lit)
    (hn : cls.nx = 0) (s : State) : exec i s = literalBody cls (blen i) s := by
  cases i <;> simp only [Instr.tagClass?, Option.some.injEq, reduceCtorEq] at hc <;> subst hc <;>
    first | rfl | simp [TagClass.nx] at hn

/-- A literal with extension bytes checks its header first. -/
theorem exec_extended_literal {i : Instr} {cls : TagClass} (hc : i.tagClass? = some cls) (hk : cls.kind = .lit)
    (hn : 1 ≤ cls.nx) (s : State) : exec i s = extendedLiteral cls (blen i) s := by
  cases i <;> simp only [Instr.tagClass?, Option.some.injEq, reduceCtorEq] at hc <;> subst hc <;>
    first | rfl | exact absurd hk (by decide) | exact absurd hn (by decide)

/-- A copy. -/
theorem exec_copy {i : Instr} {cls : TagClass} (hc : i.tagClass? = some cls) (hk : cls.kind = .copy) (s : State) :
    exec i s = copySymbol cls (blen i) (copyOffset i) s := by
  cases i <;> simp only [Instr.tagClass?, Option.some.injEq, reduceCtorEq] at hc <;> subst hc <;>
    first | rfl | simp [TagClass.kind] at hk

/-- A symbol stands for at least one byte (40_symbol_decoder.md R136). -/
theorem blen_pos {i : Instr} {cls : TagClass} (hc : i.tagClass? = some cls) : 1 ≤ blen i := by
  cases i <;> simp_all [Instr.tagClass?, blen]

/-- The record a symbol commits at the cursor. -/
def symbolRecord (i : Instr) (cls : TagClass) (sd : SdRegs) : SymRec :=
  match cls.kind with
  | .lit => literalRecord cls (blen i) sd
  | .copy => copyRecord cls (blen i) (copyOffset i) sd

/-- The conditions under which a symbol is accepted, but for the room at the port (40_symbol_decoder.md R122 to R124). -/
def accepts (i : Instr) (cls : TagClass) (sd : SdRegs) : Prop :=
  blen i ≤ sd.bytesLeft.toNat ∧
    match cls.kind with
    | .lit => sd.cursor.toNat + 1 + cls.nx + blen i ≤ sd.streamLen.toNat
    | .copy => sd.cursor.toNat + 1 + cls.nx ≤ sd.streamLen.toNat ∧ 1 ≤ copyOffset i ∧
      copyOffset i ≤ sd.dstPos.toNat

/-- What a stream symbol does: it stops the run, for a cause its check gives, or it is accepted and committed. -/
theorem exec_symbol_cases {i : Instr} {cls : TagClass} (hc : i.tagClass? = some cls) (s : State) :
    (¬ accepts i cls s.sd ∧ ∃ r, (r = .truncated ∨ r = .overrun ∨ r = .badOffset) ∧
      exec i s = .next (finish r s)) ∨
    (accepts i cls s.sd ∧ exec i s = .next (commit (symbolRecord i cls s.sd) s)) := by
  cases hk : cls.kind with
  | lit =>
    have body : literalBody cls (blen i) s = exec i s ∨
        (s.sd.streamLen.toNat < s.sd.cursor.toNat + 1 + cls.nx ∧ exec i s = .next (finish .truncated s)) := by
      by_cases hn : cls.nx = 0
      · exact .inl (exec_inline_literal hc hk hn s).symm
      · rw [exec_extended_literal hc hk (by omega) s]
        rcases extendedLiteral_cases cls (blen i) s with ⟨h, e⟩ | ⟨-, e⟩
        · exact .inr ⟨h, e⟩
        · exact .inl e.symm
    simp only [accepts, symbolRecord, hk]
    rcases body with e | ⟨h, e⟩
    · rw [← e]
      rcases literalBody_cases cls (blen i) s with ⟨h, e⟩ | ⟨h1, h2, e⟩ | ⟨h1, h2, e⟩
      · exact .inl ⟨by omega, _, .inr (.inl rfl), e⟩
      · exact .inl ⟨by omega, _, .inl rfl, e⟩
      · exact .inr ⟨⟨h1, h2⟩, e⟩
    · exact .inl ⟨by omega, _, .inl rfl, e⟩
  | copy =>
    simp only [accepts, symbolRecord, hk]
    rw [exec_copy hc hk s]
    rcases copySymbol_cases cls (blen i) (copyOffset i) s with ⟨h, e⟩ | ⟨h, ⟨h1, e⟩ | ⟨h1, h2, e⟩ | ⟨h1, h2, h3, e⟩⟩
    · exact .inl ⟨by omega, _, .inl rfl, e⟩
    · exact .inl ⟨by omega, _, .inr (.inl rfl), e⟩
    · exact .inl ⟨by omega, _, .inr (.inr rfl), e⟩
    · exact .inr ⟨⟨h1, h, h2, h3⟩, e⟩

/-- What a stream symbol does, the hold at a full port apart (40_symbol_decoder.md R118). -/
theorem exec_symbol_outcomes {i : Instr} {cls : TagClass} (hc : i.tagClass? = some cls) (s : State) :
    (¬ accepts i cls s.sd ∧ ∃ r, (r = .truncated ∨ r = .overrun ∨ r = .badOffset) ∧
      exec i s = .next (finish r s)) ∨
    (accepts i cls s.sd ∧ s.params.sinkDepth ≤ s.port.length ∧ exec i s = .next s) ∨
    (accepts i cls s.sd ∧ s.port.length < s.params.sinkDepth ∧
      exec i s = .next (pushRecord (symbolRecord i cls s.sd) s)) := by
  rcases exec_symbol_cases hc s with h | ⟨h, e⟩
  · exact .inl h
  · rcases commit_cases (symbolRecord i cls s.sd) s with ⟨hf, ec⟩ | ⟨hf, ec⟩
    · exact .inr (.inl ⟨h, hf, by rw [e, ec]⟩)
    · exact .inr (.inr ⟨h, hf, by rw [e, ec]⟩)

/-- Every instruction completes: none faults and none is refused, in any state. -/
theorem exec_next (i : Instr) (s : State) : ∃ t, exec i s = .next t := by
  cases hc : i.tagClass? with
  | some cls =>
    rcases exec_symbol_cases hc s with ⟨-, r, -, e⟩ | ⟨-, e⟩
    · exact ⟨_, e⟩
    · exact ⟨_, e⟩
  | none =>
    cases i <;> simp only [Instr.tagClass?, reduceCtorEq] at hc
    · exact ⟨_, rfl⟩
    · exact ⟨_, rfl⟩
    · simp only [exec, execSdStart]
      split
      · exact ⟨_, rfl⟩
      · split <;> exact ⟨_, rfl⟩
    · simp only [exec, execLmStart]
      split <;> exact ⟨_, rfl⟩

/-- What a register and its narrowed value hold when the number fits. -/
theorem Word.toNat_ofNat_of_lt {n : Nat} (h : n < 2 ^ 32) : (Word.ofNat n).toNat = n := by
  simp only [Word.ofNat, BitVec.toNat_ofNat]
  exact Nat.mod_eq_of_lt h

/-- The record of an accepted symbol, as numbers (40_symbol_decoder.md R117). -/
theorem symbolRecord_fields {i : Instr} {cls : TagClass} {sd : SdRegs} (h : accepts i cls sd) :
    (symbolRecord i cls sd).cls = cls ∧ (symbolRecord i cls sd).kind = cls.kind ∧
    (symbolRecord i cls sd).tag = sd.cursor ∧ (symbolRecord i cls sd).dst = sd.dstPos ∧
    (symbolRecord i cls sd).len.toNat = blen i ∧
    (cls.kind = .lit → (symbolRecord i cls sd).off = 0 ∧
      (symbolRecord i cls sd).litStart.toNat = sd.cursor.toNat + 1 + cls.nx ∧
      (symbolRecord i cls sd).width.toNat = 1 + cls.nx + blen i) ∧
    (cls.kind = .copy → (symbolRecord i cls sd).off.toNat = copyOffset i ∧ (symbolRecord i cls sd).litStart = 0 ∧
      (symbolRecord i cls sd).width.toNat = 1 + cls.nx) := by
  have hb := sd.bytesLeft.isLt
  have hs := sd.streamLen.isLt
  have hd := sd.dstPos.isLt
  obtain ⟨h1, h2⟩ := h
  cases hk : cls.kind with
  | lit =>
    simp only [hk] at h2
    simp only [symbolRecord, hk, literalRecord]
    refine ⟨trivial, trivial, trivial, trivial, Word.toNat_ofNat_of_lt (by omega), fun _ => ⟨trivial, Word.toNat_ofNat_of_lt (by omega), Word.toNat_ofNat_of_lt (by omega)⟩, fun h => by simp at h⟩
  | copy =>
    simp only [hk] at h2
    simp only [symbolRecord, hk, copyRecord]
    refine ⟨trivial, trivial, trivial, trivial, Word.toNat_ofNat_of_lt (by omega), fun h => by simp at h, fun _ => ⟨Word.toNat_ofNat_of_lt (by omega), trivial, Word.toNat_ofNat_of_lt (by omega)⟩⟩

/-- An accepted symbol's record ends inside the stream (40_symbol_decoder.md R140). -/
theorem symbolRecord_in_stream {i : Instr} {cls : TagClass} {sd : SdRegs} (h : accepts i cls sd) :
    sd.cursor.toNat + (symbolRecord i cls sd).width.toNat ≤ sd.streamLen.toNat := by
  obtain ⟨-, -, -, -, -, hl, hcp⟩ := symbolRecord_fields h
  obtain ⟨h1, h2⟩ := h
  cases hk : cls.kind with
  | lit => simp only [hk] at h2; have := (hl hk).2.2; omega
  | copy => simp only [hk] at h2; have := (hcp hk).2.2; omega

/-- The record of an accepted symbol is sound (40_symbol_decoder.md R139, R140). -/
theorem symbolRecord_sound {i : Instr} {cls : TagClass} {sd : SdRegs} (hc : i.tagClass? = some cls)
    (h : accepts i cls sd) : (symbolRecord i cls sd).sound := by
  obtain ⟨hcl, hkd, htag, hdst, hlen, hl, hcp⟩ := symbolRecord_fields h
  have hpos := blen_pos hc
  obtain ⟨h1, h2⟩ := h
  refine ⟨by rw [hkd, hcl], by omega, fun hk => ?_, fun hk => ?_⟩
  · rw [hkd] at hk
    obtain ⟨a, b, c⟩ := hl hk
    exact ⟨a, by rw [b, htag, hcl], by rw [c, hcl, hlen]⟩
  · rw [hkd] at hk
    obtain ⟨a, b, c⟩ := hcp hk
    simp only [hk] at h2
    exact ⟨b, by rw [c, hcl], by omega, by rw [a, hdst]; omega⟩

/-- An accepted symbol's commit, in the terms of `Committed`. -/
theorem pushRecord_committed {i : Instr} {cls : TagClass} {s : State} (h : accepts i cls s.sd)
    (howed : s.sd.dstPos.toNat + s.sd.bytesLeft.toNat < 2 ^ 32) (hcount : s.sd.symCount.toNat ≤ s.sd.dstPos.toNat)
    (hc : i.tagClass? = some cls) :
    Committed s (pushRecord (symbolRecord i cls s.sd) s) (symbolRecord i cls s.sd) := by
  have hin := symbolRecord_in_stream h
  obtain ⟨-, -, -, -, hlen, -, -⟩ := symbolRecord_fields h
  have hpos := blen_pos hc
  have hs := s.sd.streamLen.isLt
  have h1 := h.1
  refine ⟨?_, ?_, ?_, ?_, rfl, rfl, rfl⟩
  · rw [pushRecord_sd_cursor, Word.toNat_ofNat_of_lt (by omega)]
  · rw [pushRecord_sd_bytesLeft, Word.toNat_ofNat_of_lt (by omega)]; omega
  · rw [pushRecord_sd_dstPos, Word.toNat_ofNat_of_lt (by omega)]
  · rw [pushRecord_sd_symCount, Word.toNat_ofNat_of_lt (by omega)]

end Sys2Proof.Machine
end

