-- ==== Sys2Proof/Laws/Moves.lean ====
section
/-! SUPPORT. What each agent's move and one step can do. -/

namespace Sys2Proof.Machine

/-- A step takes the head of the agenda and runs it. -/
theorem step_of_agenda {s : State} {mv : Move} {ag : List Move} (h : s.agenda = mv :: ag) :
    step s = runMove mv { s with agenda := ag } := by
  simp only [step, nextMove, h]

/-- With an empty agenda a step runs the fair choice, or nothing. -/
theorem step_of_no_agenda {s : State} (h : s.agenda = []) :
    (∃ mv, fairMove s = some mv ∧ step s = runMove mv s) ∨ (fairMove s = none ∧ step s = .next s) := by
  cases hf : fairMove s with
  | none => exact .inr ⟨rfl, by simp only [step, nextMove, h, hf]⟩
  | some mv => exact .inl ⟨mv, rfl, by simp only [step, nextMove, h, hf]⟩

/-- Every step is a move of some agent on the state with the move taken off the agenda, or nothing. -/
theorem step_cases (s : State) : step s = .next s ∨
    ∃ mv ag, step s = runMove mv { s with agenda := ag } := by
  cases h : s.agenda with
  | nil =>
    rcases step_of_no_agenda h with ⟨mv, -, e⟩ | ⟨-, e⟩
    · exact .inr ⟨mv, [], by rw [e, ← h]⟩
    · exact .inl e
  | cons mv ag => exact .inr ⟨mv, ag, step_of_agenda h⟩

/-- The header window of a cursor inside the stream: the tag byte and what is left of the stream, up to four bytes. -/
theorem headerWindow_cons (s : State) (h : s.sd.cursor.toNat < s.sd.streamLen.toNat) : ∃ rest,
    s.headerWindow = s.memRead s.sd.cursor.toNat :: rest ∧
    rest.length = min 4 (s.sd.streamLen.toNat - s.sd.cursor.toNat - 1) ∧
    ∀ k < rest.length, rest[k]? = some (s.memRead (s.sd.cursor.toNat + 1 + k)) := by
  refine ⟨(List.range (min 4 (s.sd.streamLen.toNat - s.sd.cursor.toNat - 1))).map
    (fun i => s.memRead (s.sd.cursor.toNat + 1 + i)), ?_, by simp, fun k hk => ?_⟩
  · have hn : min maxHeaderBytes (s.sd.streamLen.toNat - s.sd.cursor.toNat) =
        min 4 (s.sd.streamLen.toNat - s.sd.cursor.toNat - 1) + 1 := by
      simp only [maxHeaderBytes]; omega
    simp only [State.headerWindow, State.streamBytes, hn, List.range_succ_eq_map, List.map_cons, List.map_map]
    refine congrArg₂ _ rfl (List.map_congr_left fun i _ => ?_)
    simp only [Function.comp_apply, Nat.succ_eq_add_one]
    congr 1
    omega
  · simp only [List.length_map, List.length_range] at hk
    simp [hk]

/-- There is no header window at or past the stream's end. -/
theorem headerWindow_nil (s : State) (h : s.sd.streamLen.toNat ≤ s.sd.cursor.toNat) : s.headerWindow = [] := by
  have : s.sd.streamLen.toNat - s.sd.cursor.toNat = 0 := by omega
  simp [State.headerWindow, State.streamBytes, this]

/-- A tag byte with at least `nx` bytes after it decodes; with fewer, its header is cut. -/
theorem decodeStream_cases (b0 : Byte) (rest : List Byte) :
    (rest.length < (tagClass b0).nx ∧ ∃ cls, decodeStream (b0 :: rest) = .error (.headerCut cls)) ∨
    ((tagClass b0).nx ≤ rest.length ∧ ∃ i r, decodeStream (b0 :: rest) = .ok (i, r)) := by
  cases h : tagClass b0 <;> rcases rest with _ | ⟨e1, _ | ⟨e2, _ | ⟨e3, _ | ⟨e4, rest⟩⟩⟩⟩ <;>
    simp [decodeStream, h, TagClass.nx]

/-- What a BUSY SD's turn does (40_symbol_decoder.md R119 to R122). -/
theorem sdMove_cases (s : State) (hb : s.sd.state = .busy) :
    (s.sd.bytesLeft = 0 ∧ sdMove s = .next (finish .complete s)) ∨
    (s.sd.bytesLeft ≠ 0 ∧ s.sd.streamLen.toNat ≤ s.sd.cursor.toNat ∧ sdMove s = .next (finish .endOfStream s)) ∨
    (s.sd.bytesLeft ≠ 0 ∧ s.sd.cursor.toNat < s.sd.streamLen.toNat ∧
      s.sd.streamLen.toNat < s.sd.cursor.toNat + 1 + (tagClass (s.memRead s.sd.cursor.toNat)).nx ∧
      sdMove s = .next (finish .truncated s)) ∨
    (s.sd.bytesLeft ≠ 0 ∧
      s.sd.cursor.toNat + 1 + (tagClass (s.memRead s.sd.cursor.toNat)).nx ≤ s.sd.streamLen.toNat ∧
      ∃ i r, decodeStream s.headerWindow = .ok (i, r) ∧
        i.tagClass? = some (tagClass (s.memRead s.sd.cursor.toNat)) ∧ sdMove s = exec i s) := by
  by_cases h0 : s.sd.bytesLeft = 0
  · exact .inl ⟨h0, by simp [sdMove, hb, h0]⟩
  by_cases h1 : s.sd.cursor.toNat < s.sd.streamLen.toNat
  · obtain ⟨rest, hw, hl, -⟩ := headerWindow_cons s h1
    have hnx : (tagClass (s.memRead s.sd.cursor.toNat)).nx ≤ 4 := by
      cases tagClass (s.memRead s.sd.cursor.toNat) <;> simp [TagClass.nx]
    rcases decodeStream_cases (s.memRead s.sd.cursor.toNat) rest with ⟨hlt, cls, hd⟩ | ⟨hle, i, r, hd⟩
    · exact .inr (.inr (.inl ⟨h0, h1, by omega, by simp only [sdMove, hb, h0, ne_eq, not_true_eq_false, if_false, hw, hd]⟩))
    · exact .inr (.inr (.inr ⟨h0, by omega, i, r, by rw [hw, hd], tagClass_of_decoded hd,
        by simp only [sdMove, hb, h0, ne_eq, not_true_eq_false, if_false, hw, hd]⟩))
  · exact .inr (.inl ⟨h0, by omega, by
      simp only [sdMove, hb, h0, ne_eq, not_true_eq_false, if_false, headerWindow_nil s (by omega), decodeStream]⟩)

/-- An SD turn when the SD is not BUSY (60_exceptions.md R242). -/
theorem sdMove_of_not_busy {s : State} (h : s.sd.state ≠ .busy) : sdMove s = .next s := by simp [sdMove, h]

/-- An LM turn when the LM is not BUSY (60_exceptions.md R242). -/
theorem lmMove_of_not_busy {s : State} (h : s.lm.state ≠ .busy) : lmMove s = .next s := by simp [lmMove, h]

/-- A SINK turn with no record waiting. -/
theorem sinkMove_nil {s : State} (h : s.port = []) : sinkMove s = s := by simp only [sinkMove, h]

/-- A SINK turn takes the oldest record (40_symbol_decoder.md R118). -/
theorem sinkMove_cons {s : State} {r : SymRec} {rest : List SymRec} (h : s.port = r :: rest) :
    sinkMove s = { s with port := rest, accepted := s.accepted ++ [r] } := by simp only [sinkMove, h]

/-- A START word is a command whatever its other bits are (30_encoding.md R101). -/
theorem decodeCommand_start (bank : Bank) (v : Word) (h : v.getLsbD 0 = true) :
    decodeCommand bank 0 v = .ok (match bank with | .sd => .sdStart | .lm => .lmStart) := by
  cases bank <;> simp only [decodeCommand, h] <;> rfl

/-- A write elsewhere, or with bit 0 clear, is no command. -/
theorem decodeCommand_other (bank : Bank) (offset : Nat) (v : Word) (h : offset ≠ 0 ∨ v.getLsbD 0 = false) :
    decodeCommand bank offset v = .error .notACommand := by
  have : ¬ (offset = 0 ∧ v.getLsbD 0 = true) := by
    rintro ⟨rfl, e⟩
    rcases h with h | h
    · exact h rfl
    · rw [h] at e; cases e
  simp only [decodeCommand, if_neg this]

/-- A host access to a register in a form the block defines. -/
theorem accessAt_reg (s : State) (bank : Bank) (offset : Nat) (act : Bank → Nat → Result) (h : offset < 128)
    (h4 : offset % 4 = 0) : accessAt s (.reg bank offset) 32 act = act bank offset := by
  simp [accessAt, locate, Config.bankBytes, h, accessOk, h4]

/-- A step whose move is a host write in a form the block defines. -/
theorem step_write {s : State} {bank : Bank} {offset : Nat} {v : Word} {ag : List Move}
    (h : s.agenda = .write (.reg bank offset) 32 v :: ag) (h1 : offset < 128) (h4 : offset % 4 = 0) :
    step s = writeAt { s with agenda := ag } bank offset v := by
  rw [step_of_agenda h]
  exact accessAt_reg _ bank offset _ h1 h4

/-- A step whose move is a host read in a form the block defines. -/
theorem step_read {s : State} {bank : Bank} {offset : Nat} {ag : List Move}
    (h : s.agenda = .read (.reg bank offset) 32 :: ag) (h1 : offset < 128) (h4 : offset % 4 = 0) :
    step s = .next (readAt { s with agenda := ag } bank offset) := by
  rw [step_of_agenda h]
  exact accessAt_reg _ bank offset (fun b o => .next (readAt _ b o)) h1 h4

/-- The low bits of a written value, as a number (43_host_interface.md R202). -/
theorem fieldBits_toNat (w : Nat) (v : Word) : (fieldBits w v).toNat = v.toNat % 2 ^ w := by
  rw [fieldBits, BitVec.toNat_ofNat]
  exact Nat.mod_eq_of_lt (Nat.lt_of_le_of_lt (Nat.mod_le _ _) v.isLt)

/-- What a START write does. -/
theorem execSdStart_cases (s : State) :
    (s.sd.state = .busy ∧ exec .sdStart s = .next s) ∨
    (s.sd.state ≠ .busy ∧ s.sd.startCursor.toNat < s.sd.streamLen.toNat ∧
      exec .sdStart s = .next (beginSdRun .busy .none s)) ∨
    (s.sd.state ≠ .busy ∧ s.sd.streamLen.toNat ≤ s.sd.startCursor.toNat ∧
      exec .sdStart s = .next (beginSdRun .done .errContract s)) := by
  by_cases hb : s.sd.state = .busy
  · exact .inl ⟨hb, by simp [exec, execSdStart, hb]⟩
  · by_cases hv : s.sd.startCursor.toNat < s.sd.streamLen.toNat
    · exact .inr (.inl ⟨hb, hv, by simp [exec, execSdStart, hb, startCursorValid, hv]⟩)
    · exact .inr (.inr ⟨hb, by omega, by simp [exec, execSdStart, hb, startCursorValid, hv]⟩)

/-- What an LM START write does. -/
theorem execLmStart_cases (s : State) :
    (s.lm.state = .busy ∧ exec .lmStart s = .next s) ∨
    (s.lm.state ≠ .busy ∧ exec .lmStart s = .next (beginLmRun s)) := by
  by_cases hb : s.lm.state = .busy
  · exact .inl ⟨hb, by simp [exec, execLmStart, hb]⟩
  · exact .inr ⟨hb, by simp [exec, execLmStart, hb]⟩

/-- A host write that is carried out is a command, which names its bank's offset 0 and has bit 0 set, or a register
write. -/
theorem writeAt_cases (s : State) (bank : Bank) (offset : Nat) (v : Word) :
    (bank = .sd ∧ offset = 0 ∧ v.getLsbD 0 = true ∧ writeAt s bank offset v = exec .sdStart s) ∨
    (bank = .lm ∧ offset = 0 ∧ v.getLsbD 0 = true ∧ writeAt s bank offset v = exec .lmStart s) ∨
    writeAt s bank offset v = .next (writeReg s bank offset v) := by
  by_cases h : offset = 0 ∧ v.getLsbD 0 = true
  · obtain ⟨rfl, h⟩ := h
    have hd := decodeCommand_start bank v h
    cases bank
    · exact .inl ⟨rfl, rfl, h, by simp only [writeAt, hd]⟩
    · exact .inr (.inl ⟨rfl, rfl, h, by simp only [writeAt, hd]⟩)
  · have hd := decodeCommand_other bank offset v (by
      by_cases h0 : offset = 0
      · exact .inr (by
          cases hv : v.getLsbD 0 with
          | false => rfl
          | true => exact absurd ⟨h0, hv⟩ h)
      · exact .inl h0)
    exact .inr (.inr (by simp only [writeAt, hd]))

/-- A host access is refused, or is 32 bits wide and acts on the bank and offset it is located at. -/
theorem accessAt_cases (s : State) (at_ : Place) (bits : Nat) (act : Bank → Nat → Result) :
    (∃ r, accessAt s at_ bits act = .refused r) ∨
    ∃ bank offset, locate s.params at_ = some (bank, offset) ∧ bits = 32 ∧
      accessAt s at_ bits act = act bank offset := by
  simp only [accessAt]
  split
  · exact .inl ⟨_, rfl⟩
  · split
    · rename_i hl hok
      simp only [accessOk, Bool.and_eq_true, decide_eq_true_eq] at hok
      exact .inr ⟨_, _, hl, hok.1, rfl⟩
    · exact .inl ⟨_, rfl⟩

/-- What a host write of a stream byte can do (20_memory.md R61, R76). -/
theorem fillMove_cases (s : State) (a : Nat) (b : Byte) :
    (2 ^ s.params.curW ≤ a ∧ fillMove s a b = .fault .noSuchStreamAddress) ∨
    (a < 2 ^ s.params.curW ∧ onLoan s a = true ∧ fillMove s a b = .refused .streamWriteDuringRun) ∨
    (a < 2 ^ s.params.curW ∧ onLoan s a = false ∧ fillMove s a b = .next { s with mem := s.mem.write a b }) := by
  by_cases ha : 2 ^ s.params.curW ≤ a
  · exact .inl ⟨ha, if_pos ha⟩
  · cases hl : onLoan s a with
    | true => exact .inr (.inl ⟨by omega, rfl, by simp only [fillMove, if_neg ha, hl, if_true]⟩)
    | false => exact .inr (.inr ⟨by omega, rfl, by simp only [fillMove, if_neg ha, hl, Bool.false_eq_true, if_false]⟩)

/-- The platform address of a stream byte (20_memory.md R74). -/
@[simp] theorem locateStream_base (p : Params) (a : Nat) (h : a < 2 ^ p.curW) :
    locateStream p (p.streamBase + a) = some a := by
  simp only [locateStream, if_pos (show p.streamBase ≤ p.streamBase + a ∧ p.streamBase + a < p.streamBase + 2 ^ p.curW by
    omega), Nat.add_sub_cancel_left]

/-- A stream write by platform address is one by stream address, or refused. -/
theorem fillBusMove_cases (s : State) (addr : Nat) (b : Byte) :
    fillBusMove s addr b = .refused .outsideStream ∨ ∃ a, fillBusMove s addr b = fillMove s a b := by
  simp only [fillBusMove]
  split
  · exact .inl rfl
  · exact .inr ⟨_, rfl⟩

/-- A stream write that answers a next state stored one byte. -/
theorem fillMove_next {s t : State} {a : Nat} {b : Byte} (h : fillMove s a b = .next t) :
    a < 2 ^ s.params.curW ∧ onLoan s a = false ∧ t = { s with mem := s.mem.write a b } := by
  rcases fillMove_cases s a b with ⟨-, e⟩ | ⟨-, -, e⟩ | ⟨h1, h2, e⟩
  · rw [e] at h; cases h
  · rw [e] at h; cases h
  · rw [e] at h; injection h with h; exact ⟨h1, h2, h.symm⟩

/-- Everything a move can do when it answers a next state. -/
theorem runMove_cases {mv : Move} {s t : State} (h : runMove mv s = .next t) :
    sdMove s = .next t ∨ lmMove s = .next t ∨ t = sinkMove s ∨ t = resetEvent s ∨
    (∃ bank offset, t = readAt s bank offset) ∨ (∃ bank offset v, writeAt s bank offset v = .next t) ∨
    (∃ a b, a < 2 ^ s.params.curW ∧ onLoan s a = false ∧ t = { s with mem := s.mem.write a b }) := by
  cases mv with
  | sd => exact .inl h
  | lm => exact .inr (.inl h)
  | sink => injection h with h; exact .inr (.inr (.inl h.symm))
  | reset => injection h with h; exact .inr (.inr (.inr (.inl h.symm)))
  | read at_ bits =>
    simp only [runMove] at h
    rcases accessAt_cases s at_ bits (fun bank offset => .next (readAt s bank offset)) with ⟨r, e⟩ | ⟨b, o, -, -, e⟩
    · rw [e] at h; cases h
    · rw [e] at h; injection h with h
      exact .inr (.inr (.inr (.inr (.inl ⟨b, o, h.symm⟩))))
  | write at_ bits v =>
    simp only [runMove] at h
    rcases accessAt_cases s at_ bits (fun bank offset => writeAt s bank offset v) with ⟨r, e⟩ | ⟨b, o, -, -, e⟩
    · rw [e] at h; cases h
    · rw [e] at h
      exact .inr (.inr (.inr (.inr (.inr (.inl ⟨b, o, v, h⟩)))))
  | fill a b =>
    exact .inr (.inr (.inr (.inr (.inr (.inr ⟨a, b, fillMove_next h⟩)))))
  | fillBus addr b =>
    simp only [runMove] at h
    rcases fillBusMove_cases s addr b with e | ⟨a, e⟩
    · rw [e] at h; cases h
    · rw [e] at h
      exact .inr (.inr (.inr (.inr (.inr (.inr ⟨a, b, fillMove_next h⟩)))))

/-- Two steps one after the other. -/
theorem runSteps_two {s u : State} (h : step s = .next u) : runSteps 2 s = step u := by
  simp only [runSteps, Host.Core.run, core, h]
  cases step u <;> rfl

end Sys2Proof.Machine
end

