-- ==== Sys2Proof/Laws/Frames.lean ====
section
/-! SUPPORT. What an instruction and a unit's turn leave as it was. -/

namespace Sys2Proof.Machine

/-- What every instruction leaves, and which unit's registers it can reach (60_exceptions.md R240, 20_memory.md R63). -/
theorem exec_frame {i : Instr} {s t : State} (h : exec i s = .next t) :
    t.mem = s.mem ∧ t.params = s.params ∧ t.accepted = s.accepted ∧ t.readData = s.readData ∧
    t.agenda = s.agenda ∧
    ((t.sd = s.sd ∧ t.port = s.port ∧ t.loan = s.loan) ∨ i ∉ [Instr.len3W2, .len3W3, .lmStart]) ∧
    (t.lm = s.lm ∨ i ∈ [Instr.len3W2, .len3W3, .lmStart]) := by
  cases hc : i.tagClass? with
  | some cls =>
    have hni : i ∉ [Instr.len3W2, .len3W3, .lmStart] := by
      intro hm
      simp only [List.mem_cons, List.not_mem_nil, or_false] at hm
      rcases hm with rfl | rfl | rfl <;> simp [Instr.tagClass?] at hc
    rcases exec_symbol_outcomes hc s with ⟨-, r, -, e⟩ | ⟨-, -, e⟩ | ⟨-, -, e⟩ <;> rw [e] at h <;>
      injection h with h <;> subst h <;> exact ⟨rfl, rfl, rfl, rfl, rfl, .inr hni, .inl rfl⟩
  | none =>
    cases i <;> simp only [Instr.tagClass?, reduceCtorEq] at hc
    · injection h with h
      subst h
      exact ⟨rfl, rfl, rfl, rfl, rfl, .inl ⟨rfl, rfl, rfl⟩, .inr (by simp)⟩
    · injection h with h
      subst h
      exact ⟨rfl, rfl, rfl, rfl, rfl, .inl ⟨rfl, rfl, rfl⟩, .inr (by simp)⟩
    · rcases execSdStart_cases s with ⟨-, e⟩ | ⟨-, -, e⟩ | ⟨-, -, e⟩ <;> rw [e] at h <;> injection h with h <;>
        subst h <;> exact ⟨rfl, rfl, rfl, rfl, rfl, .inr (by simp), .inl rfl⟩
    · rcases execLmStart_cases s with ⟨-, e⟩ | ⟨-, e⟩ <;> rw [e] at h <;> injection h with h <;> subst h <;>
        exact ⟨rfl, rfl, rfl, rfl, rfl, .inl ⟨rfl, rfl, rfl⟩, .inr (by simp)⟩

/-- The LM's turn changes the LM's registers alone. -/
theorem lmMove_frame {s t : State} (h : lmMove s = .next t) : t = { s with lm := t.lm } := by
  by_cases hb : s.lm.state = .busy
  · rcases lmMove_cases s hb with ⟨-, e⟩ | ⟨-, -, ⟨-, m, e, -⟩ | ⟨-, e⟩⟩ <;> rw [e] at h <;> injection h with h <;>
      subst h <;> rfl
  · rw [lmMove_of_not_busy hb] at h
    injection h with h
    subst h
    rfl

/-- The SD's turn changes the SD's registers and the port alone. -/
theorem sdMove_frame {s t : State} (h : sdMove s = .next t) : t = { s with sd := t.sd, port := t.port } := by
  by_cases hb : s.sd.state = .busy
  · rcases sdMove_cases s hb with ⟨-, e⟩ | ⟨-, -, e⟩ | ⟨-, -, -, e⟩ | ⟨-, -, i, r, -, hc, e⟩ <;> rw [e] at h
    · injection h with h
      subst h
      rfl
    · injection h with h
      subst h
      rfl
    · injection h with h
      subst h
      rfl
    · rcases exec_symbol_outcomes hc s with ⟨-, r, -, e⟩ | ⟨-, -, e⟩ | ⟨-, -, e⟩ <;> rw [e] at h <;>
        injection h with h <;> subst h <;> rfl
  · rw [sdMove_of_not_busy hb] at h
    injection h with h
    subst h
    rfl

end Sys2Proof.Machine
end

