-- ==== Sys2Proof/Laws/Turns.lean ====
section
/-! SUPPORT. The SD's turn in one normal form: what it does is decided by the header window and the SD's registers, and
is a stop, a record or nothing. -/

namespace Sys2Proof.Machine

/-- The check of a symbol, header check included (40_symbol_decoder.md R122 to R124). -/
def verdict (i : Instr) (cls : TagClass) (sd : SdRegs) : Verdict :=
  match cls.kind with
  | .lit => if cls.nx ≠ 0 ∧ needHdr sd cls.nx = false then .stop .truncated else checkLiteral sd cls.nx (blen i)
  | .copy => if needHdr sd cls.nx = false then .stop .truncated else checkCopy sd (blen i) (copyOffset i)

/-- What an SD turn does. -/
inductive SdAct where
  | rest
  | stop (r : SdResult)
  | emit (r : SymRec)

/-- What a checked symbol does. -/
def symbolAct (i : Instr) (cls : TagClass) (sd : SdRegs) : SdAct :=
  match verdict i cls sd with
  | .stop r => .stop r
  | .accept => .emit (symbolRecord i cls sd)

/-- Carrying it out. -/
def SdAct.run : SdAct → State → State
  | .rest, s => s
  | .stop r, s => finish r s
  | .emit r, s => commit r s

/-- A stream symbol's meaning is its check, then a stop or a commit. -/
theorem exec_symbol {i : Instr} {cls : TagClass} (hc : i.tagClass? = some cls) (s : State) :
    exec i s = .next ((symbolAct i cls s.sd).run s) := by
  have body : literalBody cls (blen i) s = .next ((match checkLiteral s.sd cls.nx (blen i) with
      | .stop r => SdAct.stop r
      | .accept => SdAct.emit (literalRecord cls (blen i) s.sd)).run s) := by
    simp only [literalBody]
    cases checkLiteral s.sd cls.nx (blen i) <;> rfl
  cases hk : cls.kind with
  | lit =>
    simp only [symbolAct, verdict, symbolRecord, hk]
    by_cases hn : cls.nx = 0
    · rw [exec_inline_literal hc hk hn, body, if_neg (fun h => h.1 hn)]
    · rw [exec_extended_literal hc hk (by omega), extendedLiteral]
      cases hh : needHdr s.sd cls.nx with
      | true => rw [if_pos rfl, body, if_neg (by simp)]
      | false => rw [if_neg (by simp), if_pos ⟨hn, rfl⟩]; rfl
  | copy =>
    simp only [symbolAct, verdict, symbolRecord, hk]
    rw [exec_copy hc hk, copySymbol]
    cases hh : needHdr s.sd cls.nx with
    | true =>
      rw [if_pos rfl, if_neg (by simp)]
      cases checkCopy s.sd (blen i) (copyOffset i) <;> rfl
    | false => rw [if_neg (by simp), if_pos rfl]; rfl

/-- What the SD's turn does with a header window. -/
def sdAct (window : List Byte) (sd : SdRegs) : SdAct :=
  if sd.state ≠ .busy then .rest
  else if sd.bytesLeft = 0 then .stop .complete
  else
    match decodeStream window with
    | .error .noTagByte => .stop .endOfStream
    | .error _ => .stop .truncated
    | .ok (i, _) =>
      match i.tagClass? with
      | none => .rest
      | some cls => symbolAct i cls sd

/-- The SD's turn in normal form. -/
theorem sdMove_eq (s : State) : sdMove s = .next ((sdAct s.headerWindow s.sd).run s) := by
  unfold sdMove sdAct
  by_cases hb : s.sd.state ≠ .busy
  · rw [if_pos hb, if_pos hb]; rfl
  · rw [if_neg hb, if_neg hb]
    by_cases h0 : s.sd.bytesLeft = 0
    · rw [if_pos h0, if_pos h0]; rfl
    · rw [if_neg h0, if_neg h0]
      cases hd : decodeStream s.headerWindow with
      | error e => cases e <;> rfl
      | ok x =>
        obtain ⟨i, r⟩ := x
        obtain ⟨cls, hc⟩ := decoded_is_symbol hd
        simp only [hc]
        exact exec_symbol hc s

/-- A record an SD turn emits passed its check, in a run that owes output. -/
theorem sdAct_emit {window : List Byte} {sd : SdRegs} {r : SymRec} (h : sdAct window sd = .emit r) :
    sd.state = .busy ∧ sd.bytesLeft ≠ 0 ∧ ∃ i cls, i.tagClass? = some cls ∧ verdict i cls sd = .accept ∧
      r = symbolRecord i cls sd ∧ ∃ rest, decodeStream window = .ok (i, rest) := by
  unfold sdAct at h
  split at h
  · cases h
  · rename_i hb
    split at h
    · cases h
    · rename_i h0
      split at h
      · cases h
      · cases h
      · rename_i i rest hd
        split at h
        · cases h
        · rename_i cls hc
          simp only [symbolAct] at h
          split at h
          · cases h
          · rename_i hv
            injection h with h
            exact ⟨by simpa using hb, h0, i, cls, hc, hv, h.symm, rest, hd⟩

/-- A stop of an SD turn: COMPLETE when nothing is owed, a cause of the check's otherwise. -/
theorem sdAct_stop {window : List Byte} {sd : SdRegs} {r : SdResult} (h : sdAct window sd = .stop r) :
    sd.state = .busy ∧ ((sd.bytesLeft = 0 ∧ r = .complete) ∨
      (sd.bytesLeft ≠ 0 ∧ r ∈ [SdResult.endOfStream, .truncated, .overrun, .badOffset])) := by
  unfold sdAct at h
  split at h
  · cases h
  · rename_i hb
    refine ⟨by simpa using hb, ?_⟩
    split at h
    · rename_i h0
      injection h with h
      exact .inl ⟨h0, h.symm⟩
    · rename_i h0
      refine .inr ⟨h0, ?_⟩
      split at h
      · injection h with h
        simp [← h]
      · injection h with h
        simp [← h]
      · split at h
        · cases h
        · simp only [symbolAct, verdict, checkLiteral, checkCopy] at h
          split at h
          · rename_i hv
            injection h with h
            subst h
            split at hv
            · split at hv
              · injection hv with hv; simp [← hv]
              · split at hv
                · injection hv with hv; simp [← hv]
                · split at hv
                  · injection hv with hv; simp [← hv]
                  · cases hv
            · split at hv
              · injection hv with hv; simp [← hv]
              · split at hv
                · injection hv with hv; simp [← hv]
                · split at hv
                  · injection hv with hv; simp [← hv]
                  · cases hv
          · cases h

/-- A BUSY SD's turn always does something. -/
theorem sdAct_busy {window : List Byte} {sd : SdRegs} (hb : sd.state = .busy) : sdAct window sd ≠ .rest := by
  intro h
  unfold sdAct at h
  rw [if_neg (by simp [hb])] at h
  split at h
  · cases h
  · split at h
    · cases h
    · cases h
    · rename_i i rest hd
      obtain ⟨cls, hc⟩ := decoded_is_symbol hd
      rw [hc] at h
      simp only [symbolAct] at h
      split at h <;> cases h

/-- An accepted symbol passed every check. -/
theorem accepts_of_verdict {i : Instr} {cls : TagClass} {sd : SdRegs} (h : verdict i cls sd = .accept) :
    accepts i cls sd := by
  simp only [verdict, checkLiteral, checkCopy, accepts] at h ⊢
  cases hk : cls.kind with
  | lit =>
    simp only [hk] at h ⊢
    split at h
    · cases h
    · split at h
      · cases h
      · split at h
        · cases h
        · exact ⟨by omega, by omega⟩
  | copy =>
    simp only [hk] at h ⊢
    split at h
    · cases h
    · rename_i hn
      split at h
      · cases h
      · split at h
        · cases h
        · simp only [needHdr, decide_eq_false_iff_not, not_not] at hn
          exact ⟨by omega, hn, by omega, by omega⟩

/-- The loop depends on the LM's registers and changes them alone. -/
theorem lmLoop_local (n : Nat) {s s' t : State} (hl : s'.lm = s.lm) (h : lmLoop n s = .next t) :
    lmLoop n s' = .next { s' with lm := t.lm } := by
  induction n generalizing s s' with
  | zero =>
    simp only [lmLoop] at h ⊢
    injection h with h
    subst h
    simp only [lmSucceed, hl]
  | succ n ih =>
    by_cases hp : s.lm.work.p < windowBits s.lm
    · rw [lmLoop_succ n s hp] at h
      rw [lmLoop_succ n s' (by rw [hl]; exact hp), hl]
      exact ih (by simp only [pushMaskBit, hl]) h
    · simp only [lmLoop, hl] at h ⊢
      rw [if_pos (by omega)] at h ⊢
      injection h with h
      subst h
      simp only [lmFail, hl]

/-- The LM's turn depends on its registers and MAX_WORDS and changes its registers alone (60_exceptions.md R240). -/
theorem lmMove_local {s s' t : State} (hl : s'.lm = s.lm) (hp : s'.params = s.params) (h : lmMove s = .next t) :
    lmMove s' = .next { s' with lm := t.lm } := by
  obtain ⟨params', sd', lm', port', accepted', mem', loan', readData', agenda'⟩ := s'
  dsimp only at hl hp
  subst hl hp
  unfold lmMove lmCompute at h ⊢
  dsimp only
  split at h
  · rw [if_pos (by assumption)]
    injection h with h
    subst h
    rfl
  · rw [if_neg (by assumption)]
    split at h
    · rw [if_pos (by assumption)]
      exact lmLoop_local _ (s := clearWork s) rfl h
    · rw [if_neg (by assumption)]
      injection h with h
      subst h
      rfl

/-- The LM's turn always answers a next state. -/
theorem lmMove_next (s : State) : ∃ t, lmMove s = .next t := by
  by_cases hb : s.lm.state = .busy
  · rcases lmMove_cases s hb with ⟨-, e⟩ | ⟨-, -, ⟨-, m, e, -⟩ | ⟨-, e⟩⟩ <;> exact ⟨_, e⟩
  · exact ⟨_, lmMove_of_not_busy hb⟩

/-- What an SD turn leaves. -/
theorem SdAct.run_frame (a : SdAct) (s : State) :
    (a.run s).lm = s.lm ∧ (a.run s).params = s.params ∧ (a.run s).mem = s.mem ∧ (a.run s).agenda = s.agenda ∧
    (a.run s).accepted = s.accepted ∧ (a.run s).loan = s.loan ∧ (a.run s).readData = s.readData := by
  cases a with
  | rest => exact ⟨rfl, rfl, rfl, rfl, rfl, rfl, rfl⟩
  | stop r => exact ⟨rfl, rfl, rfl, rfl, rfl, rfl, rfl⟩
  | emit r =>
    rcases commit_cases r s with ⟨-, e⟩ | ⟨-, e⟩ <;> simp [SdAct.run, e]

/-- The records follow one another upward. -/
theorem chained_le {t d t' d' : Nat} {rs : List SymRec} (h : chained t d rs t' d' = true) : t ≤ t' ∧ d ≤ d' := by
  induction rs generalizing t d with
  | nil =>
    simp only [chained, Bool.and_eq_true, decide_eq_true_eq] at h
    omega
  | cons r rs ih =>
    simp only [chained, Bool.and_eq_true, decide_eq_true_eq] at h
    have := ih h.2
    omega

/-- A chain goes on with a record that begins where it ends. -/
theorem chained_append {t d t' d' : Nat} {rs : List SymRec} {r : SymRec} (h : chained t d rs t' d' = true)
    (ht : r.tag.toNat = t') (hd : r.dst.toNat = d') :
    chained t d (rs ++ [r]) (t' + r.width.toNat) (d' + r.len.toNat) = true := by
  induction rs generalizing t d with
  | nil =>
    simp only [chained, Bool.and_eq_true, decide_eq_true_eq] at h
    obtain ⟨rfl, rfl⟩ := h
    simp [chained, ht, hd]
  | cons q rs ih =>
    simp only [chained, Bool.and_eq_true, decide_eq_true_eq, List.cons_append] at h ⊢
    exact ⟨h.1, ih h.2⟩

/-- The output positions a chain spans are its records' lengths in all (40_symbol_decoder.md R138). -/
theorem chained_length {t d t' d' : Nat} {rs : List SymRec} (h : chained t d rs t' d' = true) :
    d + outputLength rs = d' := by
  induction rs generalizing t d with
  | nil =>
    simp only [chained, Bool.and_eq_true, decide_eq_true_eq] at h
    simp [outputLength, h.2]
  | cons r rs ih =>
    simp only [chained, Bool.and_eq_true, decide_eq_true_eq] at h
    have := ih h.2
    simp only [outputLength, List.map_cons, List.sum_cons] at this ⊢
    omega

/-- An SD action does not look at memory. -/
theorem SdAct.run_mem (a : SdAct) (s : State) (m : Memory) : a.run { s with mem := m } = { a.run s with mem := m } := by
  cases a with
  | rest => rfl
  | stop => rfl
  | emit r =>
    rcases commit_cases r s with ⟨h, e⟩ | ⟨h, e⟩
    · rcases commit_cases r { s with mem := m } with ⟨h', e'⟩ | ⟨h', e'⟩
      · simp only [SdAct.run, e, e']
      · exact absurd h' (by show ¬ s.port.length < s.params.sinkDepth; omega)
    · rcases commit_cases r { s with mem := m } with ⟨h', e'⟩ | ⟨h', e'⟩
      · exact absurd h (by change s.params.sinkDepth ≤ s.port.length at h'; omega)
      · simp only [SdAct.run, e, e']; rfl

/-- An SD action does not look at the LM or at the moves to come. -/
theorem SdAct.run_lm (a : SdAct) (s : State) (l : LmRegs) (ag : List Move) : a.run { s with lm := l, agenda := ag } = { a.run s with lm := l, agenda := ag } := by
  cases a with
  | rest => rfl
  | stop => rfl
  | emit r =>
    rcases commit_cases r s with ⟨h, e⟩ | ⟨h, e⟩
    · rcases commit_cases r { s with lm := l, agenda := ag } with ⟨h', e'⟩ | ⟨h', e'⟩
      · simp only [SdAct.run, e, e']
      · exact absurd h' (by show ¬ s.port.length < s.params.sinkDepth; omega)
    · rcases commit_cases r { s with lm := l, agenda := ag } with ⟨h', e'⟩ | ⟨h', e'⟩
      · exact absurd h (by change s.params.sinkDepth ≤ s.port.length at h'; omega)
      · simp only [SdAct.run, e, e']; rfl

end Sys2Proof.Machine
end

