-- ==== Sys2Proof/Laws/Invariant.lean ====
section
/-! SUPPORT. What each register update does to the invariant. -/

namespace Sys2Proof.Machine

/-- A register width of at most 32 bits fits 32 bits. -/
theorem two_pow_width_le {w : Nat} (h : w ≤ 32) : 2 ^ w ≤ 2 ^ 32 := Nat.pow_le_pow_right (by omega) h

/-- A run that ends with a cause its BYTES_LEFT allows keeps the SD's invariant. -/
theorem finish_sd_inv {p : Params} {sd : SdRegs} (h : sd.Inv p) {r : SdResult} (hn : r ≠ .none) (he : r ≠ .errContract)
    (hc : r = .complete → sd.bytesLeft = 0) (hb : r ≠ .complete → sd.bytesLeft ≠ 0) : ({ sd with result := r, state := .done } : SdRegs).Inv p where
  streamLen_fits := h.streamLen_fits
  startCursor_fits := h.startCursor_fits
  ulen_fits := h.ulen_fits
  cursor_fits := h.cursor_fits
  owed_fits := h.owed_fits
  count_le := h.count_le
  count_eq := h.count_eq
  sound := h.sound
  chain := h.chain
  idle := fun h => (by cases h)
  busy := fun h => (by cases h)
  done := fun _ => ⟨hn, hc, fun h => absurd h he, fun h _ => hb h⟩

/-- An accepted symbol of a BUSY SD keeps the SD's invariant. -/
theorem pushRecord_sd_inv {s : State} (hI : s.Inv) (hb : s.sd.state = .busy) {i : Instr} {cls : TagClass} (hc : i.tagClass? = some cls)
    (ha : accepts i cls s.sd) : (pushRecord (symbolRecord i cls s.sd) s).sd.Inv s.params := by
  have h := hI.sd
  have hp := hI.params
  have hL := two_pow_width_le hp.2.2.2.1
  have ho := h.owed_fits
  have hcm := pushRecord_committed ha (by omega) h.count_le hc
  have hin := symbolRecord_in_stream ha
  obtain ⟨-, -, htag, hdst, hlen, -, -⟩ := symbolRecord_fields ha
  have hpos := blen_pos hc
  have h1 := hcm.cursor
  have h2 := hcm.bytesLeft
  have h3 := hcm.dstPos
  have h4 := hcm.symCount
  have hss := symbolRecord_sound hc ha
  have hbusy := h.busy hb
  have hsf := h.streamLen_fits
  have hce := h.count_eq
  have hcl := h.count_le
  have hft : firstTag (s.sd.out ++ [symbolRecord i cls s.sd]) (pushRecord (symbolRecord i cls s.sd) s).sd.cursor = firstTag s.sd.out s.sd.cursor := by
    cases ho : s.sd.out with
    | nil => simp [firstTag, htag]
    | cons a b => rfl
  refine ⟨hsf, h.startCursor_fits, h.ulen_fits, by omega, by omega, by omega, ?_, ?_, ?_, fun hh => (by rw [pushRecord_sd_state, hb] at hh; cases hh), fun _ => ⟨hbusy.1, hbusy.2.1, ?_, ?_, ?_⟩, fun hh => (by rw [pushRecord_sd_state, hb] at hh; cases hh)⟩
  · rw [hcm.out, List.length_append, List.length_singleton]; omega
  · intro r hr
    rw [hcm.out, List.mem_append] at hr
    rcases hr with hr | hr
    · exact h.sound r hr
    · rw [List.mem_singleton] at hr; subst hr; exact hss
  · rw [hcm.out, hft, h1, h3]
    exact chained_append h.chain (by rw [htag]) (by rw [hdst])
  · rw [h1]; exact hin
  · show (pushRecord (symbolRecord i cls s.sd) s).sd.dstPos.toNat + (pushRecord (symbolRecord i cls s.sd) s).sd.bytesLeft.toNat = s.sd.ulen.toNat
    have := hbusy.2.2.2.1; omega
  · rw [hcm.out, hft]; exact hbusy.2.2.2.2

/-- The invariant does not look at the moves to come. -/
theorem State.Inv.withAgenda {s : State} (h : s.Inv) (ag : List Move) : ({ s with agenda := ag } : State).Inv :=
  ⟨h.params, h.mem_wf, h.mem_fits, h.sd, h.lm, h.port_fits, h.handed_over, h.lent⟩

/-- A configuration write keeps the SD's invariant. -/
theorem writeSd_inv {p : Params} {sd : SdRegs} (h : sd.Inv p) (o : Nat) (v : Word) : (writeSd p sd o v).Inv p := by
  simp only [writeSd]
  split
  · exact h
  · rename_i hb
    have hlt : ∀ w, (fieldBits w v).toNat < 2 ^ w := fun w => by rw [fieldBits_toNat]; exact Nat.mod_lt _ (Nat.two_pow_pos w)
    split
    · exact ⟨hlt _, h.startCursor_fits, h.ulen_fits, h.cursor_fits, h.owed_fits, h.count_le, h.count_eq, h.sound, h.chain, h.idle, fun h => absurd h hb, h.done⟩
    · exact ⟨h.streamLen_fits, hlt _, h.ulen_fits, h.cursor_fits, h.owed_fits, h.count_le, h.count_eq, h.sound, h.chain, h.idle, fun h => absurd h hb, h.done⟩
    · exact ⟨h.streamLen_fits, h.startCursor_fits, hlt _, h.cursor_fits, h.owed_fits, h.count_le, h.count_eq, h.sound, h.chain, h.idle, fun h => absurd h hb, h.done⟩
    · exact h

/-- A configuration write leaves the run state and the records, and nothing at all while BUSY. -/
theorem writeSd_state (p : Params) (sd : SdRegs) (o : Nat) (v : Word) : (writeSd p sd o v).state = sd.state ∧ (writeSd p sd o v).out = sd.out ∧ (sd.state = .busy → writeSd p sd o v = sd) := by
  simp only [writeSd]
  split
  · exact ⟨rfl, rfl, fun _ => rfl⟩
  · rename_i hb
    split <;> exact ⟨rfl, rfl, fun h => absurd h hb⟩

/-- A register write keeps the LM's invariant. -/
theorem writeLm_inv {p : Params} {lm : LmRegs} (h : lm.Inv p) (o : Nat) (v : Word) : (writeLm p.maxWords lm o v).Inv p := by
  have hw : ∀ i x, ({ lm with w := lm.w.set i x } : LmRegs).Inv p := fun i x =>
    ⟨by rw [List.length_set]; exact h.words, h.work, h.consumed_le, h.idle, h.busy, h.done⟩
  simp only [writeLm]
  split
  · exact h
  · split
    · exact ⟨h.words, h.work, h.consumed_le, h.idle, h.busy, h.done⟩
    · exact ⟨h.words, h.work, h.consumed_le, h.idle, h.busy, h.done⟩
    · split
      · split
        · exact hw _ _
        · split
          · exact hw _ _
          · exact h
      · exact h

/-- A START that is taken keeps the invariant. -/
theorem beginSdRun_inv {s : State} (hI : s.Inv) (st : RunState) (r : SdResult)
    (h : (st = .busy ∧ r = .none ∧ s.sd.startCursor.toNat < s.sd.streamLen.toNat) ∨ (st = .done ∧ r = .errContract)) : (beginSdRun st r s).Inv := by
  have hs := hI.sd
  have hu := hs.ulen_fits
  refine ⟨hI.params, hI.mem_wf, hI.mem_fits, ?_, hI.lm, hI.port_fits, List.nil_suffix, fun _ => rfl⟩
  refine ⟨hs.streamLen_fits, hs.startCursor_fits, hu, hs.startCursor_fits, by simpa using hu, by simp, by simp, by simp, by simp [firstTag, chained], ?_, ?_, ?_⟩
  · intro hh; rcases h with ⟨rfl, -⟩ | ⟨rfl, -⟩ <;> cases hh
  · intro hh; rcases h with ⟨rfl, rfl, h⟩ | ⟨rfl, -⟩
    · exact ⟨rfl, h, Nat.le_of_lt h, by simp, rfl⟩
    · cases hh
  · intro hh; rcases h with ⟨rfl, -⟩ | ⟨rfl, rfl⟩
    · cases hh
    · exact ⟨by simp, by simp, fun _ => rfl, by simp⟩

end Sys2Proof.Machine
end

