-- ==== Sys2Proof/Laws/Expand.lean ====
section
/-! SUPPORT. The reference expansion: the bytes of a copy and of a record, which record an SD emits where, and that steps
keep what it says of a run whose stream is on loan. -/

namespace Sys2Proof.Machine

/-- A prefix has the longer list's elements. -/
theorem getElem?_of_longer {α : Type} {a b : List α} (h : a <+: b) {k : Nat} (hk : k < a.length) : b[k]? = a[k]? := by
  obtain ⟨c, rfl⟩ := h
  exact List.getElem?_append_left hk

/-- A copy's bytes: how many, after which, and with which period (41_symbol_expand.md R163). -/
theorem expandCopy_spec (off n : Nat) (o : List Byte) (h1 : 1 ≤ off) (h2 : off ≤ o.length) :
    (expandCopy off n o).length = o.length + n ∧ o <+: expandCopy off n o ∧
    ∀ j < n, (expandCopy off n o)[o.length + j]? = o[o.length - off + j % off]? := by
  induction n generalizing o with
  | zero => exact ⟨rfl, List.prefix_rfl, fun j hj => absurd hj (by omega)⟩
  | succ n ih =>
    obtain ⟨e1, e2, e3⟩ := ih (o ++ [o.getD (o.length - off) 0]) (by rw [List.length_append, List.length_singleton]; omega)
    rw [List.length_append, List.length_singleton] at e1 e3
    have hlast : (o ++ [o.getD (o.length - off) 0])[o.length]? = o[o.length - off]? := by
      rw [List.getElem?_append_right (by omega), Nat.sub_self, List.getD_eq_getElem?_getD, List.getElem?_eq_getElem (by omega : o.length - off < o.length)]
      rfl
    refine ⟨by simp only [expandCopy]; omega, (List.prefix_append _ _).trans e2, fun j hj => ?_⟩
    simp only [expandCopy]
    cases j with
    | zero =>
      rw [Nat.add_zero, getElem?_of_longer e2 (by rw [List.length_append, List.length_singleton]; omega), hlast, Nat.zero_mod, Nat.add_zero]
    | succ j =>
      rw [show o.length + (j + 1) = o.length + 1 + j by omega, e3 j (by omega)]
      have hm := Nat.mod_lt j h1
      by_cases hj : j % off = off - 1
      · rw [show o.length + 1 - off + j % off = o.length by omega, hlast]
        rw [show (j + 1) % off = 0 by rw [Nat.add_mod, hj]; by_cases h : off = 1; · subst h; rfl
                                      rw [Nat.mod_eq_of_lt (by omega : 1 < off), show off - 1 + 1 = off by omega, Nat.mod_self], Nat.add_zero]
      · have : (j + 1) % off = j % off + 1 := by
          rw [Nat.add_mod, Nat.mod_eq_of_lt (by omega : 1 < off), Nat.mod_eq_of_lt (by omega)]
        rw [this, List.getElem?_append_left (by omega)]
        congr 1; omega

/-- What one turn of `Expand`'s loop appends (41_symbol_expand.md R161 to R163). -/
theorem expandRecord_spec {m : Memory} {o : List Byte} {r : SymRec} (hlen : o.length = r.dst.toNat)
    (hoff : r.kind = .copy → 1 ≤ r.off.toNat ∧ r.off.toNat ≤ r.dst.toNat) :
    (expandRecord m o r).length = r.dst.toNat + r.len.toNat ∧ o <+: expandRecord m o r ∧
    ∀ i < r.len.toNat, (r.kind = .lit → (expandRecord m o r)[r.dst.toNat + i]? = some (m.read (r.litStart.toNat + i))) ∧
    (r.kind = .copy → (expandRecord m o r)[r.dst.toNat + i]? = o[r.dst.toNat - r.off.toNat + i % r.off.toNat]?) := by
  cases hk : r.kind with
  | lit =>
    simp only [expandRecord, hk, expandLiteral]
    refine ⟨by simp [hlen], List.prefix_append _ _, fun i hi => ⟨fun _ => ?_, fun h => by simp at h⟩⟩
    rw [List.getElem?_append_right (by omega), hlen, Nat.add_sub_cancel_left, List.getElem?_map, List.getElem?_range hi]; rfl
  | copy =>
    obtain ⟨h1, h2⟩ := hoff hk
    obtain ⟨e1, e2, e3⟩ := expandCopy_spec r.off.toNat r.len.toNat o h1 (by omega)
    simp only [expandRecord, hk]
    refine ⟨by rw [e1, hlen], e2, fun i hi => ⟨fun h => by simp at h, fun _ => ?_⟩⟩
    rw [← hlen]; exact e3 i hi

/-- A header's extension bytes alone decide the symbol; the bytes after them are left over. -/
theorem decodeStream_exact (b0 : Byte) (xs : List Byte) (h : xs.length = (tagClass b0).nx) :
    ∃ i, ∀ ys, decodeStream (b0 :: (xs ++ ys)) = .ok (i, ys) := by
  cases hc : tagClass b0 <;> rcases xs with _ | ⟨e1, _ | ⟨e2, _ | ⟨e3, _ | ⟨e4, _ | ⟨e5, xs⟩⟩⟩⟩⟩ <;>
    simp [hc, TagClass.nx] at h <;> simp [decodeStream, hc]

/-- Two headers that agree up to their extension bytes decode alike. -/
theorem decodeStream_congr {b0 : Byte} {xs ys r : List Byte} {i : Instr} (hl : (tagClass b0).nx ≤ xs.length)
    (h : ys.take (tagClass b0).nx = xs.take (tagClass b0).nx) (hd : decodeStream (b0 :: xs) = .ok (i, r)) :
    ∃ r', decodeStream (b0 :: ys) = .ok (i, r') := by
  obtain ⟨j, hj⟩ := decodeStream_exact b0 (xs.take (tagClass b0).nx) (by rw [List.length_take]; omega)
  have h1 := hj (xs.drop (tagClass b0).nx)
  rw [List.take_append_drop] at h1
  rw [h1] at hd
  injection hd with hd
  injection hd with hd
  subst hd
  exact ⟨_, by have h2 := hj (ys.drop (tagClass b0).nx); rw [← h, List.take_append_drop] at h2; exact h2⟩

/-- The symbol whose header stands at a stream address. -/
def symbolAt (m : Memory) (t : Nat) : Option Instr :=
  match decodeStream (m.read t :: (List.range 4).map (fun k => m.read (t + 1 + k))) with
  | .ok (i, _) => some i
  | .error _ => none

/-- The symbol at an address depends on its header's bytes. -/
theorem symbolAt_congr {m m' : Memory} {t : Nat} {i : Instr} {cls : TagClass} (h : symbolAt m t = some i)
    (hc : i.tagClass? = some cls) (hm : ∀ a, t ≤ a → a < t + 1 + cls.nx → m'.read a = m.read a) :
    symbolAt m' t = some i := by
  simp only [symbolAt] at h
  split at h
  · rename_i j r hd
    injection h with h
    subst h
    have hcl := (tagClass_of_decoded hd).symm.trans hc
    injection hcl with hcl
    have hnx : cls.nx ≤ 4 := by cases cls <;> simp [TagClass.nx]
    obtain ⟨r', hd'⟩ := decodeStream_congr (ys := (List.range 4).map (fun k => m'.read (t + 1 + k))) (by simp [hcl, hnx])
      (by
        simp only [← List.map_take]
        refine List.map_congr_left fun k hk => ?_
        rw [List.take_range, List.mem_range, hcl] at hk
        exact hm _ (by omega) (by omega)) hd
    simp only [symbolAt, hm t (Nat.le_refl _) (by omega), hd']
  · cases h

/-- A symbol whose conditions hold passes every check. -/
theorem verdict_of_accepts {i : Instr} {cls : TagClass} {sd : SdRegs} (h : accepts i cls sd) :
    verdict i cls sd = .accept := by
  obtain ⟨h1, h2⟩ := h
  cases hk : cls.kind with
  | lit =>
    simp only [hk] at h2
    have hn : needHdr sd cls.nx = true := by simp only [needHdr, decide_eq_true_eq]; omega
    simp only [verdict, hk, checkLiteral]
    rw [if_neg (by simp [hn]), if_neg (by omega), if_neg (by omega)]
  | copy =>
    simp only [hk] at h2
    have hn : needHdr sd cls.nx = true := by simp only [needHdr, decide_eq_true_eq]; omega
    simp only [verdict, hk, checkCopy]
    rw [if_neg (by simp [hn]), if_neg (by omega), if_neg (by omega)]

/-- A BUSY SD's turn emits a record exactly where the symbol at its cursor is accepted (40_symbol_decoder.md R121 to
R125). -/
theorem sdAct_emit_iff {s : State} (hb : s.sd.state = .busy) (r : SymRec) :
    sdAct s.headerWindow s.sd = .emit r ↔ ∃ i cls, symbolAt s.mem s.sd.cursor.toNat = some i ∧ i.tagClass? = some cls ∧
      accepts i cls s.sd ∧ r = symbolRecord i cls s.sd := by
  have window : ∀ xs : List Byte, (∀ k < xs.length, xs[k]? = some (s.memRead (s.sd.cursor.toNat + 1 + k))) → xs.length ≤ 4 →
      ∀ n ≤ xs.length, xs.take n = ((List.range 4).map (fun k => s.mem.read (s.sd.cursor.toNat + 1 + k))).take n := by
    intro xs h h4 n hn
    apply List.ext_getElem?
    intro k
    by_cases hk : k < n
    · rw [List.getElem?_take_of_lt hk, List.getElem?_take_of_lt hk, h k (by omega), List.getElem?_map,
        List.getElem?_range (by omega)]
      rfl
    · rw [List.getElem?_eq_none (by rw [List.length_take]; omega), List.getElem?_eq_none (by rw [List.length_take]; omega)]
  constructor
  · intro h
    obtain ⟨-, -, i, cls, hc, hv, hr, rest, hd⟩ := sdAct_emit h
    have ha := accepts_of_verdict hv
    refine ⟨i, cls, ?_, hc, ha, hr⟩
    have hlt : s.sd.cursor.toNat < s.sd.streamLen.toNat := by
      by_contra hn
      rw [headerWindow_nil s (by omega)] at hd
      simp [decodeStream] at hd
    obtain ⟨xs, hw, hl, hx⟩ := headerWindow_cons s hlt
    rw [hw] at hd
    have hcl := (tagClass_of_decoded hd).symm.trans hc
    have hfits : (tagClass (s.memRead s.sd.cursor.toNat)).nx ≤ xs.length := by
      rcases decodeStream_cases (s.memRead s.sd.cursor.toNat) xs with ⟨-, c, e⟩ | ⟨h, -⟩
      · rw [e] at hd; cases hd
      · exact h
    obtain ⟨r', hd'⟩ := decodeStream_congr hfits (window xs hx (by omega) _ hfits).symm hd
    change decodeStream (s.mem.read s.sd.cursor.toNat :: _) = _ at hd'
    simp only [symbolAt, hd']
  · rintro ⟨i, cls, hsym, hc, ha, rfl⟩
    have hpos := blen_pos hc
    have hend := symbolRecord_in_stream ha
    obtain ⟨-, -, -, -, -, hl, hcp⟩ := symbolRecord_fields ha
    have hw : 1 + cls.nx ≤ (symbolRecord i cls s.sd).width.toNat := by
      cases hk : cls.kind with
      | lit => have := (hl hk).2.2; omega
      | copy => have := (hcp hk).2.2; omega
    obtain ⟨xs, hwin, hxl, hx⟩ := headerWindow_cons s (by omega)
    simp only [symbolAt] at hsym
    split at hsym
    · rename_i j r hd
      injection hsym with hj
      subst hj
      have hcl := (tagClass_of_decoded hd).symm.trans hc
      injection hcl with hcl
      have hnx : cls.nx ≤ 4 := by cases cls <;> simp [TagClass.nx]
      obtain ⟨r', hd'⟩ := decodeStream_congr (ys := xs) (by simp [hcl, hnx])
        (by rw [hcl]; exact window xs hx (by omega) _ (by omega)) hd
      have h0 : s.sd.bytesLeft ≠ 0 := by
        intro h0
        have := ha.1
        rw [h0] at this
        simp at this
        omega
      unfold sdAct
      rw [if_neg (by simp [hb]), if_neg h0, hwin]
      change decodeStream (s.memRead s.sd.cursor.toNat :: xs) = _ at hd'
      rw [hd']
      simp only [hc, symbolAct, verdict_of_accepts ha]
    · cases hsym

/-- Where an SD emits a record, and which (41_symbol_expand.md R164). -/
theorem emittedAt_iff {p : Params} (hp : p.legal) (m : Memory) (t d : Word) (r : SymRec) :
    emittedAt p m t d = some r ↔ ∃ i cls, symbolAt m t.toNat = some i ∧ i.tagClass? = some cls ∧
      accepts i cls (SdRegs.running p t d) ∧ r = symbolRecord i cls (SdRegs.running p t d) := by
  refine Iff.trans ?_ (sdAct_emit_iff (s := { State.reset with
    params := p
    mem := m
    sd := SdRegs.running p t d }) rfl r)
  simp only [emittedAt, sdMove_eq]
  cases sdAct _ _ with
  | rest => simp [SdAct.run, SdRegs.running, SdRegs.reset]
  | stop c => simp [SdAct.run, SdRegs.running, SdRegs.reset]
  | emit q =>
    have hroom : 0 < p.sinkDepth := hp.2.2.2.2.2.2
    rcases commit_cases q { State.reset with
        params := p
        mem := m
        sd := SdRegs.running p t d } with ⟨hf, -⟩ | ⟨-, e⟩
    · exact absurd (show p.sinkDepth ≤ 0 from hf) (by omega)
    · simp only [SdAct.run]
      rw [e]
      simp [pushRecord, SdRegs.running, SdRegs.reset]

/-- The bounds of an SD that runs in the longest stream. -/
theorem SdRegs.running_bounds {p : Params} (hp : p.legal) (t d : Word) :
    (SdRegs.running p t d).streamLen.toNat + 1 = 2 ^ p.curW ∧
    (SdRegs.running p t d).bytesLeft.toNat = 2 ^ p.lenW - 1 - d.toNat := by
  have h1 := two_pow_width_le hp.2.1
  have h2 := two_pow_width_le hp.2.2.2.1
  have h3 := Nat.two_pow_pos p.curW
  refine ⟨?_, Word.toNat_ofNat_of_lt (by omega)⟩
  show (Word.ofNat (2 ^ p.curW - 1)).toNat + 1 = _
  rw [Word.toNat_ofNat_of_lt (by omega)]
  omega

/-- An emitted record, on its own: where it stands, what it is, and that its end fits the widths (40_symbol_decoder.md
R139, R140). -/
theorem emittedAt_spec {p : Params} (hp : p.legal) {m : Memory} {t d : Word} {r : SymRec}
    (h : emittedAt p m t d = some r) : r.tag = t ∧ r.dst = d ∧ r.sound ∧ r.tag.toNat + r.width.toNat < 2 ^ p.curW ∧
    r.dst.toNat + r.len.toNat < 2 ^ p.lenW ∧ (t + r.width).toNat = t.toNat + r.width.toNat ∧
    (d + r.len).toNat = d.toNat + r.len.toNat := by
  obtain ⟨i, cls, -, hc, ha, rfl⟩ := (emittedAt_iff hp m t d r).mp h
  obtain ⟨b1, b2⟩ := SdRegs.running_bounds hp t d
  obtain ⟨-, -, htag, hdst, hlen, -, -⟩ := symbolRecord_fields ha
  change _ = t at htag
  change _ = d at hdst
  have hin := symbolRecord_in_stream ha
  have hpos := blen_pos hc
  have h1 := two_pow_width_le hp.2.1
  have h2 := two_pow_width_le hp.2.2.2.1
  have hb := ha.1
  change t.toNat + _ ≤ _ at hin
  refine ⟨htag, hdst, symbolRecord_sound hc ha, by rw [htag]; omega, by rw [hdst]; omega, ?_, ?_⟩ <;>
    rw [BitVec.toNat_add] <;> exact Nat.mod_eq_of_lt (by omega)

/-- What an SD emits depends on the stream bytes of the record it emits. -/
theorem emittedAt_congr {p : Params} (hp : p.legal) {m m' : Memory} {t d : Word} {r : SymRec}
    (h : emittedAt p m t d = some r)
    (hm : ∀ a, r.tag.toNat ≤ a → a < r.tag.toNat + r.width.toNat → m'.read a = m.read a) :
    emittedAt p m' t d = some r := by
  rw [emittedAt_iff hp] at h ⊢
  obtain ⟨i, cls, hs, hc, ha, rfl⟩ := h
  obtain ⟨-, -, htag, -, -, hl, hcp⟩ := symbolRecord_fields ha
  change _ = t at htag
  rw [htag] at hm
  have hw : 1 + cls.nx ≤ (symbolRecord i cls (SdRegs.running p t d)).width.toNat := by
    cases hk : cls.kind with
    | lit => have := (hl hk).2.2; omega
    | copy => have := (hcp hk).2.2; omega
  exact ⟨i, cls, symbolAt_congr hs hc fun a h1 h2 => hm a h1 (by omega), hc, ha, rfl⟩

/-- The record a BUSY SD's turn emits is the one the reference semantics expects there. -/
theorem emittedAt_of_sdAct {s : State} (hI : s.Inv) (hb : s.sd.state = .busy) {r : SymRec}
    (h : sdAct s.headerWindow s.sd = .emit r) : emittedAt s.params s.mem s.sd.cursor s.sd.dstPos = some r := by
  obtain ⟨i, cls, hs, hc, ⟨ha1, ha2⟩, rfl⟩ := (sdAct_emit_iff hb r).mp h
  obtain ⟨b1, b2⟩ := SdRegs.running_bounds hI.params s.sd.cursor s.sd.dstPos
  have h1 := hI.sd.streamLen_fits
  have h2 := hI.sd.owed_fits
  refine (emittedAt_iff hI.params _ _ _ _).mpr ⟨i, cls, hs, hc, ⟨by omega, ?_⟩, rfl⟩
  cases hk : cls.kind with
  | lit => simp only [hk] at ha2; show s.sd.cursor.toNat + 1 + cls.nx + blen i ≤ _; omega
  | copy => simp only [hk] at ha2; exact ⟨by show s.sd.cursor.toNat + 1 + cls.nx ≤ _; omega, ha2.2⟩

/-- Records that an SD emits follow one another, and each is sound (40_symbol_decoder.md R138 to R140). -/
theorem emittedFrom_spec {p : Params} (hp : p.legal) {m : Memory} {t d : Word} {rs : List SymRec}
    (h : emittedFrom p m t d rs = true) :
    (∀ r ∈ rs, r.sound) ∧ ∃ t' d' : Word, chained t.toNat d.toNat rs t'.toNat d'.toNat = true := by
  induction rs generalizing t d with
  | nil => exact ⟨fun r hr => (by cases hr), t, d, by simp [chained]⟩
  | cons r rs ih =>
    simp only [emittedFrom, Bool.and_eq_true, decide_eq_true_eq] at h
    obtain ⟨htag, hdst, hs, -, -, e1, e2⟩ := emittedAt_spec hp h.1
    obtain ⟨ih1, t', d', ih2⟩ := ih h.2
    refine ⟨fun q hq => ?_, t', d', ?_⟩
    · rcases List.mem_cons.mp hq with rfl | hq
      · exact hs
      · exact ih1 q hq
    · simp only [chained, Bool.and_eq_true, decide_eq_true_eq]
      exact ⟨⟨by rw [htag], by rw [hdst]⟩, by rw [e1, e2] at ih2; exact ih2⟩

/-- What an SD emits depends on the stream bytes of its records. -/
theorem emittedFrom_congr {p : Params} (hp : p.legal) {m m' : Memory} {t d : Word} {rs : List SymRec}
    (h : emittedFrom p m t d rs = true)
    (hm : ∀ r ∈ rs, ∀ a, r.tag.toNat ≤ a → a < r.tag.toNat + r.width.toNat → m'.read a = m.read a) :
    emittedFrom p m' t d rs = true := by
  induction rs generalizing t d with
  | nil => rfl
  | cons r rs ih =>
    simp only [emittedFrom, Bool.and_eq_true, decide_eq_true_eq] at h ⊢
    exact ⟨emittedAt_congr hp h.1 (hm r (by simp)), ih h.2 fun q hq => hm q (by simp [hq])⟩

/-- An SD's records go on with what it emits where they end. -/
theorem emittedFrom_append {p : Params} (hp : p.legal) {m : Memory} {t d t' d' : Word} {rs : List SymRec} {r : SymRec}
    (h : emittedFrom p m t d rs = true) (hc : chained t.toNat d.toNat rs t'.toNat d'.toNat = true) :
    emittedFrom p m t d (rs ++ [r]) = true ↔ emittedAt p m t' d' = some r := by
  induction rs generalizing t d with
  | nil =>
    simp only [chained, Bool.and_eq_true, decide_eq_true_eq] at hc
    rw [BitVec.eq_of_toNat_eq hc.1, BitVec.eq_of_toNat_eq hc.2]
    simp [emittedFrom]
  | cons q rs ih =>
    simp only [emittedFrom, Bool.and_eq_true, decide_eq_true_eq, chained, List.cons_append] at h hc ⊢
    obtain ⟨-, -, -, -, -, e1, e2⟩ := emittedAt_spec hp h.1
    rw [ih h.2 (by rw [e1, e2]; exact hc.2)]
    exact ⟨fun g => g.2, fun g => ⟨h.1, g⟩⟩

/-- `emitted` in terms of the address the records begin at. -/
theorem emitted_eq (p : Params) (m : Memory) (recs : List SymRec) {t : Word} (h : firstTag recs t = t.toNat) :
    emitted p m recs = emittedFrom p m t 0 recs := by
  cases recs with
  | nil => rfl
  | cons r rs => rw [show t = r.tag from (BitVec.eq_of_toNat_eq h).symm]; rfl

/-- An address the records begin at, whatever the cursor. -/
theorem exists_firstTag (recs : List SymRec) : ∃ t : Word, firstTag recs t = t.toNat := by
  cases recs with
  | nil => exact ⟨0, rfl⟩
  | cons r rs => exact ⟨r.tag, rfl⟩

/-- What an SD emits depends on the stream bytes of its records. -/
theorem emitted_of_reads_alike {p : Params} (hp : p.legal) {m m' : Memory} {recs : List SymRec} (h : emitted p m recs = true)
    (hm : ∀ r ∈ recs, ∀ a, r.tag.toNat ≤ a → a < r.tag.toNat + r.width.toNat → m'.read a = m.read a) :
    emitted p m' recs = true := by
  obtain ⟨t, ht⟩ := exists_firstTag recs
  rw [emitted_eq _ _ _ ht] at h ⊢
  exact emittedFrom_congr hp h hm

/-- A chain of sound records expands to the positions it spans, after the output so far (41_symbol_expand.md R165). -/
theorem foldl_expandRecord_spec {m : Memory} {rs : List SymRec} {t d t' d' : Nat} {o : List Byte} (hc : chained t d rs t' d' = true)
    (hs : ∀ r ∈ rs, r.sound) (ho : o.length = d) : (rs.foldl (expandRecord m) o).length = d' ∧ o <+: rs.foldl (expandRecord m) o := by
  induction rs generalizing t d o with
  | nil => simp only [chained, Bool.and_eq_true, decide_eq_true_eq] at hc; exact ⟨by simp only [List.foldl_nil]; omega, List.prefix_rfl⟩
  | cons r rs ih =>
    simp only [chained, Bool.and_eq_true, decide_eq_true_eq] at hc
    have hoff := fun hk => ((hs r (by simp)).2.2.2 hk).2.2
    obtain ⟨h1, h2, -⟩ := expandRecord_spec (m := m) (o := o) (r := r) (by omega) hoff
    obtain ⟨i1, i2⟩ := ih (o := expandRecord m o r) hc.2 (fun q hq => hs q (by simp [hq])) (by omega)
    exact ⟨i1, h2.trans i2⟩

/-- A state with no records has the second invariant. -/
theorem State.emitted_of_no_records {s : State} (h : s.sd.out = []) : s.Emitted :=
  ⟨fun _ => by rw [h]; rfl, fun _ _ r hr => by rw [h] at hr; cases hr⟩

/-- The second invariant looks at the parameters, the stream memory, the loan and the records alone. -/
theorem State.Emitted.of_same_run {s t : State} (hE : s.Emitted) (h1 : t.loan = s.loan) (h2 : t.params = s.params) (h3 : t.mem = s.mem)
    (h4 : t.sd.out = s.sd.out) : t.Emitted :=
  ⟨by rw [h1, h2, h3, h4]; exact hE.from_stream, by rw [h1, h4]; exact hE.in_loan⟩

/-- An accepted symbol of a BUSY SD keeps the second invariant. -/
theorem pushRecord_emitted {s : State} (hI : s.Inv) (hE : s.Emitted) (hb : s.sd.state = .busy) {r : SymRec}
    (h : sdAct s.headerWindow s.sd = .emit r) : (pushRecord r s).Emitted := by
  have hl := hI.lent hb
  have hbusy := hI.sd.busy hb
  have hat := emittedAt_of_sdAct hI hb h
  obtain ⟨i, cls, hs, hc, ha, rfl⟩ := (sdAct_emit_iff hb r).mp h
  have hin := symbolRecord_in_stream ha
  have htag := (symbolRecord_fields ha).2.2.1
  have hch := hI.sd.chain
  rw [hbusy.2.2.2.2] at hch
  have hft : firstTag s.sd.out s.sd.startCursor = s.sd.startCursor.toNat := by
    have := hbusy.2.2.2.2
    cases ho : s.sd.out with
    | nil => rfl
    | cons a b => rw [ho] at this; exact this
  refine ⟨fun _ => ?_, fun l hl' q hq => ?_⟩
  · show emitted s.params s.mem (s.sd.out ++ [_]) = true
    have he := hE.from_stream (by rw [hl]; simp)
    rw [emitted_eq _ _ _ hft] at he
    rw [emitted_eq (t := s.sd.startCursor), emittedFrom_append hI.params he hch]
    · exact hat
    · cases ho : s.sd.out with
      | nil =>
        have := hbusy.2.2.2.2
        rw [ho] at this
        show (symbolRecord i cls s.sd).tag.toNat = _
        rw [htag]; exact this
      | cons a b => rw [ho] at hft; exact hft
  · change q ∈ s.sd.out ++ [_] at hq
    rcases List.mem_append.mp hq with hq | hq
    · exact hE.in_loan l hl' q hq
    · rw [List.mem_singleton] at hq
      subst hq
      change s.loan = some l at hl'
      rw [hl] at hl'
      injection hl' with hl'
      subst hl'
      have := (chained_le hch).1
      rw [htag]
      exact ⟨this, hin⟩

end Sys2Proof.Machine
end

