-- ==== Sys2Proof/Laws/HostPort.lean ====
section
/-! SUPPORT. The register banks: halves of 64-bit registers, and the window word registers. -/

namespace Sys2Proof.Machine

/-- The low 32 bits of a concatenation. -/
theorem extract_low_word {n : Nat} (x : BitVec n) (y : Word) : (x ++ y).extractLsb' 0 32 = y := by
  ext i hi
  simp [BitVec.getLsbD_append, hi]

/-- The 32 bits above the low 32. -/
theorem extract_high_word {n : Nat} (x : BitVec n) (y : Word) : (x ++ y).extractLsb' 32 n = x := by
  ext i hi
  simp [BitVec.getLsbD_append, hi]

@[simp] theorem loHalf_setLoHalf (d : DWord) (v : Word) : loHalf (setLoHalf d v) = v := extract_low_word (hiHalf d) v

@[simp] theorem hiHalf_setLoHalf (d : DWord) (v : Word) : hiHalf (setLoHalf d v) = hiHalf d :=
  extract_high_word (hiHalf d) v

@[simp] theorem loHalf_setHiHalf (d : DWord) (v : Word) : loHalf (setHiHalf d v) = loHalf d :=
  extract_low_word v (loHalf d)

@[simp] theorem hiHalf_setHiHalf (d : DWord) (v : Word) : hiHalf (setHiHalf d v) = v := extract_high_word v (loHalf d)

/-- The low register of a window word (10_state.md R44). -/
theorem readLm_lo (mw : Nat) (lm : LmRegs) (i : Nat) (h : i < mw) :
    readLm mw lm (0x20 + 8 * i) = loHalf (lm.w.getD i 0) := by
  have hi : windowIndex (0x20 + 8 * i) = i := by simp only [windowIndex]; omega
  simp only [readLm]
  split <;> try omega
  rw [hi]
  rw [if_pos ⟨by omega, h⟩, if_pos (by omega)]

/-- The high register of a window word (10_state.md R44). -/
theorem readLm_hi (mw : Nat) (lm : LmRegs) (i : Nat) (h : i < mw) :
    readLm mw lm (0x24 + 8 * i) = hiHalf (lm.w.getD i 0) := by
  have hi : windowIndex (0x24 + 8 * i) = i := by simp only [windowIndex]; omega
  simp only [readLm]
  split <;> try omega
  rw [hi]
  rw [if_pos ⟨by omega, h⟩, if_neg (by omega), if_pos (by omega)]

/-- A write of the low register of a window word. -/
theorem writeLm_lo (mw : Nat) (lm : LmRegs) (i : Nat) (v : Word) (hb : lm.state ≠ .busy) :
    writeLm mw lm (0x20 + 8 * i) v =
      if i < mw then { lm with w := lm.w.set i (setLoHalf (lm.w.getD i 0) v) } else lm := by
  have hi : windowIndex (0x20 + 8 * i) = i := by simp only [windowIndex]; omega
  simp only [writeLm, if_neg hb]
  split <;> try omega
  rw [hi]
  by_cases h : i < mw
  · rw [if_pos ⟨by omega, h⟩, if_pos (by omega), if_pos h]
  · rw [if_neg (fun h' => h h'.2), if_neg h]

/-- A write of the high register of a window word. -/
theorem writeLm_hi (mw : Nat) (lm : LmRegs) (i : Nat) (v : Word) (hb : lm.state ≠ .busy) :
    writeLm mw lm (0x24 + 8 * i) v =
      if i < mw then { lm with w := lm.w.set i (setHiHalf (lm.w.getD i 0) v) } else lm := by
  have hi : windowIndex (0x24 + 8 * i) = i := by simp only [windowIndex]; omega
  simp only [writeLm, if_neg hb]
  split <;> try omega
  rw [hi]
  by_cases h : i < mw
  · rw [if_pos ⟨by omega, h⟩, if_neg (by omega), if_pos (by omega), if_pos h]
  · rw [if_neg (fun h' => h h'.2), if_neg h]

/-- A 64-bit register is its two halves, LO the bits 31:0 and HI the bits 63:32 (20_memory.md R67). -/
theorem toNat_of_halves (d : DWord) : d.toNat = (loHalf d).toNat + (hiHalf d).toNat * 2 ^ 32 := by
  have := d.isLt
  simp [loHalf, hiHalf]
  omega

/-- The two registers of a window word give the word. -/
theorem windowWord_of_reads (s : State) (i : Nat) (h : i < s.params.maxWords) : (s.lm.w.getD i 0).toNat =
    (readReg s .lm (0x20 + 8 * i)).toNat + (readReg s .lm (0x24 + 8 * i)).toNat * 2 ^ 32 := by
  simp only [readReg, readLm_lo _ _ _ h, readLm_hi _ _ _ h]
  exact toNat_of_halves _

end Sys2Proof.Machine
end

