-- ==== Sys2Proof/Laws/Len3String.lean ====
section
/-! SUPPORT. The string form of the len3 mask, beside the window positions and the mask bits. -/

namespace Sys2Proof.Machine

/-- A word has 64 characters. -/
theorem bin64_length (w : DWord) : (bin64 w).length = 64 := by simp [bin64]

/-- The string form, from any string on. -/
theorem toBit_append (ws : List DWord) (acc : List Bool) : ws.foldl (fun acc w => bin64 w ++ acc) acc = toBitsequence ws ++ acc := by
  simp only [toBitsequence]
  induction ws generalizing acc with
  | nil => rfl
  | cons w ws ih => rw [List.foldl_cons, List.foldl_cons, ih, ih (bin64 w ++ [])]; simp

/-- The first word's characters come last. -/
theorem toBit_cons (w : DWord) (ws : List DWord) : toBitsequence (w :: ws) = toBitsequence ws ++ bin64 w := by
  rw [toBitsequence, List.foldl_cons, toBit_append, List.append_nil]

/-- 64 characters a word. -/
theorem toBit_length (ws : List DWord) : (toBitsequence ws).length = 64 * ws.length := by
  induction ws with
  | nil => rfl
  | cons w ws ih => rw [toBit_cons, List.length_append, ih, bin64_length, List.length_cons]; omega

/-- Window position `p` is the string's character `p` from the end (42_len3_mask.md R186). -/
theorem toBit_get (ws : List DWord) (p : Nat) (hp : p < 64 * ws.length) :
    (toBitsequence ws).getD (64 * ws.length - 1 - p) false = (ws.getD (p / 64) 0).getLsbD (p % 64) := by
  induction ws generalizing p with
  | nil => simp at hp
  | cons w ws ih =>
    rw [toBit_cons, List.getD_eq_getElem?_getD]
    rw [List.length_cons] at hp ⊢
    by_cases h : p < 64
    · rw [List.getElem?_append_right (by rw [toBit_length]; omega), toBit_length]
      rw [show 64 * (ws.length + 1) - 1 - p - 64 * ws.length = 63 - p by omega]
      rw [Nat.div_eq_of_lt h, Nat.mod_eq_of_lt h]
      simp only [bin64, List.getElem?_map, List.getElem?_range (show 63 - p < 64 by omega), Option.map_some, Option.getD_some, List.getD_cons_zero]
      congr 1; omega
    · rw [List.getElem?_append_left (by rw [toBit_length]; omega)]
      have := ih (p - 64) (by omega)
      rw [List.getD_eq_getElem?_getD] at this
      rw [show 64 * (ws.length + 1) - 1 - p = 64 * ws.length - 1 - (p - 64) by omega, this]
      rw [show p / 64 = (p - 64) / 64 + 1 by omega, List.getD_cons_succ, show (p - 64) % 64 = p % 64 by omega]

/-- A numeral read on from a number. -/
theorem numeral_foldl (l : List Bool) (n : Nat) : l.foldl (fun n b => 2 * n + b.toNat) n = n * 2 ^ l.length + numeral l := by
  simp only [numeral]
  induction l generalizing n with
  | nil => simp
  | cons b l ih =>
    rw [List.foldl_cons, List.foldl_cons, ih, ih (2 * 0 + b.toNat), List.length_cons, pow_succ]
    ring

/-- The most significant character's weight. -/
theorem numeral_cons (b : Bool) (l : List Bool) : numeral (b :: l) = b.toNat * 2 ^ l.length + numeral l := by
  rw [numeral, List.foldl_cons, numeral_foldl]; simp

/-- The first `n` flag bits as a number, bit `k` of weight `2 ^ k` (42_len3_mask.md R186). -/
def maskNat (lm : LmRegs) (n : Nat) : Nat := ((List.range n).map (fun k => (wbit lm (flagPos lm k)).toNat * 2 ^ k)).sum

/-- One more flag bit. -/
theorem maskNat_succ (lm : LmRegs) (n : Nat) : maskNat lm (n+1) = maskNat lm n + (wbit lm (flagPos lm n)).toNat * 2 ^ n := by
  simp [maskNat, List.range_succ]

/-- The scan meets the flags of the window in order, or stops where the window does not have one (42_len3_mask.md R185). -/
theorem scan_spec (lm : LmRegs) (str : List Bool) (nb : Nat)
    (hget : ∀ p < nb, str.getD (nb - 1 - p) false = wbit lm p) (n k : Nat) (acc : List Bool) (hacc : acc.length = k) (hnum : numeral acc = maskNat lm k) :
    ((∀ j < n, flagPos lm (k + j) < nb) ∧ ∃ out, scanBack str n ((nb : Int) - 1 - flagPos lm k) acc = some (out, (nb : Int) - 1 - flagPos lm (k + n)) ∧ numeral out = maskNat lm (k + n)) ∨
    ((∃ j < n, nb ≤ flagPos lm (k + j)) ∧ scanBack str n ((nb : Int) - 1 - flagPos lm k) acc = none) := by
  induction n generalizing k acc with
  | zero => exact .inl ⟨fun j hj => by omega, acc, rfl, hnum⟩
  | succ n ih =>
    by_cases hp : flagPos lm k < nb
    · have hge : ¬ ((nb : Int) - 1 - flagPos lm k < 0) := by omega
      have hidx : ((nb : Int) - 1 - flagPos lm k).toNat = nb - 1 - flagPos lm k := by omega
      have step1 := ih (k + 1) (wbit lm (flagPos lm k) :: acc) (by simp [hacc]) (by rw [numeral_cons, hacc, hnum, maskNat_succ]; omega)
      have hs : scanBack str (n+1) ((nb : Int) - 1 - flagPos lm k) acc = scanBack str n ((nb : Int) - 1 - flagPos lm (k+1)) (wbit lm (flagPos lm k) :: acc) := by
        simp only [scanBack]
        rw [if_neg hge, hidx, hget _ hp]
        cases hb : wbit lm (flagPos lm k) with
        | true => rw [if_pos rfl]; congr 1; simp only [flagPos, hb]; push_cast; simp; omega
        | false => rw [if_neg (by simp)]; congr 1; simp only [flagPos, hb]; push_cast; simp; omega
      rw [hs]
      rcases step1 with ⟨hall, out, e, hn⟩ | ⟨⟨j, hj, ho⟩, e⟩
      · refine .inl ⟨fun j hj => ?_, out, by rw [e, show k + 1 + n = k + (n + 1) by omega], by rw [hn, show k + 1 + n = k + (n + 1) by omega]⟩
        cases j with
        | zero => exact hp
        | succ j => rw [show k + (j+1) = k + 1 + j by omega]; exact hall j (by omega)
      · exact .inr ⟨⟨j+1, by omega, by rw [show k + (j+1) = k + 1 + j by omega]; exact ho⟩, e⟩
    · refine .inr ⟨⟨0, by omega, by simpa using hp⟩, ?_⟩
      simp only [scanBack]
      rw [if_pos (by omega)]

/-- A mask of the flag bits, as a number. -/
theorem maskNat_eq (lm : LmRegs) (m : DWord) (L : Nat) (hm : ∀ b, m.getLsbD b = (decide (b < L) && wbit lm (flagPos lm b))) : m.toNat = maskNat lm L := by
  have h1 : ∀ n ≤ L, maskNat lm n = m.toNat % 2 ^ n := by
    intro n hn
    induction n with
    | zero => simp [maskNat, Nat.mod_one]
    | succ n ih =>
      rw [maskNat_succ, ih (by omega)]
      have hb := hm n
      simp only [show n < L by omega, decide_true, Bool.true_and] at hb
      rw [← hb, BitVec.getLsbD, Nat.mod_pow_succ, Nat.testBit_eq_decide_div_mod_eq, Nat.mul_comm]
      rcases Nat.mod_two_eq_zero_or_one (m.toNat / 2 ^ n) with h | h <;> simp [h]
  rw [h1 L (Nat.le_refl _)]
  refine (Nat.mod_eq_of_lt ?_).symm
  apply Nat.lt_pow_two_of_testBit
  intro i hi
  have := hm i
  rw [BitVec.getLsbD] at this
  rw [this]; simp [show ¬ i < L by omega]

end Sys2Proof.Machine
end

