-- ==== Sys2Proof/Laws/PerInstr.lean ====
section
/-! SUPPORT. What holds of every instruction as syntax, one lemma for each constructor. -/

namespace Sys2Proof.Laws.EncodingWidth

/-- A stream symbol is encoded by its header alone, a tag byte and its class's extension bytes, and stands for at least
one output byte; any other row has no header and stands for none (30_encoding.md R86, R100, R101). -/
def Statement (i : Instr) : Prop :=
  match i.tagClass? with
  | some cls => encode i = .stream i.header ∧ i.header.length = 1 + cls.nx ∧ 1 ≤ Machine.blen i
  | none => i.header = [] ∧ Machine.blen i = 0

theorem litShort (l : BitVec 2) : Statement (.litShort l) := ⟨rfl, rfl, Nat.le_add_left 1 _⟩

theorem litMid (l : BitVec 6) : Statement (.litMid l) := ⟨rfl, rfl, Nat.le_add_left 1 _⟩

theorem litExt1 (v : BitVec 8) : Statement (.litExt1 v) := ⟨rfl, rfl, Nat.le_add_left 1 _⟩

theorem litExt2 (v : BitVec 16) : Statement (.litExt2 v) := ⟨rfl, rfl, Nat.le_add_left 1 _⟩

theorem litExt3 (v : BitVec 24) : Statement (.litExt3 v) := ⟨rfl, rfl, Nat.le_add_left 1 _⟩

theorem litExt4 (v : BitVec 32) : Statement (.litExt4 v) := ⟨rfl, rfl, Nat.le_add_left 1 _⟩

theorem copy1 (l : BitVec 3) (off : BitVec 11) : Statement (.copy1 l off) := ⟨rfl, rfl, Nat.le_add_left 1 _⟩

theorem copy2 (l : BitVec 6) (off : BitVec 16) : Statement (.copy2 l off) := ⟨rfl, rfl, Nat.le_add_left 1 _⟩

theorem copy4 (l : BitVec 6) (off : BitVec 32) : Statement (.copy4 l off) := ⟨rfl, rfl, Nat.le_add_left 1 _⟩

theorem len3W2 : Statement .len3W2 := ⟨rfl, rfl⟩

theorem len3W3 : Statement .len3W3 := ⟨rfl, rfl⟩

theorem sdStart : Statement .sdStart := ⟨rfl, rfl⟩

theorem lmStart : Statement .lmStart := ⟨rfl, rfl⟩

end Sys2Proof.Laws.EncodingWidth
end

