-- ==== Sys2Proof/Laws/Runs.lean ====
section
/-! SUPPORT. Runs: what a START that is taken does, and what a step can do to a run in progress. -/

namespace Sys2Proof.Machine

/-- A START that is taken, spelled out. -/
theorem startsRun_spec {bank : Bank} {s : State} (h : startsRun bank s = true) : ∃ at_ v ag,
    s.agenda = .write at_ 32 v :: ag ∧ locate s.params at_ = some (bank, 0) ∧ v.getLsbD 0 = true ∧
    unitState bank s ≠ .busy := by
  simp only [startsRun] at h
  split at h
  · rename_i at_ bits v ag hag
    simp only [Bool.and_eq_true, decide_eq_true_eq] at h
    obtain ⟨⟨⟨h1, rfl⟩, h3⟩, h4⟩ := h
    exact ⟨at_, v, ag, hag, h1, h3, h4⟩
  · cases h

/-- The step of a START that is taken is the write to CTRL, on the state without that move. -/
theorem step_of_startsRun {bank : Bank} {s : State} (h : startsRun bank s = true) : ∃ v : Word, v.getLsbD 0 = true ∧
    step s = writeAt { s with agenda := s.agenda.tail } bank 0 v := by
  obtain ⟨at_, v, ag, hag, hl, hv, -⟩ := startsRun_spec h
  refine ⟨v, hv, ?_⟩
  rw [step_of_agenda hag, hag]
  simp only [runMove, accessAt, hl, List.tail_cons]
  rfl

/-- An SD START that is taken: the run is BUSY, or is over at once (43_host_interface.md R206). -/
theorem step_of_startsRun_sd {s : State} (h : startsRun .sd s = true) :
    (s.sd.startCursor.toNat < s.sd.streamLen.toNat ∧
      step s = .next (beginSdRun .busy .none { s with agenda := s.agenda.tail })) ∨
    (s.sd.streamLen.toNat ≤ s.sd.startCursor.toNat ∧
      step s = .next (beginSdRun .done .errContract { s with agenda := s.agenda.tail })) := by
  obtain ⟨-, -, -, -, -, -, hb⟩ := startsRun_spec h
  obtain ⟨v, hv, e⟩ := step_of_startsRun h
  simp only [writeAt, decodeCommand_start .sd v hv] at e
  rw [e]
  rcases execSdStart_cases { s with agenda := s.agenda.tail } with ⟨h1, -⟩ | ⟨-, h2, e⟩ | ⟨-, h2, e⟩
  · exact absurd h1 hb
  · exact .inl ⟨h2, e⟩
  · exact .inr ⟨h2, e⟩

/-- An LM START that is taken (43_host_interface.md R207). -/
theorem step_of_startsRun_lm {s : State} (h : startsRun .lm s = true) :
    step s = .next (beginLmRun { s with agenda := s.agenda.tail }) := by
  obtain ⟨-, -, -, -, -, -, hb⟩ := startsRun_spec h
  obtain ⟨v, hv, e⟩ := step_of_startsRun h
  simp only [writeAt, decodeCommand_start .lm v hv] at e
  rw [e]
  rcases execLmStart_cases { s with agenda := s.agenda.tail } with ⟨h1, -⟩ | ⟨-, e⟩
  · exact absurd h1 hb
  · exact e

/-- What an accepted turn of the SD makes of its registers. -/
def SdAct.registers : SdAct → SdRegs → SdRegs
  | .rest, sd => sd
  | .stop r, sd => { sd with state := .done, result := r }
  | .emit r, sd => (pushRecord r { State.reset with sd := sd }).sd

/-- Carrying out a turn changes the SD's registers so, unless a full port holds it. -/
theorem SdAct.run_registers (a : SdAct) (s : State) : (a.run s).sd = s.sd ∨ (a.run s).sd = a.registers s.sd := by
  cases a with
  | rest => exact .inl rfl
  | stop r => exact .inr rfl
  | emit r => rcases commit_cases r s with ⟨-, e⟩ | ⟨-, e⟩ <;> simp only [SdAct.run, e, true_or]; exact .inr rfl

/-- A step of a BUSY SD's run: its registers stay, take a turn, or are reset; its stream stays (20_memory.md R76, 60_exceptions.md
R240, 43_host_interface.md R204, R208). -/
theorem step_of_busy_sd {s t : State} (hI : s.Inv) (hb : s.sd.state = .busy) (h : step s = .next t) :
    t.sd.state = .idle ∨
    ((t.sd = s.sd ∨ t.sd = (sdAct s.headerWindow s.sd).registers s.sd) ∧
      ∀ a, s.sd.startCursor.toNat ≤ a → a < s.sd.streamLen.toNat → t.memRead a = s.memRead a) := by
  rcases step_cases s with e | ⟨mv, ag, e⟩
  · rw [e] at h; injection h with h; subst h; exact .inr ⟨.inl rfl, fun _ _ _ => rfl⟩
  rw [e] at h
  have hl := hI.lent hb
  rcases runMove_cases h with h | h | h | h | ⟨bank, o, h⟩ | ⟨bank, o, v, h⟩ | ⟨a, b, -, h2, h⟩
  · rw [sdMove_eq] at h
    injection h with h
    subst h
    refine .inr ⟨?_, fun a _ _ => by rw [State.memRead, (SdAct.run_frame _ _).2.2.1]; rfl⟩
    exact SdAct.run_registers _ { s with agenda := ag }
  · rw [lmMove_frame h]; exact .inr ⟨.inl rfl, fun _ _ _ => rfl⟩
  · subst h
    refine .inr ⟨.inl ?_, fun a _ _ => ?_⟩ <;> unfold sinkMove <;> split <;> rfl
  · subst h; exact .inl rfl
  · subst h; exact .inr ⟨.inl rfl, fun _ _ _ => rfl⟩
  · rcases writeAt_cases { s with agenda := ag } bank o v with ⟨-, -, -, e⟩ | ⟨-, -, -, e⟩ | e <;> rw [e] at h
    · rcases execSdStart_cases { s with agenda := ag } with ⟨-, e⟩ | ⟨hn, -⟩ | ⟨hn, -⟩
      · rw [e] at h; injection h with h; subst h; exact .inr ⟨.inl rfl, fun _ _ _ => rfl⟩
      · exact absurd hb hn
      · exact absurd hb hn
    · rcases execLmStart_cases { s with agenda := ag } with ⟨-, e⟩ | ⟨-, e⟩ <;> rw [e] at h <;> injection h with h <;>
        subst h <;> exact .inr ⟨.inl rfl, fun _ _ _ => rfl⟩
    · injection h with h; subst h
      cases bank with
      | sd => exact .inr ⟨.inl ((writeSd_state s.params s.sd o v).2.2 hb), fun _ _ _ => rfl⟩
      | lm => exact .inr ⟨.inl rfl, fun _ _ _ => rfl⟩
  · subst h
    refine .inr ⟨.inl rfl, fun x h3 h4 => Memory.read_write_other _ _ _ _ ?_⟩
    rintro rfl
    simp [onLoan, hl] at h2
    omega

/-- A register write to a BUSY LM changes nothing (43_host_interface.md R204). -/
theorem writeLm_busy {mw : Nat} {lm : LmRegs} (hb : lm.state = .busy) (o : Nat) (v : Word) : writeLm mw lm o v = lm := by
  simp [writeLm, hb]

/-- A step of a BUSY LM's run: its registers stay, take their turn, or are reset (60_exceptions.md R240,
43_host_interface.md R204, R208). -/
theorem step_of_busy_lm {s t : State} (hb : s.lm.state = .busy) (h : step s = .next t) :
    t.lm.state = .idle ∨ (t.lm = s.lm ∧ t.params = s.params) ∨ ∃ ag, lmMove { s with agenda := ag } = .next t := by
  rcases step_cases s with e | ⟨mv, ag, e⟩
  · rw [e] at h; injection h with h; subst h; exact .inr (.inl ⟨rfl, rfl⟩)
  rw [e] at h
  rcases runMove_cases h with h | h | h | h | ⟨bank, o, h⟩ | ⟨bank, o, v, h⟩ | ⟨a, b, -, -, h⟩
  · rw [sdMove_frame h]; exact .inr (.inl ⟨rfl, rfl⟩)
  · exact .inr (.inr ⟨ag, h⟩)
  · subst h
    refine .inr (.inl ?_)
    unfold sinkMove
    split <;> exact ⟨rfl, rfl⟩
  · subst h; exact .inl rfl
  · subst h; exact .inr (.inl ⟨rfl, rfl⟩)
  · rcases writeAt_cases { s with agenda := ag } bank o v with ⟨-, -, -, e⟩ | ⟨-, -, -, e⟩ | e <;> rw [e] at h
    · have := exec_frame h
      exact .inr (.inl ⟨(this.2.2.2.2.2.2).resolve_right (by simp), this.2.1⟩)
    · rcases execLmStart_cases { s with agenda := ag } with ⟨-, e⟩ | ⟨hn, -⟩
      · rw [e] at h; injection h with h; subst h; exact .inr (.inl ⟨rfl, rfl⟩)
      · exact absurd hb hn
    · injection h with h; subst h
      cases bank with
      | sd => exact .inr (.inl ⟨rfl, rfl⟩)
      | lm => exact .inr (.inl ⟨writeLm_busy hb o v, rfl⟩)
  · subst h; exact .inr (.inl ⟨rfl, rfl⟩)

end Sys2Proof.Machine
end

