-- ==== Sys2Proof/Tests/Slice0.lean ====
section
/-! SUPPORT. Tests: ill-formed terms, words written out from the encodings of 30_encoding.md, one step on small states
with the results of 95_test_vectors.md, and for each obligation with hypotheses a state that meets them. -/

namespace Sys2Proof.Tests

open Sys2Proof Sys2Proof.Machine

/-! ### Ill-formed terms: LIT_MID is the one row with a range (30_encoding.md R87). -/

theorem test_litMid_below_range : (Instr.litMid 3).wellFormed = false := by decide
theorem test_litMid_above_range : (Instr.litMid 60).wellFormed = false := by decide
theorem test_litMid_lowest : (Instr.litMid 4).wellFormed = true := by decide
theorem test_litMid_highest : (Instr.litMid 59).wellFormed = true := by decide

/-- The ill-formed terms' own bytes are other rows: `0x0C` is LIT_SHORT, `0xF0` LIT_EXT1 (R87). -/
theorem test_illFormed_decode_elsewhere : decode (encode (.litMid 3)) = .ok (.litShort 3) ∧
    decode (encode (.litMid 60)) = .error (.headerCut .litExt1) := by decide

/-! ### Words written out bit by bit from the encodings (30_encoding.md R89 to R101) -/

/-- `0000LL00`, LL = 10. -/
theorem test_decode_litShort : decode (.stream [0b00001000#8]) = .ok (.litShort 2) := by decide
/-- `LLLLLL00`, L = 4. -/
theorem test_decode_litMid : decode (.stream [0b00010000#8]) = .ok (.litMid 4) := by decide
/-- `11110000 VVVVVVVV`. -/
theorem test_decode_litExt1 : decode (.stream [0b11110000#8, 0b10000001#8]) = .ok (.litExt1 0x81) := by decide
/-- `11110100` and two bytes, the low one first. -/
theorem test_decode_litExt2 : decode (.stream [0b11110100#8, 0x34#8, 0x12#8]) = .ok (.litExt2 0x1234) := by decide
/-- `11111000` and three bytes. -/
theorem test_decode_litExt3 : decode (.stream [0b11111000#8, 0x56#8, 0x34#8, 0x12#8]) = .ok (.litExt3 0x123456) := by
  decide
/-- `11111100` and four bytes. -/
theorem test_decode_litExt4 : decode (.stream [0b11111100#8, 0x78#8, 0x56#8, 0x34#8, 0x12#8]) =
    .ok (.litExt4 0x12345678) := by decide
/-- `OOOLLL01 oooooooo`, O = 101, L = 010, o = 00000011: offset 0b10100000011. -/
theorem test_decode_copy1 : decode (.stream [0b10101001#8, 0b00000011#8]) = .ok (.copy1 2 0b10100000011) := by decide
/-- `LLLLLL10 oooooooo OOOOOOOO`, L = 63. -/
theorem test_decode_copy2 : decode (.stream [0b11111110#8, 0x34#8, 0x12#8]) = .ok (.copy2 63 0x1234) := by decide
/-- `LLLLLL11` and four offset bytes, L = 3. -/
theorem test_decode_copy4 : decode (.stream [0b00001111#8, 0x78#8, 0x56#8, 0x34#8, 0x12#8]) =
    .ok (.copy4 3 0x12345678) := by decide
/-- `x0` and `xx1`, the flag first. -/
theorem test_decode_flags : decode (.window [false, true]) = .ok .len3W2 ∧
    decode (.window [true, false, true]) = .ok .len3W3 := by decide
/-- A word with bit 0 set, the others ignored. -/
theorem test_decode_commands : decode (.hostWrite .sd 0 0xFFFFFFFF#32) = .ok .sdStart ∧
    decode (.hostWrite .lm 0 0x80000001#32) = .ok .lmStart := by decide
theorem test_decode_rejects : decode (.stream []) = .error .noTagByte ∧
    decode (.stream [0xFF#8, 1#8, 2#8, 3#8]) = .error (.headerCut .copy4) ∧ decode (.window []) = .error .noFlagBit ∧
    decode (.hostWrite .sd 0 0xFFFFFFFE#32) = .error .notACommand ∧
    decode (.hostWrite .sd 4 1#32) = .error .notACommand := by decide
theorem test_table_words : decodeTableWord 8 0x0C = some (.litShort 3) ∧ decodeTableWord 16 0xFFE1 = some (.copy1 0 2047) ∧
    decodeTableWord 40 0x010000000F = some (.copy4 3 0x01000000) ∧ decodeTableWord 3 1 = some .len3W3 ∧
    decodeTableWord 32 1 = some .sdStart := by decide

/-! ### States -/

/-- A BUSY SD at the start of a stream, its turn next. -/
def sdTest (bytes : List Byte) (len owed : Nat) : State :=
  { State.reset with
    sd := { SdRegs.reset with
      state := .busy
      streamLen := Word.ofNat len
      ulen := Word.ofNat owed
      bytesLeft := Word.ofNat owed }
    mem := Memory.writeBytes [] 0 bytes
    loan := some { lo := 0, hi := Word.ofNat len }
    agenda := [.sd] }

/-- The record of `00 61`, the prefix of the vectors of 95_test_vectors.md §2.2. -/
def letterA : SymRec :=
  { cls := .litShort, kind := .lit, tag := 0, width := 2, dst := 0, len := 1, off := 0, litStart := 1 }

/-- A record of a copy after the letter. -/
def copyA : SymRec := { cls := .copy1, kind := .copy, tag := 2, width := 2, dst := 1, len := 4, off := 1, litStart := 0 }

/-- The stream `00 61 01 01` of those two records (95_test_vectors.md V-SD-16). -/
def aaaaa : Memory := Memory.writeBytes [] 0 [0x00#8, 0x61#8, 0x01#8, 0x01#8]

/-- A BUSY SD after that prefix. -/
def copyTest (bytes : List Byte) (len owed : Nat) : State :=
  { State.reset with
    sd := { SdRegs.reset with
      state := .busy
      streamLen := Word.ofNat len
      ulen := Word.ofNat (owed + 1)
      cursor := 2
      bytesLeft := Word.ofNat owed
      dstPos := 1
      symCount := 1
      out := [letterA] }
    accepted := [letterA]
    mem := Memory.writeBytes [] 0 (0x00#8 :: 0x61#8 :: bytes)
    loan := some { lo := 0, hi := Word.ofNat len }
    agenda := [.sd] }

/-- A BUSY LM, its turn next. -/
def lmTest (w : List DWord) (nwords limit : Nat) : State :=
  { State.reset with
    lm := { LmRegs.reset 3 with
      state := .busy
      limit := BitVec.ofNat 8 limit
      nwords := BitVec.ofNat 8 nwords
      w := w }
    agenda := [.lm] }

/-- An SD that has finished a run of one symbol, and an LM that has finished. -/
def doneTest (ag : List Move) : State :=
  { State.reset with
    sd := { SdRegs.reset with
      state := .done
      result := .complete
      streamLen := 2
      ulen := 1
      cursor := 2
      dstPos := 1
      symCount := 1
      out := [letterA] }
    lm := { LmRegs.reset 3 with
      state := .done
      result := .ok
      limit := 1
      nwords := 1
      w := [1, 0, 0]
      mask := 1
      consumed := 3 }
    accepted := [letterA]
    mem := [(1, 0x61#8)]
    agenda := ag }

theorem params_legal : Config.params.legal := by simp [Params.legal, Config.params]

theorem idle_lm_inv : (LmRegs.reset Config.params.maxWords).Inv Config.params := by constructor <;> simp [LmRegs.reset]

theorem idle_sd_inv : SdRegs.reset.Inv Config.params := by
  constructor <;> simp [SdRegs.reset, firstTag, chained]

theorem letterA_sound : letterA.sound := by decide

theorem sdTest_inv (bytes : List Byte) (len owed : Nat) (h : 0 < (Word.ofNat len).toNat)
    (hm : ∀ c ∈ Memory.writeBytes [] 0 bytes, c.1 < 2 ^ 32) : (sdTest bytes len owed).Inv := by
  refine ⟨params_legal, Memory.writeBytes_wf [] (by decide) 0 bytes, hm, ?_, idle_lm_inv, Nat.zero_le _, List.nil_suffix,
    fun _ => rfl⟩
  exact ⟨(Word.ofNat len).isLt, BitVec.isLt _, (Word.ofNat owed).isLt, BitVec.isLt _,
    by show 0 + (Word.ofNat owed).toNat < 2 ^ 32; have := (Word.ofNat owed).isLt; omega, Nat.le_refl _, rfl,
    fun r hr => (by cases hr), rfl, fun h => (by cases h),
    fun _ => ⟨rfl, h, Nat.zero_le _, Nat.zero_add _, rfl⟩, fun h => (by cases h)⟩

theorem copyTest_inv (bytes : List Byte) (len owed : Nat) (h : 2 ≤ (Word.ofNat len).toNat) (ho : owed + 1 < 2 ^ 32)
    (hm : ∀ c ∈ Memory.writeBytes [] 0 (0x00#8 :: 0x61#8 :: bytes), c.1 < 2 ^ 32) : (copyTest bytes len owed).Inv := by
  have h1 : (Word.ofNat owed).toNat = owed := by rw [BitVec.toNat_ofNat]; exact Nat.mod_eq_of_lt (by omega)
  have h2 : (Word.ofNat (owed + 1)).toNat = owed + 1 := by rw [BitVec.toNat_ofNat]; exact Nat.mod_eq_of_lt (by omega)
  refine ⟨params_legal, Memory.writeBytes_wf [] (by decide) 0 _, hm, ?_, idle_lm_inv, Nat.zero_le _,
    ⟨[], rfl⟩, fun _ => rfl⟩
  refine ⟨(Word.ofNat len).isLt, BitVec.isLt _, (Word.ofNat (owed + 1)).isLt, BitVec.isLt _, ?_, Nat.le_refl 1, rfl,
    fun r hr => ?_, rfl, fun h => (by cases h), fun _ => ⟨rfl, ?_, h, ?_, rfl⟩, fun h => (by cases h)⟩
  · show 1 + (Word.ofNat owed).toNat < 2 ^ 32
    omega
  · rw [show r = letterA from List.mem_singleton.mp hr]
    exact letterA_sound
  · show 0 < (Word.ofNat len).toNat
    omega
  · show 1 + (Word.ofNat owed).toNat = (Word.ofNat (owed + 1)).toNat
    omega

theorem lmTest_inv (w : List DWord) (nwords limit : Nat) (h : w.length = 3) : (lmTest w nwords limit).Inv :=
  ⟨params_legal, reset_mem_wf, fun c hc => (by cases hc), idle_sd_inv,
    ⟨h, rfl, Nat.zero_le _, fun h => (by cases h), fun _ => rfl, fun h => (by cases h)⟩, Nat.zero_le _, List.nil_suffix,
    fun h => (by cases h)⟩

theorem doneTest_inv (ag : List Move) : (doneTest ag).Inv := by
  refine ⟨params_legal, (by decide : Memory.wf [(1, 0x61#8)]), fun c hc => ?_, ?_, ?_, Nat.zero_le _, ⟨[], rfl⟩,
    fun h => (by cases h)⟩
  · rw [show c = (1, 0x61#8) from List.mem_singleton.mp hc]
    exact (by decide : 1 < 2 ^ 32)
  · refine ⟨BitVec.isLt _, BitVec.isLt _, BitVec.isLt _, BitVec.isLt _, (by decide : 1 + 0 < 2 ^ 32), Nat.le_refl 1, rfl,
      fun r hr => ?_, rfl, fun h => (by cases h), fun h => (by cases h),
      fun _ => ⟨fun h => (by cases h), fun _ => rfl, fun h => (by cases h), fun h => absurd rfl h⟩⟩
    rw [show r = letterA from List.mem_singleton.mp hr]
    exact letterA_sound
  · exact ⟨rfl, rfl, (by decide : 3 ≤ 192), fun h => (by cases h), fun h => (by cases h),
      fun _ => ⟨fun h => (by cases h), fun h => absurd rfl h⟩⟩

/-- The step answers a next state with that property. -/
def nextIs (r : Result) (p : State → Bool) : Bool :=
  match r with
  | .next t => p t
  | .fault _ => false
  | .refused _ => false

/-- The SD's result, live registers and newest record (class, tag, width, dst, len, off, lit_start). -/
def sdIs (r : SdResult) (cursor owed dst count : Nat) (t : State) : Bool :=
  decide (t.sd.result = r) && decide (t.sd.cursor.toNat = cursor) && decide (t.sd.bytesLeft.toNat = owed) &&
    decide (t.sd.dstPos.toNat = dst) && decide (t.sd.symCount.toNat = count)

def lastIs (cls : TagClass) (tag w dst len off litStart : Nat) (t : State) : Bool :=
  match t.sd.out.getLast? with
  | none => false
  | some r => decide (r = ⟨cls, cls.kind, Word.ofNat tag, Word.ofNat w, Word.ofNat dst, Word.ofNat len, Word.ofNat off,
      Word.ofNat litStart⟩)

def lmIs (r : LmResult) (mask consumed : Nat) (t : State) : Bool :=
  decide (t.lm.state = .done) && decide (t.lm.result = r) && decide (t.lm.mask.toNat = mask) &&
    decide (t.lm.consumed.toNat = consumed)

/-! ### One step, results from 95_test_vectors.md -/

/-- V-SRC-1. -/
theorem test_litShort_accepted : nextIs (step (sdTest [0x04#8, 0xAA#8, 0xBB#8] 3 2))
    (fun t => sdIs .none 3 0 2 1 t && lastIs .litShort 0 3 0 2 0 1 t) = true := by decide
/-- V-SD-10: OVERRUN before the payload bound. -/
theorem test_litShort_overrun : nextIs (step (sdTest [0x0C#8, 0x01#8] 2 2)) (sdIs .overrun 0 2 0 0) = true := by decide
/-- V-SD-2. -/
theorem test_litMid_accepted : nextIs (step (sdTest [0x10#8, 0x61#8, 0x62#8, 0x63#8, 0x64#8, 0x65#8] 6 5))
    (fun t => sdIs .none 6 0 5 1 t && lastIs .litMid 0 6 0 5 0 1 t) = true := by decide
/-- V-SD-4. -/
theorem test_litExt1_accepted : nextIs (step (sdTest [0xF0#8, 0x00#8, 0x7A#8] 3 1))
    (fun t => sdIs .none 3 0 1 1 t && lastIs .litExt1 0 3 0 1 0 2 t) = true := by decide
/-- V-SD-11. -/
theorem test_litExt1_cut : nextIs (step (sdTest [0xF0#8] 1 1)) (sdIs .truncated 0 1 0 0) = true := by decide
/-- V-SD-5. -/
theorem test_litExt2_accepted : nextIs (step (sdTest [0xF4#8, 0x01#8, 0x00#8, 0x78#8, 0x79#8] 5 2))
    (fun t => sdIs .none 5 0 2 1 t && lastIs .litExt2 0 5 0 2 0 3 t) = true := by decide
/-- V-SD-12. -/
theorem test_litExt2_payload_missing : nextIs (step (sdTest [0xF4#8, 0x00#8, 0x01#8] 3 300))
    (sdIs .truncated 0 300 0 0) = true := by decide
/-- V-SD-6. -/
theorem test_litExt3_accepted : nextIs (step (sdTest [0xF8#8, 0x02#8, 0x00#8, 0x00#8, 0x61#8, 0x62#8, 0x63#8] 7 3))
    (fun t => sdIs .none 7 0 3 1 t && lastIs .litExt3 0 7 0 3 0 4 t) = true := by decide
/-- V-SD-7. -/
theorem test_litExt4_accepted : nextIs (step (sdTest [0xFC#8, 0x00#8, 0x00#8, 0x00#8, 0x00#8, 0x41#8] 6 1))
    (fun t => sdIs .none 6 0 1 1 t && lastIs .litExt4 0 6 0 1 0 5 t) = true := by decide
/-- V-SD-14: a length of `2^32`. -/
theorem test_litExt4_longest : nextIs (step (sdTest [0xFC#8, 0xFF#8, 0xFF#8, 0xFF#8, 0xFF#8, 0x41#8] 6 0xFFFFFFFF))
    (sdIs .overrun 0 0xFFFFFFFF 0 0) = true := by decide
/-- V-SD-16, its second symbol. -/
theorem test_copy1_accepted : nextIs (step (copyTest [0x01#8, 0x01#8] 4 4))
    (fun t => sdIs .none 4 0 5 2 t && lastIs .copy1 2 2 1 4 1 0 t) = true := by decide
/-- V-SD-27: OVERRUN before BAD_OFFSET. -/
theorem test_copy1_overrun_first : nextIs (step (copyTest [0x1D#8, 0x00#8] 4 4)) (sdIs .overrun 2 4 1 1) = true := by
  decide
/-- V-SD-19: a copy of length 1. -/
theorem test_copy2_accepted : nextIs (step (copyTest [0x02#8, 0x01#8, 0x00#8] 5 1))
    (fun t => sdIs .none 5 0 2 2 t && lastIs .copy2 2 3 1 1 1 0 t) = true := by decide
/-- V-SD-29: the header before the length. -/
theorem test_copy2_cut : nextIs (step (copyTest [0xFE#8, 0x01#8] 4 4)) (sdIs .truncated 2 4 1 1) = true := by decide
/-- V-SD-18. -/
theorem test_copy4_accepted : nextIs (step (copyTest [0x0F#8, 0x01#8, 0x00#8, 0x00#8, 0x00#8] 7 4))
    (fun t => sdIs .none 7 0 5 2 t && lastIs .copy4 2 5 1 4 1 0 t) = true := by decide
/-- V-SD-25: a little-endian offset beyond the output. -/
theorem test_copy4_badOffset : nextIs (step (copyTest [0x0F#8, 0x00#8, 0x00#8, 0x00#8, 0x01#8] 7 4))
    (sdIs .badOffset 2 4 1 1) = true := by decide
/-- V-SD-31 and V-SD-34: COMPLETE and END_OF_STREAM read no byte. -/
theorem test_ends_of_a_run : nextIs (step (sdTest [0x04#8, 0xAA#8, 0xBB#8] 3 0)) (sdIs .complete 0 0 0 0) = true ∧
    nextIs (step (copyTest [] 2 2)) (sdIs .endOfStream 2 2 1 1) = true := by decide
/-- V-LM-1 and the overhang of V-LM-11. -/
theorem test_len3W2 : nextIs (exec .len3W2 (lmTest [0, 0, 0] 1 1))
    (fun t => decide (t.lm.work = { k := 1, p := 2, m := 0 })) = true := by decide
theorem test_len3W3 : nextIs (exec .len3W3 (lmTest [1, 0, 0] 1 1))
    (fun t => decide (t.lm.work = { k := 1, p := 3, m := 1 })) = true := by decide
/-- V-LM-4 and V-LM-5. -/
theorem test_lm_order_of_bits : nextIs (step (lmTest [0x9, 0, 0] 1 4)) (lmIs .ok 0x3 10) = true ∧
    nextIs (step (lmTest [0x24, 0, 0] 1 4)) (lmIs .ok 0x6 10) = true := by decide
/-- V-LM-10 and V-LM-11. -/
theorem test_lm_word_edges : nextIs (step (lmTest [0, 1, 0] 2 34)) (lmIs .ok 0x100000000 69) = true ∧
    nextIs (step (lmTest [0x8000000000000001, 0, 0] 1 32)) (lmIs .ok 0x80000001 66) = true := by decide
/-- V-LM-7 and V-LM-23. -/
theorem test_lm_errors : nextIs (step (lmTest [0, 0, 0] 1 33)) (lmIs .errInsufficient 0 0) = true ∧
    nextIs (step (lmTest [0, 0, 0] 3 65)) (lmIs .errContract 0 0) = true := by decide
/-- V-SD-33, and the status word of the table of 95_test_vectors.md §0. -/
theorem test_sdStart_contract : nextIs (exec .sdStart State.reset)
    (fun t => sdIs .errContract 0 0 0 0 t && decide (readReg t .sd 0x04 = 0x62)) = true := by decide
theorem test_sdStart_restart : nextIs (exec .sdStart (doneTest []))
    (fun t => sdIs .none 0 1 0 0 t && decide (t.sd.state = .busy) && decide (t.sd.out = [])) = true := by decide
theorem test_lmStart : nextIs (exec .lmStart (doneTest []))
    (fun t => decide (readReg t .lm 0x04 = 0x01) && decide (t.lm.mask = 1) && decide (t.lm.consumed = 3)) = true := by
  decide
/-- The very next step runs the word placed, from the reset state. -/
theorem test_withFetchWord : nextIs (step (State.reset.withFetchWord 8 0xEC)) (fun t => sdIs .none 61 0 60 1 t) = true ∧
    nextIs (step (State.reset.withFetchWord 16 0x0001)) (sdIs .badOffset 0 4 0 0) = true ∧
    nextIs (step (State.reset.withFetchWord 3 1)) (lmIs .ok 1 3) = true ∧
    nextIs (step (State.reset.withFetchWord 32 1)) (sdIs .errContract 0 0 0 0) = true := by decide
/-- A stream byte by platform address, at its two ends and past them. -/
theorem test_fillBus : locateStream { Config.params with streamBase := 0x1000, curW := 4 } 0x1000 = some 0 ∧
    locateStream { Config.params with streamBase := 0x1000, curW := 4 } 0x100F = some 15 ∧
    locateStream { Config.params with streamBase := 0x1000, curW := 4 } 0x1010 = none ∧
    locateStream { Config.params with streamBase := 0x1000, curW := 4 } 0x0FFF = none := by decide
theorem test_kind_codes : SymKind.lit.code = 0 ∧ SymKind.copy.code = 1 := by decide
/-- Positions resolved in the output of V-SD-16's stream, past its end, and in records no SD emits (log entry 17). -/
theorem test_byteAt : byteAt Config.params aaaaa [letterA, copyA] 0 = some 0x61#8 ∧
    byteAt Config.params aaaaa [letterA, copyA] 4 = some 0x61#8 ∧ byteAt Config.params aaaaa [letterA, copyA] 5 = none ∧
    byteAt Config.params aaaaa [copyA] 1 = none := by decide
/-- The output of V-SD-16's stream, and sequences no SD emits from it: a record of length 0, another kind, a payload at
another place, another width, a copy from before the output, tags or output positions that do not follow, a record the
stream's bytes do not hold (41_symbol_expand.md R164, 93_implementation_defined.md I14). -/
theorem test_expand : expand Config.params aaaaa [letterA, copyA] = some (List.replicate 5 0x61#8) := by decide
theorem test_expand_refuses : ∀ recs ∈ [
    [{ letterA with len := 0 }], [{ letterA with kind := .copy }], [{ letterA with litStart := 0 }],
    [{ letterA with width := 1 }], [letterA, { copyA with off := 2 }], [letterA, { copyA with off := 0 }],
    [letterA, { copyA with tag := 3 }], [letterA, { copyA with dst := 0 }], [copyA], [letterA, letterA],
    [letterA, { copyA with len := 5 }], [letterA, { copyA with cls := .copy2 }]],
    expand Config.params aaaaa recs = none := by decide
/-- What is observed of a run of `00 61` with ULEN 1 (40_symbol_decoder.md R126), and of no run: one not over, one that a
reset aborts, no START (00_scope.md R14, 70_reset_and_hazards.md R253). -/
theorem test_sdRunObservation : sdRunObservation 2 (doneTest [.write (.reg .sd 0) 32 1, .sd, .sd]) =
      some { result := .complete, cursor := 2, bytesLeft := 0, dstPos := 1, symCount := 1, records := [letterA] } ∧
    sdRunObservation 1 (doneTest [.write (.reg .sd 0) 32 1, .sd, .sd]) = none ∧
    sdRunObservation 3 (doneTest [.write (.reg .sd 0) 32 1, .sd, .reset, .sd]) = none ∧
    sdRunObservation 2 (doneTest [.write (.reg .sd 0) 32 0, .sd, .sd]) = none := by decide
/-- The window `1` with LIMIT 1 (42_len3_mask.md R181), and a START with NWORDS above MAX_WORDS (R178). -/
theorem test_lmRunObservation : lmRunObservation 1 (doneTest [.write (.reg .lm 0) 32 1, .lm]) =
      some { result := .ok, mask := 1, consumed := 3 } ∧
    lmRunObservation 1 { doneTest [.write (.reg .lm 0) 32 1, .lm] with lm := { (doneTest []).lm with nwords := 4 } } =
      some { result := .errContract, mask := 0, consumed := 0 } := by decide
/-- V-SD-22's output, and position 7 resolved (95_test_vectors.md §2.4). -/
theorem test_expand_overlap : expandCopy 2 6 [0x61#8, 0x62#8] =
    [0x61#8, 0x62#8, 0x61#8, 0x62#8, 0x61#8, 0x62#8, 0x61#8, 0x62#8] := by decide

/-! ### Witnesses: for each obligation with hypotheses, values that meet all of them together; one for each clause, at
boundary values. -/

theorem witness_DecodeOfEncodeIsTheInstruction : (Instr.litMid 4).wellFormed = true ∧
    (Instr.litMid 59).wellFormed = true ∧ (Instr.copy4 63 0xFFFFFFFF).wellFormed = true := by decide
theorem witness_DecodedSymbolEncodesToTheBytesRead :
    decodeStream [0xE1#8, 0xFF#8, 0x00#8] = .ok (.copy1 0 2047, [0x00#8]) := by decide
theorem witness_TagBytesAreClassifiedByTheTable : (0xFD#8).toNat % 4 = 1 ∧ (0x02#8).toNat % 4 = 2 ∧
    (0xFF#8).toNat % 4 = 3 ∧ ((0x0C#8).toNat % 4 = 0 ∧ (0x0C#8).toNat < 16) ∧
    ((0x10#8).toNat % 4 = 0 ∧ 16 ≤ (0x10#8).toNat ∧ (0x10#8).toNat / 4 ≤ 59) ∧ (0xEC#8).toNat / 4 ≤ 59 ∧
    (0xF0#8).toNat = 0xF0 ∧ (0xF4#8).toNat = 0xF4 ∧ (0xF8#8).toNat = 0xF8 ∧ (0xFC#8).toNat = 0xFC := by decide
theorem witness_OnlyAMissingExtensionByteStopsDecoding : ([] : List Byte).length < (tagClass 0xF0#8).nx ∧
    (tagClass 0xFC#8).nx ≤ [0#8, 0#8, 0#8, 0#8].length ∧ (tagClass 0x00#8).nx ≤ ([] : List Byte).length := by decide
theorem witness_CopyFieldsAreReadFromTheirBytes : (0xFD#8).toNat % 4 = 1 ∧ (0xFE#8).toNat % 4 = 2 ∧
    (0x03#8).toNat % 4 = 3 := by decide
theorem witness_LiteralLengthsAreReadFromTheirBytes : ((0x00#8).toNat % 4 = 0 ∧ (0x00#8).toNat / 4 ≤ 59) ∧
    ((0xEC#8).toNat % 4 = 0 ∧ (0xEC#8).toNat / 4 ≤ 59) := by decide

/-- The header ends at the stream's last byte. -/
theorem witness_StepRunsTheSymbolAtTheCursor : ∃ s : State, s.agenda = .sd :: [] ∧ s.sd.state = .busy ∧
    s.sd.bytesLeft ≠ 0 ∧ (Instr.copy1 0 1).wellFormed = true ∧ (Instr.copy1 0 1).tagClass? = some .copy1 ∧
    s.sd.cursor.toNat + (Instr.copy1 0 1).header.length ≤ s.sd.streamLen.toNat ∧
    ∀ k < (Instr.copy1 0 1).header.length,
      s.memRead (s.sd.cursor.toNat + k) = (Instr.copy1 0 1).header.getD k 0 :=
  ⟨copyTest [0x01#8, 0x01#8] 4 4, rfl, rfl, by decide, by decide, rfl, by decide, by decide⟩

/-- The banks lie side by side. -/
def busTest (ag : List Move) : State :=
  { doneTest ag with params := { Config.params with sdBase := 0, lmBase := 128 } }

theorem witness_StepRunsTheCommandWritten : (0xFFFFFFFF#32).getLsbD 0 = true ∧
    (busTest [.write (.bus 0) 32 1]).agenda = [.write (.bus (busTest []).params.sdBase) 32 1] ∧
    (busTest [.write (.bus 128) 32 1]).agenda = [.write (.bus (busTest []).params.lmBase) 32 1] ∧
    ((busTest []).params.lmBase < (busTest []).params.sdBase ∨
      (busTest []).params.sdBase + 128 ≤ (busTest []).params.lmBase) := by decide

theorem witness_LmTurnRunsTheFlagsInOrder : ∃ s : State, s.agenda = .lm :: [] ∧ s.lm.state = .busy ∧
    s.lm.limit.toNat ≤ 64 ∧ s.lm.nwords.toNat ≤ s.params.maxWords ∧ s.lm.work.p < windowBits s.lm :=
  ⟨lmTest [0, 0, 0] 3 64, rfl, rfl, by decide, by decide, by decide⟩
theorem witness_CompletionIsCheckedBeforeAnyByte : ∃ s : State, s.agenda = .sd :: [] ∧ s.sd.state = .busy ∧
    s.sd.bytesLeft = 0 := ⟨sdTest [0x04#8] 1 0, rfl, rfl, rfl⟩
theorem witness_MissingHeaderBytesStopTheRun : (∃ s : State, s.agenda = .sd :: [] ∧ s.sd.state = .busy ∧
      s.sd.bytesLeft ≠ 0 ∧ s.sd.streamLen.toNat ≤ s.sd.cursor.toNat) ∧
    ∃ s : State, s.agenda = .sd :: [] ∧ s.sd.state = .busy ∧ s.sd.bytesLeft ≠ 0 ∧
      s.sd.cursor.toNat < s.sd.streamLen.toNat ∧
      s.sd.streamLen.toNat < s.sd.cursor.toNat + 1 + (tagClass (s.memRead s.sd.cursor.toNat)).nx :=
  ⟨⟨copyTest [] 2 2, rfl, rfl, by decide, by decide⟩,
    ⟨sdTest [0xF0#8] 1 1, rfl, rfl, by decide, by decide, by decide⟩⟩
theorem witness_AUnitThatIsNotBusyTakesNoStep : ((doneTest [.sd]).agenda = .sd :: [] ∧ (doneTest [.sd]).sd.state ≠ .busy) ∧
    (doneTest [.lm]).agenda = .lm :: [] ∧ (doneTest [.lm]).lm.state ≠ .busy := by decide

/-- The three clauses, the last with a payload that ends at the stream's last byte and pays all that is owed. -/
theorem witness_LitShortStopsOrIsCommitted : (∃ s : State, s.Inv ∧ s.sd.bytesLeft.toNat < (3#2).toNat + 1) ∧
    (∃ s : State, s.Inv ∧ (3#2).toNat + 1 ≤ s.sd.bytesLeft.toNat ∧
      s.sd.streamLen.toNat < s.sd.cursor.toNat + 1 + ((3#2).toNat + 1)) ∧
    ∃ s : State, s.Inv ∧ (3#2).toNat + 1 ≤ s.sd.bytesLeft.toNat ∧
      s.sd.cursor.toNat + 1 + ((3#2).toNat + 1) ≤ s.sd.streamLen.toNat ∧ s.port.length < s.params.sinkDepth :=
  ⟨⟨sdTest [0x0C#8] 5 3, sdTest_inv _ _ _ (by decide) (by decide), by decide⟩,
    ⟨sdTest [0x0C#8] 4 4, sdTest_inv _ _ _ (by decide) (by decide), by decide, by decide⟩,
    ⟨sdTest [0x0C#8] 5 4, sdTest_inv _ _ _ (by decide) (by decide), by decide, by decide, by decide⟩⟩
/-- All five classes, with the smallest or largest field, and with the longest length a 32-bit register can owe. -/
theorem witness_LongerLiteralsAreAccepted : ∃ s : State, s.Inv ∧ s.port.length < s.params.sinkDepth ∧
    ∀ x ∈ [(TagClass.litMid, (59#6).toNat), (.litExt1, (0#8).toNat), (.litExt2, (0xFFFF#16).toNat),
      (.litExt3, (0xFFFFFF#24).toNat), (.litExt4, (0xFFFFFFF9#32).toNat)], x.2 + 1 ≤ s.sd.bytesLeft.toNat ∧
      s.sd.cursor.toNat + 1 + x.1.nx + (x.2 + 1) ≤ s.sd.streamLen.toNat :=
  ⟨sdTest [] 0xFFFFFFFF 0xFFFFFFFF, sdTest_inv _ _ _ (by decide) (by decide), by decide, by decide⟩
/-- The four clauses: a missing byte; one byte too few owed; offset 0 and one beyond the output; the whole output. -/
theorem witness_Copy1StopsOrIsCommitted :
    (∃ s : State, s.Inv ∧ s.sd.streamLen.toNat < s.sd.cursor.toNat + 2) ∧
    (∃ s : State, s.Inv ∧ s.sd.cursor.toNat + 2 ≤ s.sd.streamLen.toNat ∧ s.sd.bytesLeft.toNat < (7#3).toNat + 4) ∧
    ∃ s : State, s.Inv ∧ s.sd.cursor.toNat + 2 ≤ s.sd.streamLen.toNat ∧ (7#3).toNat + 4 ≤ s.sd.bytesLeft.toNat ∧
      (0#11 = 0 ∨ s.sd.dstPos.toNat < (0#11).toNat) ∧ (2#11 = 0 ∨ s.sd.dstPos.toNat < (2#11).toNat) ∧
      1 ≤ (1#11).toNat ∧ (1#11).toNat ≤ s.sd.dstPos.toNat ∧ s.port.length < s.params.sinkDepth :=
  ⟨⟨copyTest [0x1D#8] 3 11, copyTest_inv _ _ _ (by decide) (by decide) (by decide), by decide⟩,
    ⟨copyTest [0x1D#8] 4 10, copyTest_inv _ _ _ (by decide) (by decide) (by decide), by decide, by decide⟩,
    ⟨copyTest [0x1D#8, 0x01#8] 4 11, copyTest_inv _ _ _ (by decide) (by decide) (by decide), by decide, by decide,
      by decide, by decide, by decide, by decide, by decide⟩⟩
theorem witness_Copy2AndCopy4StopOrAreCommitted :
    (∃ s : State, s.Inv ∧ s.sd.streamLen.toNat < s.sd.cursor.toNat + 1 + TagClass.copy2.nx ∧
      s.sd.streamLen.toNat < s.sd.cursor.toNat + 1 + TagClass.copy4.nx) ∧
    (∃ s : State, s.Inv ∧ s.sd.cursor.toNat + 1 + TagClass.copy2.nx ≤ s.sd.streamLen.toNat ∧
      s.sd.cursor.toNat + 1 + TagClass.copy4.nx ≤ s.sd.streamLen.toNat ∧ s.sd.bytesLeft.toNat < (63#6).toNat + 1) ∧
    ∃ s : State, s.Inv ∧ s.sd.cursor.toNat + 1 + TagClass.copy2.nx ≤ s.sd.streamLen.toNat ∧
      s.sd.cursor.toNat + 1 + TagClass.copy4.nx ≤ s.sd.streamLen.toNat ∧ (63#6).toNat + 1 ≤ s.sd.bytesLeft.toNat ∧
      (0 = 0 ∨ s.sd.dstPos.toNat < 0) ∧ (2 = 0 ∨ s.sd.dstPos.toNat < 2) ∧ 1 ≤ 1 ∧ 1 ≤ s.sd.dstPos.toNat ∧
      s.port.length < s.params.sinkDepth :=
  ⟨⟨copyTest [0xFE#8] 4 64, copyTest_inv _ _ _ (by decide) (by decide) (by decide), by decide, by decide⟩,
    ⟨copyTest [0xFE#8] 7 63, copyTest_inv _ _ _ (by decide) (by decide) (by decide), by decide, by decide, by decide⟩,
    ⟨copyTest [0xFF#8, 0x01#8] 7 64, copyTest_inv _ _ _ (by decide) (by decide) (by decide), by decide, by decide,
      by decide, by decide, by decide, by decide, by decide, by decide⟩⟩

/-- LIT_EXT1 with its header there: 257 bytes against 256 owed, and against a stream one byte short, and just right. -/
theorem witness_LiteralCheckInItsOrder : (Instr.litExt1 0xFF).tagClass? = some .litExt1 ∧ TagClass.litExt1.kind = .lit ∧
    (∃ s : State, s.sd.cursor.toNat + 1 + TagClass.litExt1.nx ≤ s.sd.streamLen.toNat ∧
      s.sd.bytesLeft.toNat < blen (.litExt1 0xFF)) ∧
    (∃ s : State, s.sd.cursor.toNat + 1 + TagClass.litExt1.nx ≤ s.sd.streamLen.toNat ∧
      blen (.litExt1 0xFF) ≤ s.sd.bytesLeft.toNat ∧
      s.sd.streamLen.toNat < s.sd.cursor.toNat + 1 + TagClass.litExt1.nx + blen (.litExt1 0xFF)) ∧
    ∃ s : State, s.sd.cursor.toNat + 1 + TagClass.litExt1.nx ≤ s.sd.streamLen.toNat ∧
      blen (.litExt1 0xFF) ≤ s.sd.bytesLeft.toNat ∧
      s.sd.cursor.toNat + 1 + TagClass.litExt1.nx + blen (.litExt1 0xFF) ≤ s.sd.streamLen.toNat ∧
      s.port.length < s.params.sinkDepth :=
  ⟨rfl, rfl, ⟨sdTest [] 2 255, by decide, by decide⟩, ⟨sdTest [] 257 256, by decide, by decide, by decide⟩,
    ⟨sdTest [] 258 256, by decide, by decide, by decide, by decide⟩⟩
/-- COPY1 of 4: too few bytes owed; offset 0; offset one beyond the output; offset the whole output. -/
theorem witness_CopyCheckInItsOrder : (Instr.copy1 0 1).tagClass? = some .copy1 ∧
    (∃ s : State, s.sd.cursor.toNat + 1 + TagClass.copy1.nx ≤ s.sd.streamLen.toNat ∧
      s.sd.bytesLeft.toNat < blen (.copy1 0 1)) ∧
    ∃ s : State, s.sd.cursor.toNat + 1 + TagClass.copy1.nx ≤ s.sd.streamLen.toNat ∧
      blen (.copy1 0 1) ≤ s.sd.bytesLeft.toNat ∧ ((0#11).toNat = 0 ∨ s.sd.dstPos.toNat < (0#11).toNat) ∧
      ((2#11).toNat = 0 ∨ s.sd.dstPos.toNat < (2#11).toNat) ∧ 1 ≤ (1#11).toNat ∧ (1#11).toNat ≤ s.sd.dstPos.toNat ∧
      s.port.length < s.params.sinkDepth :=
  ⟨rfl, ⟨copyTest [] 4 3, by decide, by decide⟩,
    ⟨copyTest [] 4 4, by decide, by decide, by decide, by decide, by decide, by decide, by decide⟩⟩
theorem witness_ExtensionBytesAreCheckedFirst : ∃ s : State, (Instr.copy4 63 0).tagClass? = some .copy4 ∧
    1 ≤ TagClass.copy4.nx ∧ s.sd.streamLen.toNat < s.sd.cursor.toNat + 1 + TagClass.copy4.nx :=
  ⟨sdTest [] 4 1, rfl, by decide, by decide⟩

/-- A port with one record, for a SINK of some depth. -/
def portTest (depth : Nat) (ag : List Move) : State :=
  { sdTest [0x04#8, 0xAA#8, 0xBB#8] 3 2 with
    params := { Config.params with sinkDepth := depth }
    port := [letterA]
    agenda := ag }

theorem witness_AFullPortHoldsTheSymbol : (portTest 1 []).params.sinkDepth ≤ (portTest 1 []).port.length ∧
    ∃ t r, exec (.litShort 1) { portTest 1 [] with params := { (portTest 1 []).params with sinkDepth := 2 } } = .next t ∧
      t.sd.out = (portTest 1 []).sd.out ++ [r] := ⟨by decide, _, _, rfl, rfl⟩

theorem witness_ASymbolStopsHoldsOrCommits : ∃ s : State, s.Inv ∧ (Instr.litShort 1).tagClass? = some .litShort ∧
    s.sd.state = .busy ∧ s.sd.cursor.toNat < s.sd.streamLen.toNat :=
  ⟨sdTest [0x04#8] 1 2, sdTest_inv _ _ _ (by decide) (by decide), rfl, rfl, by decide⟩

/-- A finished run with a literal and a copy. -/
def twoTest : State :=
  { doneTest [] with
    sd := { (doneTest []).sd with
      ulen := 5
      streamLen := 4
      cursor := 4
      dstPos := 5
      symCount := 2
      out := [letterA, copyA] }
    accepted := [letterA, copyA]
    mem := aaaaa
    loan := some { lo := 0, hi := 4 } }

theorem twoTest_inv : twoTest.Inv := by
  refine ⟨params_legal, (by decide : aaaaa.wf), (by decide : ∀ c ∈ aaaaa, c.1 < 2 ^ 32), ?_, (doneTest_inv []).lm, Nat.zero_le _,
    ⟨[], rfl⟩, fun h => (by cases h)⟩
  refine ⟨BitVec.isLt _, BitVec.isLt _, BitVec.isLt _, BitVec.isLt _, (by decide : 5 + 0 < 2 ^ 32),
    (by decide : 2 ≤ 5), rfl, fun r hr => ?_, rfl, fun h => (by cases h), fun h => (by cases h),
    fun _ => ⟨fun h => (by cases h), fun _ => rfl, fun h => (by cases h), fun h => absurd rfl h⟩⟩
  have hr' : r = letterA ∨ r = copyA := by
    rcases List.mem_cons.mp hr with h | h
    · exact .inl h
    · exact .inr (List.mem_singleton.mp h)
  rcases hr' with rfl | rfl <;> decide

theorem twoTest_emitted : twoTest.Emitted := by
  refine ⟨fun _ => by decide, fun l h => ?_⟩
  injection h with h
  subst h
  decide

theorem witness_LegacyOffsetTellsTheKind : twoTest.Inv ∧ (letterA ∈ twoTest.sd.out ∧ letterA.kind = .lit) ∧
    copyA ∈ twoTest.sd.out ∧ copyA.kind = .copy := ⟨twoTest_inv, by decide, by decide, by decide⟩

theorem witness_Len3FlagsPushOneMaskBit : ∃ s : State, s.lm.work.k < 64 ∧ s.lm.work.k = 63 :=
  ⟨{ State.reset with lm := { LmRegs.reset 3 with work := { k := 63, p := 189, m := 0 } } }, by decide, rfl⟩
theorem witness_LmTurnComputesTheMask : (∃ s : State, s.Inv ∧ s.agenda = .lm :: [] ∧ s.lm.state = .busy ∧
      s.lm.limit.toNat ≤ 64 ∧ s.lm.nwords.toNat ≤ s.params.maxWords ∧ flagsInWindow s.lm) ∧
    ∃ s : State, s.Inv ∧ s.agenda = .lm :: [] ∧ s.lm.state = .busy ∧ s.lm.limit.toNat ≤ 64 ∧
      s.lm.nwords.toNat ≤ s.params.maxWords ∧ ¬ flagsInWindow s.lm :=
  ⟨⟨lmTest [0x8000000000000001, 0, 0] 1 1, lmTest_inv _ _ _ rfl, rfl, rfl, by decide, by decide,
      by unfold flagsInWindow; decide⟩,
    ⟨lmTest [0, 0, 0] 0 1, lmTest_inv _ _ _ rfl, rfl, rfl, by decide, by decide, by unfold flagsInWindow; decide⟩⟩
theorem witness_LmContractErrorReadsNoWord : (∃ s : State, s.agenda = .lm :: [] ∧ s.lm.state = .busy ∧
      (64 < s.lm.limit.toNat ∨ s.params.maxWords < s.lm.nwords.toNat) ∧ s.lm.limit.toNat = 65) ∧
    ∃ s : State, s.agenda = .lm :: [] ∧ s.lm.state = .busy ∧
      (64 < s.lm.limit.toNat ∨ s.params.maxWords < s.lm.nwords.toNat) ∧ s.lm.nwords.toNat = 4 :=
  ⟨⟨lmTest [0, 0, 0] 0 65, rfl, rfl, by decide, by decide⟩, ⟨lmTest [0, 0, 0] 4 1, rfl, rfl, by decide, by decide⟩⟩
/-- V-LM-12's word with LIMIT 1, and LIMIT 64 of V-LM-8's window. -/
theorem witness_Len3BitCost : ∃ s t : State, s.Inv ∧ s.agenda = .lm :: [] ∧ s.lm.state = .busy ∧ step s = .next t ∧
    t.lm.result = .ok := ⟨lmTest [1, 0, 0] 1 1, _, lmTest_inv _ _ _ rfl, rfl, rfl, rfl, rfl⟩
theorem witness_Len3WordsThatSuffice : ∃ s t : State, s.Inv ∧ s.agenda = .lm :: [] ∧ s.lm.state = .busy ∧
    step s = .next t ∧ 1 ≤ s.lm.limit.toNat ∧ s.lm.limit.toNat ≤ 64 ∧ s.lm.nwords.toNat ≤ s.params.maxWords ∧
    3 * s.lm.limit.toNat - 2 ≤ 64 * s.lm.nwords.toNat ∧ t.lm.result = .ok :=
  ⟨lmTest [0x9, 0, 0] 1 2, _, lmTest_inv _ _ _ rfl, rfl, rfl, rfl, by decide, by decide, by decide, by decide, rfl⟩
theorem witness_Len3IgnoresWordsBeyondNwords : ∃ (s t : State) (ws : List DWord),
    (∀ j < s.lm.nwords.toNat, ws.getD j 0 = s.lm.w.getD j 0) ∧ ws ≠ s.lm.w ∧ s.agenda = .lm :: [] ∧
    step s = .next t := ⟨lmTest [1, 0, 0] 1 1, _, [1, 5, 7], by decide, by decide, rfl, rfl⟩
/-- Both clauses: no flag beyond no words; and LIMIT 2 of V-LM-3. -/
theorem witness_Len3AgreesWithTheStringForm : (∃ s t : State, s.Inv ∧ s.agenda = .lm :: [] ∧ s.lm.state = .busy ∧
      step s = .next t ∧ s.lm.limit.toNat ≤ 64 ∧ s.lm.nwords.toNat ≤ s.params.maxWords ∧
      len3MaskString (toBitsequence (s.lm.w.take s.lm.nwords.toNat)) s.lm.limit.toNat = none) ∧
    ∃ s t : State, s.Inv ∧ s.agenda = .lm :: [] ∧ s.lm.state = .busy ∧ step s = .next t ∧ s.lm.limit.toNat ≤ 64 ∧
      s.lm.nwords.toNat ≤ s.params.maxWords ∧
      len3MaskString (toBitsequence (s.lm.w.take s.lm.nwords.toNat)) s.lm.limit.toNat = some ([false, true], 5) :=
  ⟨⟨lmTest [0, 0, 0] 0 1, _, lmTest_inv _ _ _ rfl, rfl, rfl, rfl, by decide, by decide, by decide⟩,
    ⟨lmTest [1, 0, 0] 1 2, _, lmTest_inv _ _ _ rfl, rfl, rfl, rfl, by decide, by decide, by decide⟩⟩

theorem witness_SdStartBeginsARun : (∃ s : State, s.sd.state ≠ .busy ∧ s.sd.startCursor.toNat < s.sd.streamLen.toNat) ∧
    ∃ s : State, s.sd.state ≠ .busy ∧ s.sd.streamLen.toNat ≤ s.sd.startCursor.toNat :=
  ⟨⟨doneTest [], by decide, by decide⟩, ⟨State.reset, by decide, by decide⟩⟩
theorem witness_LmStartBeginsARun : (doneTest []).lm.state ≠ .busy := by decide
theorem witness_CtrlWritesAreDecidedByBitZero : (0xFFFFFFFE#32).getLsbD 0 = false ∧
    (0x00000001#32).getLsbD 0 = (0xFFFFFFFF#32).getLsbD 0 ∧
    (doneTest [wr .sdCtrl 0xFFFFFFFE]).agenda = wr .sdCtrl 0xFFFFFFFE :: [] ∧
    (doneTest [wr .lmCtrl 0xFFFFFFFE]).agenda = wr .lmCtrl 0xFFFFFFFE :: [] := by decide

/-- Both units BUSY. -/
def bothBusy (ag : List Move) : State :=
  { sdTest [0x04#8, 0xAA#8, 0xBB#8] 3 2 with
    lm := (lmTest [1, 0, 0] 1 1).lm
    agenda := ag }

theorem witness_ConfigurationIsLockedWhileBusy : (0 < 128 ∧ 0 % 4 = 0 ∧ 0x7C < 128 ∧ 0x7C % 4 = 0) ∧
    (bothBusy [.write (.reg .sd 0) 32 1]).agenda = .write (.reg .sd 0) 32 1 :: [] ∧ (bothBusy []).sd.state = .busy ∧
    (bothBusy [.write (.reg .lm 0x7C) 32 1]).agenda = .write (.reg .lm 0x7C) 32 1 :: [] ∧
    (bothBusy []).lm.state = .busy := by decide
theorem witness_ConfigurationWritesStoreTheirField : (∀ ag, (doneTest ag).Inv) ∧ (∀ ag, (doneTest ag).sd.state ≠ .busy) ∧
    (∀ ag, (doneTest ag).lm.state ≠ .busy) ∧
    (∀ r : HostReg, (doneTest [wr r 0xFFFFFFFF]).agenda = wr r 0xFFFFFFFF :: []) ∧
    -- the other unit BUSY
    (∃ s : State, s.Inv ∧ s.sd.state ≠ .busy ∧ s.lm.state = .busy ∧ s.agenda = wr .sdUlen 5 :: []) ∧
    ∃ s : State, s.Inv ∧ s.lm.state ≠ .busy ∧ s.sd.state = .busy ∧ s.agenda = wr .lmLimit 64 :: [] :=
  ⟨doneTest_inv, fun _ h => (by cases h), fun _ h => (by cases h), fun _ => rfl,
    ⟨{ lmTest [0, 0, 0] 1 1 with agenda := [wr .sdUlen 5] },
      (lmTest_inv [0, 0, 0] 1 1 rfl).withAgenda _, by decide, rfl, rfl⟩,
    { sdTest [0x04#8] 1 2 with agenda := [wr .lmLimit 64] },
      (sdTest_inv [0x04#8] 1 2 (by decide) (by decide)).withAgenda _, by decide, rfl, rfl⟩
theorem witness_WindowHalvesAreWrittenAndReadApart : (∀ ag, (doneTest ag).Inv) ∧ (∀ ag, (doneTest ag).lm.state ≠ .busy) ∧
    ((doneTest [wr (.lmWHi 2) 1]).agenda = wr (if true then .lmWHi 2 else .lmWLo 2) 1 :: [] ∧
      2 < (doneTest []).params.maxWords) ∧
    (doneTest [wr (.lmWLo 7) 1]).agenda = wr (if false then .lmWHi 7 else .lmWLo 7) 1 :: [] ∧
    (doneTest []).params.maxWords ≤ 7 := ⟨doneTest_inv, fun _ h => (by cases h), by decide, by decide, by decide⟩
theorem witness_LiveAndReservedRegistersReadAsMapped : (doneTest []).Inv ∧ (0x24 < 128 ∧ 0x24 % 4 = 0 ∧ 0x24 ≤ 0x24) ∧
    0x38 < 128 ∧ 0x38 % 4 = 0 ∧ 0x20 + 8 * (doneTest []).params.maxWords ≤ 0x38 :=
  ⟨doneTest_inv [], by decide, by decide, by decide, by decide⟩
theorem witness_ReadOnlyAndReservedWritesAreIgnored :
    ((doneTest [.write (.reg .sd 0x14) 32 1]).agenda = .write (.reg .sd 0x14) 32 1 :: [] ∧ (0x14 = 0x04 ∨ 0x14 ≤ 0x14)) ∧
    ((doneTest [.write (.reg .lm 0x1C) 32 1]).agenda = .write (.reg .lm 0x1C) 32 1 :: [] ∧
      (0x10 ≤ 0x1C ∧ 0x1C ≤ 0x1C)) ∧
    (doneTest [.write (.reg .lm 0x38) 32 1]).agenda = .write (.reg .lm 0x38) 32 1 :: [] ∧
    0x20 + 8 * (doneTest []).params.maxWords ≤ 0x38 := by decide
theorem witness_ReadsHaveNoSideEffect :
    (doneTest [.read (.reg .sd 4) 32]).agenda = .read (.reg .sd 4) 32 :: [] ∧ (doneTest []).sd.state = .done ∧
    (doneTest [.read (.reg .lm 0x7C) 32]).agenda = .read (.reg .lm 0x7C) 32 :: [] := by decide
theorem witness_AccessesOfAnotherFormAreRefused : (0 < 128 ∧ (8 ≠ 32 ∨ 0 % 4 ≠ 0)) ∧ (127 < 128 ∧ (32 ≠ 32 ∨ 127 % 4 ≠ 0)) ∧
    (doneTest [.read (.reg .sd 0) 8]).agenda = .read (.reg .sd 0) 8 :: [] ∧
    (doneTest [.write (.reg .lm 127) 32 1]).agenda = .write (.reg .lm 127) 32 1 :: [] := by decide

theorem witness_NeitherUnitWritesMemory : (∃ t, exec .sdStart (doneTest []) = .next t) ∧
    (∃ t, (bothBusy [.sd]).agenda = .sd :: [] ∧ step (bothBusy [.sd]) = .next t) ∧
    ∃ t, (bothBusy [.lm]).agenda = .lm :: [] ∧ step (bothBusy [.lm]) = .next t :=
  ⟨⟨_, rfl⟩, ⟨_, rfl, rfl⟩, ⟨_, rfl, rfl⟩⟩
theorem witness_AStreamWriteStoresOneByte : (doneTest [.fill 0xFFFFFFFF 0]).Inv ∧
    (doneTest [.fill 0xFFFFFFFF 0]).agenda = .fill 0xFFFFFFFF 0 :: [] ∧ 0xFFFFFFFF < 2 ^ (doneTest []).params.curW ∧
    onLoan (doneTest [.fill 0xFFFFFFFF 0]) 0xFFFFFFFF = false ∧
    (∃ s : State, s.Inv ∧ s.agenda = .fillBus (s.params.streamBase + 0xFFFFFFFF) 0 :: [] ∧
      onLoan s 0xFFFFFFFF = false) ∧
    ∃ s : State, s.Inv ∧ s.agenda = .fillBus (s.params.streamBase + 2 ^ s.params.curW) 0 :: [] :=
  ⟨doneTest_inv _, by decide, by decide, by decide,
    ⟨doneTest [.fillBus (Config.params.streamBase + 0xFFFFFFFF) 0], doneTest_inv _, rfl, by decide⟩,
    doneTest [.fillBus (Config.params.streamBase + 2 ^ Config.params.curW) 0], doneTest_inv _, rfl⟩
theorem witness_StreamWritesDuringARunAreRefused : ∃ s : State, s.Inv ∧
    (s.agenda = .fill 2 0 :: [] ∨ s.agenda = .fillBus (s.params.streamBase + 2) 0 :: []) ∧
    s.sd.state = .busy ∧ s.sd.startCursor.toNat ≤ 2 ∧ 2 < s.sd.streamLen.toNat :=
  ⟨{ sdTest [0x04#8] 3 2 with agenda := [.fill 2 0] },
    (sdTest_inv [0x04#8] 3 2 (by decide) (by decide)).withAgenda _, .inl rfl, rfl, by decide, by decide⟩
theorem witness_TheLoanLastsUntilTheHostReadsDone : (∃ s : State, s.loan = some { lo := 0, hi := 3 } ∧
    s.agenda = .fill 2 0 :: [] ∧ 2 < 2 ^ s.params.curW ∧ 0 ≤ 2 ∧ 2 < (3#32).toNat ∧
    ∃ t, step { s with agenda := [.sd] } = .next t ∧
      ({ s with agenda := [.sd] } : State).loan = some { lo := 0, hi := 3 }) ∧
    -- a START that is taken, and one that is not
    (∃ s t : State, s.loan = some { lo := 0, hi := 3 } ∧ s.sd.state ≠ .busy ∧ step s = .next t ∧
      t.loan = some { lo := s.sd.startCursor, hi := s.sd.streamLen } ∧ t.loan ≠ s.loan) ∧
    ∃ s t : State, s.loan = some { lo := 0, hi := 3 } ∧ s.agenda = wr .sdCtrl 1 :: [] ∧ s.sd.state = .busy ∧
      step s = .next t ∧ t.loan = s.loan :=
  ⟨⟨{ sdTest [0x04#8, 0xAA#8, 0xBB#8] 3 2 with agenda := [.fill 2 0] }, rfl, rfl, by decide, by decide, by decide, _, rfl,
    rfl⟩,
    ⟨{ doneTest [wr .sdCtrl 1] with loan := some { lo := 0, hi := 3 } }, _, rfl, by decide, rfl, by decide, by decide⟩,
    { sdTest [0x04#8, 0xAA#8, 0xBB#8] 3 2 with agenda := [wr .sdCtrl 1] }, _, rfl, rfl, rfl, rfl, rfl⟩
theorem witness_TheSdReadsOnlyItsRange : ∃ (s t : State) (m : Memory), s.Inv ∧ s.agenda = .sd :: [] ∧
    s.sd.state = .busy ∧ (∀ a, s.sd.startCursor.toNat ≤ a → a < s.sd.streamLen.toNat → m.read a = s.mem.read a) ∧
    m ≠ s.mem ∧ step s = .next t := by
  refine ⟨sdTest [0x04#8, 0xAA#8, 0xBB#8] 3 2, _, [(0, 0x04#8), (1, 0xAA#8), (2, 0xBB#8), (3, 0xCC#8)],
    sdTest_inv _ _ _ (by decide) (by decide), rfl, rfl, fun a _ h => ?_, by decide, rfl⟩
  have h3 : a < 3 := h
  obtain rfl | rfl | rfl : a = 0 ∨ a = 1 ∨ a = 2 := by omega
  all_goals decide
theorem witness_TheUnitsShareNoState : (∃ t, exec .len3W3 (bothBusy []) = .next t) ∧
    (Instr.len3W3 ∈ [Instr.len3W2, .len3W3, .lmStart]) ∧ (∃ t, exec (.litShort 1) (bothBusy []) = .next t) ∧
    Instr.litShort 1 ∉ [Instr.len3W2, .len3W3, .lmStart] := ⟨⟨_, rfl⟩, by decide, ⟨_, rfl⟩, by decide⟩
theorem witness_TheSinksTurnCommutesWithTheSds :
    ((doneTest [.sink]).agenda = .sink :: [] ∧ (doneTest [.sink]).port = []) ∧
    ((portTest 1 [.sink]).agenda = .sink :: [] ∧ (portTest 1 [.sink]).port = letterA :: []) ∧
    ∃ t, (portTest 2 []).port ≠ [] ∧ (portTest 2 []).port.length < (portTest 2 []).params.sinkDepth ∧
      runSteps 2 { portTest 2 [] with agenda := .sd :: .sink :: [] } = .next t :=
  ⟨⟨rfl, rfl⟩, ⟨rfl, rfl⟩, _, by decide, by decide, rfl⟩
theorem witness_ResetValuesOfTheRegisters : ∃ t, (doneTest [.reset]).agenda = .reset :: [] ∧
    step (doneTest [.reset]) = .next t := ⟨_, rfl, rfl⟩
/-- With runs of both units for the reset to abort. -/
theorem witness_TheResetEvent : ((doneTest [.reset]).Inv ∧ (doneTest [.reset]).agenda = .reset :: []) ∧
    (bothBusy [.reset]).Inv ∧ (bothBusy [.reset]).agenda = .reset :: [] ∧ (bothBusy [.reset]).sd.state = .busy ∧
    (bothBusy [.reset]).lm.state = .busy := by
  have h := sdTest_inv [0x04#8, 0xAA#8, 0xBB#8] 3 2 (by decide) (by decide)
  have h' := lmTest_inv [1, 0, 0] 1 1 rfl
  exact ⟨⟨doneTest_inv _, rfl⟩, ⟨h.params, h.mem_wf, h.mem_fits, h.sd, h'.lm, h.port_fits, h.handed_over, h.lent⟩,
    rfl, rfl, rfl⟩
theorem witness_EveryStepKeepsTheInvariant : ∃ s t : State, s.Inv ∧ step s = .next t ∧ s.Emitted ∧ s.loan ≠ none :=
  ⟨sdTest [0x04#8, 0xAA#8, 0xBB#8] 3 2, _, sdTest_inv _ _ _ (by decide) (by decide), rfl,
    ⟨fun _ => rfl, fun _ _ r hr => (by cases hr)⟩, by decide⟩
theorem witness_EveryRunEndsWithAnObservation : (∃ s : State, s.Inv ∧ s.sd.state = .busy ∧
      s.agenda = drainedTurns (s.sd.bytesLeft.toNat + 1) ++ []) ∧
    (∃ s : State, s.Inv ∧ startsRun .sd s = true ∧ s.agenda.tail = drainedTurns (s.sd.ulen.toNat + 1) ++ [] ∧
      s.sd.ulen ≠ 0) ∧
    ∃ s : State, startsRun .lm s = true ∧ s.agenda.tail = .lm :: [] :=
  ⟨⟨{ sdTest [0x04#8, 0xAA#8, 0xBB#8] 3 2 with agenda := drainedTurns 3 },
      (sdTest_inv [0x04#8, 0xAA#8, 0xBB#8] 3 2 (by decide) (by decide)).withAgenda _, rfl, by decide⟩,
    ⟨doneTest (wr .sdCtrl 1 :: drainedTurns 2), doneTest_inv _, by decide, by decide, by decide⟩,
    doneTest [wr .lmCtrl 1, .lm], by decide, rfl⟩
/-- Two interleavings of one SD run, other moves between and a later START, and two LM runs from other results. -/
theorem witness_NoObservationDependsOnTheInterleaving : (∃ o,
      sdRunObservation 2 (doneTest [wr .sdCtrl 1, .sd, .sd]) = some o ∧
      sdRunObservation 5 (doneTest [wr .sdCtrl 1, .sd, wr .lmCtrl 1, .sink, .sd, wr .sdCtrl 1]) = some o ∧
      (∀ ag, (doneTest ag).Inv)) ∧
    ∃ o, lmRunObservation 1 (doneTest [wr .lmCtrl 1, .lm]) = some o ∧
      lmRunObservation 2 { doneTest [wr .lmCtrl 1, .sd, .lm] with lm := { (doneTest []).lm with mask := 0 } } = some o :=
  ⟨⟨_, rfl, by decide, doneTest_inv⟩, _, rfl, by decide⟩
/-- A COMPLETE and a TRUNCATED end. -/
theorem witness_CompleteExactlyWhenAllOutputIsProduced : (∃ s t : State, s.Inv ∧ s.sd.state = .busy ∧
      s.agenda.head? = some .sd ∧ step s = .next t ∧ t.sd.state = .done ∧ t.sd.result = .complete) ∧
    ∃ s t : State, s.Inv ∧ s.sd.state = .busy ∧ s.agenda.head? = some .sd ∧ step s = .next t ∧ t.sd.state = .done ∧
      t.sd.result ≠ .complete :=
  ⟨⟨sdTest [0x04#8] 1 0, _, sdTest_inv _ _ _ (by decide) (by decide), rfl, rfl, rfl, rfl, rfl⟩,
    ⟨sdTest [0xF0#8] 1 1, _, sdTest_inv _ _ _ (by decide) (by decide), rfl, rfl, rfl, rfl, fun h => (by cases h)⟩⟩
theorem witness_BytesLeftZeroIsTheSameAsComplete : ∃ s t : State, s.Inv ∧ step s = .next t ∧ t.sd.state = .done :=
  ⟨sdTest [0x04#8] 1 0, _, sdTest_inv _ _ _ (by decide) (by decide), rfl, rfl⟩
/-- The same stream with 2 and with the most bytes owed, over one drained turn. -/
theorem witness_ASmallerRunIsAPrefix : ∃ (s t u : State) (owed : Word), s.Inv ∧ s.sd.state = .busy ∧
    s.sd.bytesLeft.toNat ≤ owed.toNat ∧ s.sd.dstPos.toNat + owed.toNat < 2 ^ s.params.lenW ∧
    runSteps (2 * 1) { s with agenda := drainedTurns 1 } = .next t ∧
    runSteps (2 * 1) { s with
      agenda := drainedTurns 1
      sd := { s.sd with
        bytesLeft := owed
        ulen := Word.ofNat (s.sd.dstPos.toNat + owed.toNat) } } = .next u :=
  ⟨sdTest [0x04#8, 0xAA#8, 0xBB#8] 3 2, _, _, 0xFFFFFFFF, sdTest_inv _ _ _ (by decide) (by decide), rfl, by decide,
    by decide, rfl, rfl⟩
/-- A run's records over another memory that holds its stream, and a run whose stream ends with the last record and that
owes its bytes alone. -/
theorem witness_ExpandAnswersOnTheSdsRecordsAlone :
    (twoTest.Inv ∧ twoTest.Emitted ∧ twoTest.loan = some { lo := 0, hi := 4 } ∧ twoTest.sd.out ≠ [] ∧
      (∀ a, 0 ≤ a → a < 4 → (aaaaa ++ [(4, 0xFF#8)]).read a = twoTest.mem.read a) ∧
      aaaaa ++ [(4, 0xFF#8)] ≠ twoTest.mem) ∧
    ∃ (s : State) (recs : List SymRec) (o : List Byte), s.Inv ∧ s.sd.state = .busy ∧ s.sd.out = [] ∧
      expand s.params s.mem recs = some o ∧ firstTag recs s.sd.cursor = s.sd.cursor.toNat ∧
      (∀ r ∈ recs, r.tag.toNat + r.width.toNat ≤ s.sd.streamLen.toNat) ∧ o.length ≤ s.sd.bytesLeft.toNat ∧
      s.agenda = drainedTurns recs.length ∧ recs.length = 2 := by
  refine ⟨⟨twoTest_inv, twoTest_emitted, rfl, by decide, fun a _ h => ?_, by decide⟩,
    { sdTest [0x00#8, 0x61#8, 0x01#8, 0x01#8] 4 5 with agenda := drainedTurns 2 }, [letterA, copyA],
    List.replicate 5 0x61#8, (sdTest_inv _ _ _ (by decide) (by decide)).withAgenda _, rfl, rfl, test_expand, rfl,
    by decide, by decide, rfl, rfl⟩
  obtain rfl | rfl | rfl | rfl : a = 0 ∨ a = 1 ∨ a = 2 ∨ a = 3 := by omega
  all_goals decide
/-- The last output position, in the copy. -/
theorem witness_ResolvingAPositionAgreesWithExpand : Config.params.legal ∧
    byteAt Config.params aaaaa [letterA, copyA] 4 ≠ none := ⟨params_legal, by decide⟩
theorem witness_ExpandedRecordsHaveTheirBytes : Config.params.legal ∧
    (∃ o', expand Config.params aaaaa ([] ++ [letterA]) = some o' ∧ 0 < letterA.len.toNat ∧ letterA.kind = .lit) ∧
    ∃ o', expand Config.params aaaaa ([letterA] ++ [copyA]) = some o' ∧ 3 < copyA.len.toNat ∧ copyA.kind = .copy :=
  ⟨params_legal, ⟨[0x61#8], by decide, by decide, rfl⟩, ⟨_, test_expand, by decide, rfl⟩⟩
/-- The shortest and the longest form of each kind of line. -/
theorem witness_AssembledLinesDecode : (∃ bs, assemble (.litS [0x61#8]) = some bs) ∧
    (∃ bs, assemble (.litM (List.replicate 60 0x61#8)) = some bs) ∧ (∃ bs, assemble (.litX 4 [0x61#8]) = some bs) ∧
    (∃ bs, assemble (.lit [0x61#8]) = some bs) ∧ (∃ bs, assemble (.copy1 11 2047) = some bs) ∧
    (∃ bs, assemble (.copy2 64 65535) = some bs) ∧ (∃ bs, assemble (.copy4 1 0xFFFFFFFF) = some bs) ∧
    ∃ bs, assemble (.copy 64 65536) = some bs :=
  ⟨⟨_, rfl⟩, ⟨_, rfl⟩, ⟨_, rfl⟩, ⟨_, rfl⟩, ⟨_, rfl⟩, ⟨_, rfl⟩, ⟨_, rfl⟩, ⟨_, rfl⟩⟩

end Sys2Proof.Tests
end

section
/-! PROOFS. The invariant along steps: each agent's move keeps it, so every step does. -/

namespace Sys2Proof.Machine

/-- The SD's reset registers meet its invariant, whatever the parameters are. -/
theorem SdRegs.reset_inv (p : Params) : SdRegs.reset.Inv p := by
  constructor <;> simp [SdRegs.reset, firstTag, chained]

/-- The LM's reset registers meet its invariant. -/
theorem LmRegs.reset_inv (p : Params) : (LmRegs.reset p.maxWords).Inv p := by
  constructor <;> simp [LmRegs.reset]

/-- The SD's turn keeps the invariant: it rests, stops with a cause its BYTES_LEFT allows, or commits an accepted symbol
unless the port is full. -/
theorem sdMove_inv {s t : State} (hI : s.Inv) (h : sdMove s = .next t) : t.Inv := by
  rw [sdMove_eq] at h
  injection h with h
  subst h
  cases ha : sdAct s.headerWindow s.sd with
  | rest => exact hI
  | stop r =>
    have hsd : (finish r s).sd.Inv s.params := by
      obtain ⟨-, ⟨h0, rfl⟩ | ⟨h0, hr⟩⟩ := sdAct_stop ha
      · exact finish_sd_inv hI.sd (by simp) (by simp) (fun _ => h0) (by simp)
      · exact finish_sd_inv hI.sd (by rintro rfl; simp at hr) (by rintro rfl; simp at hr) (by rintro rfl; simp at hr)
          fun _ => h0
    exact ⟨hI.params, hI.mem_wf, hI.mem_fits, hsd, hI.lm, hI.port_fits, hI.handed_over, fun hb => by simp [SdAct.run] at hb⟩
  | emit r =>
    obtain ⟨hb, -, i, cls, hc, hv, rfl, -⟩ := sdAct_emit ha
    simp only [SdAct.run]
    rcases commit_cases (symbolRecord i cls s.sd) s with ⟨-, e⟩ | ⟨hroom, e⟩ <;> rw [e]
    · exact hI
    · refine ⟨hI.params, hI.mem_wf, hI.mem_fits, pushRecord_sd_inv hI hb hc (accepts_of_verdict hv), hI.lm, ?_, ?_,
        fun _ => hI.lent hb⟩
      · simpa using hroom
      · obtain ⟨pre, hpre⟩ := hI.handed_over
        exact ⟨pre, by simp [← List.append_assoc, hpre]⟩

/-- The LM's turn keeps the invariant: it changes the LM's registers alone and ends the run with a result. -/
theorem lmMove_inv {s t : State} (hI : s.Inv) (h : lmMove s = .next t) : t.Inv := by
  have hlm : t.lm.Inv s.params := by
    by_cases hb : s.lm.state = .busy
    · have fails : ∀ r : LmResult, r ≠ .none → (lmFail r s).lm.Inv s.params := fun r hr =>
        ⟨hI.lm.words, rfl, by simp, by simp, by simp, fun _ => ⟨hr, fun _ => ⟨rfl, rfl⟩⟩⟩
      rcases lmMove_cases s hb with ⟨-, e⟩ | ⟨hlim, -, ⟨-, m, e, -⟩ | ⟨-, e⟩⟩ <;> rw [e] at h <;> injection h with h <;>
        subst h
      · exact fails _ (by simp)
      · have hp := (flagPos_bounds s.lm s.lm.limit.toNat).2
        refine ⟨hI.lm.words, rfl, ?_, by simp, by simp, by simp⟩
        exact (Nat.mod_le _ _).trans (show flagPos s.lm s.lm.limit.toNat ≤ 192 by omega)
      · exact fails _ (by simp)
    · rw [lmMove_of_not_busy hb] at h
      injection h with h
      exact h ▸ hI.lm
  rw [lmMove_frame h]
  exact ⟨hI.params, hI.mem_wf, hI.mem_fits, hI.sd, hlm, hI.port_fits, hI.handed_over, hI.lent⟩

/-- The SINK's turn keeps the invariant: the record it accepts only moves from the port to the accepted ones. -/
theorem sinkMove_inv {s : State} (hI : s.Inv) : (sinkMove s).Inv := by
  cases hp : s.port with
  | nil => rw [sinkMove_nil hp]; exact hI
  | cons r rest =>
    have hfit := hI.port_fits
    have hout := hI.handed_over
    rw [hp] at hfit hout
    rw [List.length_cons] at hfit
    rw [sinkMove_cons hp]
    exact ⟨hI.params, hI.mem_wf, hI.mem_fits, hI.sd, hI.lm, Nat.le_of_succ_le hfit, by simpa using hout, hI.lent⟩

/-- The reset event restores the invariant. -/
theorem resetEvent_inv {s : State} (hI : s.Inv) : (resetEvent s).Inv :=
  ⟨hI.params, hI.mem_wf, hI.mem_fits, SdRegs.reset_inv _, LmRegs.reset_inv _, Nat.zero_le _, List.nil_suffix,
    fun hb => by simp [SdRegs.reset] at hb⟩

/-- A host read keeps the invariant: a loan it ends is that of a run that is DONE. -/
theorem readAt_inv {s : State} (hI : s.Inv) (bank : Bank) (o : Nat) : (readAt s bank o).Inv := by
  refine ⟨hI.params, hI.mem_wf, hI.mem_fits, hI.sd, hI.lm, hI.port_fits, hI.handed_over, fun hb => ?_⟩
  change s.sd.state = .busy at hb
  have hno : endsLoan s bank o = false := by simp [endsLoan, hb]
  simpa [readAt, hno] using hI.lent hb

/-- A START of the SD keeps the invariant. -/
theorem exec_sdStart_inv {s t : State} (hI : s.Inv) (h : exec .sdStart s = .next t) : t.Inv := by
  rcases execSdStart_cases s with ⟨-, e⟩ | ⟨-, hv, e⟩ | ⟨-, -, e⟩ <;> rw [e] at h <;> injection h with h <;> subst h
  · exact hI
  · exact beginSdRun_inv hI .busy .none (.inl ⟨rfl, rfl, hv⟩)
  · exact beginSdRun_inv hI .done .errContract (.inr ⟨rfl, rfl⟩)

/-- A START of the LM keeps the invariant. -/
theorem exec_lmStart_inv {s t : State} (hI : s.Inv) (h : exec .lmStart s = .next t) : t.Inv := by
  rcases execLmStart_cases s with ⟨-, e⟩ | ⟨-, e⟩ <;> rw [e] at h <;> injection h with h <;> subst h
  · exact hI
  · have hlm : (beginLmRun s).lm.Inv s.params :=
      ⟨hI.lm.words, hI.lm.work, hI.lm.consumed_le, by simp, by simp, by simp⟩
    exact ⟨hI.params, hI.mem_wf, hI.mem_fits, hI.sd, hlm, hI.port_fits, hI.handed_over, hI.lent⟩

/-- A write to a register that is no command keeps the invariant. -/
theorem writeReg_inv {s : State} (hI : s.Inv) (bank : Bank) (o : Nat) (v : Word) : (writeReg s bank o v).Inv := by
  cases bank with
  | sd =>
    obtain ⟨hstate, hout, hbusy⟩ := writeSd_state s.params s.sd o v
    refine ⟨hI.params, hI.mem_wf, hI.mem_fits, writeSd_inv hI.sd o v, hI.lm, hI.port_fits, ?_, fun hb => ?_⟩
    · show (writeSd s.params s.sd o v).out <:+ _
      rw [hout]
      exact hI.handed_over
    · change (writeSd s.params s.sd o v).state = .busy at hb
      rw [hstate] at hb
      simpa [writeReg, hbusy hb] using hI.lent hb
  | lm => exact ⟨hI.params, hI.mem_wf, hI.mem_fits, hI.sd, writeLm_inv hI.lm o v, hI.port_fits, hI.handed_over, hI.lent⟩

/-- A stream write below `2^CUR_W` keeps the invariant. -/
theorem memWrite_inv {s : State} (hI : s.Inv) {a : Nat} (ha : a < 2 ^ s.params.curW) (b : Byte) :
    ({ s with mem := s.mem.write a b } : State).Inv := by
  refine ⟨hI.params, Memory.write_wf _ hI.mem_wf a b, fun c hc => ?_, hI.sd, hI.lm, hI.port_fits, hI.handed_over, hI.lent⟩
  rcases Memory.mem_write hc with hc | ⟨rfl, -⟩
  · exact hI.mem_fits c hc
  · exact ha

/-- Every move that answers a next state keeps the invariant. -/
theorem runMove_inv {mv : Move} {s t : State} (hI : s.Inv) (h : runMove mv s = .next t) : t.Inv := by
  rcases runMove_cases h with h | h | rfl | rfl | ⟨bank, o, rfl⟩ | ⟨bank, o, v, h⟩ | ⟨a, b, ha, -, rfl⟩
  · exact sdMove_inv hI h
  · exact lmMove_inv hI h
  · exact sinkMove_inv hI
  · exact resetEvent_inv hI
  · exact readAt_inv hI bank o
  · rcases writeAt_cases s bank o v with ⟨-, -, -, e⟩ | ⟨-, -, -, e⟩ | e <;> rw [e] at h
    · exact exec_sdStart_inv hI h
    · exact exec_lmStart_inv hI h
    · injection h with h
      exact h ▸ writeReg_inv hI bank o v
  · exact memWrite_inv hI ha b

/-- Every step keeps the invariant. -/
theorem step_inv {s t : State} (hI : s.Inv) (h : step s = .next t) : t.Inv := by
  rcases step_cases s with e | ⟨mv, ag, e⟩ <;> rw [e] at h
  · injection h with h
    exact h ▸ hI
  · exact runMove_inv (hI.withAgenda ag) h

end Sys2Proof.Machine
end

section
/-! PROOFS. No observation depends on the interleaving (00_scope.md R14, R15): the units' turns commute, and a run's
observation is what its unit makes of the run's own configuration and stream. -/

namespace Sys2Proof.Machine

/-! ### The turns of the two units commute -/

/-- An SD turn and an LM turn, the two moves to come in either order, lead to one state. -/
theorem runSteps_two_turns (s : State) (ag : List Move) : ∃ l : LmRegs,
    runSteps 2 { s with agenda := .sd :: .lm :: ag } =
      .next { (sdAct s.headerWindow s.sd).run s with lm := l, agenda := ag } ∧
    runSteps 2 { s with agenda := .lm :: .sd :: ag } =
      .next { (sdAct s.headerWindow s.sd).run s with lm := l, agenda := ag } := by
  obtain ⟨u, hu⟩ := lmMove_next s
  obtain ⟨-, hparams, -⟩ := SdAct.run_frame (sdAct s.headerWindow s.sd) s
  have sdTurn (l : LmRegs) (ag' : List Move) : step { s with lm := l, agenda := .sd :: ag' } =
      .next { (sdAct s.headerWindow s.sd).run s with lm := l, agenda := ag' } := by
    rw [step_of_agenda rfl]
    exact (sdMove_eq _).trans (congrArg _ (SdAct.run_lm _ s l ag'))
  have lmTurn (x : State) (hx : x.params = s.params) (ag' : List Move) :
      step { x with lm := s.lm, agenda := .lm :: ag' } = .next { x with lm := u.lm, agenda := ag' } := by
    rw [step_of_agenda rfl]
    exact lmMove_local (s := s) (s' := { x with lm := s.lm, agenda := ag' }) rfl hx hu
  refine ⟨u.lm, ?_, ?_⟩
  · rw [runSteps_two (sdTurn s.lm _)]
    exact lmTurn _ hparams ag
  · rw [runSteps_two (lmTurn s rfl _)]
    exact sdTurn u.lm ag

/-! ### The outcome of a run, step by step -/

/-- The outcome of a run that is over. -/
theorem runOutcome_of_done {α : Type} {bank : Bank} {obs : State → α} {s : State} (h : unitState bank s = .done)
    (n : Nat) : runOutcome bank obs n s = some (obs s) := by
  cases n <;> simp only [runOutcome, h, if_true]

/-- The outcome of a run that goes on is the outcome after its next step. -/
theorem runOutcome_of_busy {α : Type} {bank : Bank} {obs : State → α} {s t : State} (hb : unitState bank s = .busy)
    (h : step s = .next t) (n : Nat) : runOutcome bank obs (n + 1) s = runOutcome bank obs n t := by
  simp only [runOutcome, hb, h]

/-- A run with an outcome is over, or goes on to a next state with that outcome. -/
theorem runOutcome_cases {α : Type} {bank : Bank} {obs : State → α} {n : Nat} {s : State} {o : α}
    (h : runOutcome bank obs n s = some o) :
    (unitState bank s = .done ∧ obs s = o) ∨
    (unitState bank s = .busy ∧ ∃ k t, n = k + 1 ∧ step s = .next t ∧ runOutcome bank obs k t = some o) := by
  cases hu : unitState bank s with
  | done =>
    rw [runOutcome_of_done hu] at h
    exact .inl ⟨rfl, Option.some.inj h⟩
  | idle => cases n <;> simp [runOutcome, hu] at h
  | busy =>
    cases n with
    | zero => simp [runOutcome, hu] at h
    | succ k =>
      cases ht : step s with
      | next t => exact .inr ⟨rfl, k, t, rfl, rfl, by rwa [runOutcome_of_busy hu ht] at h⟩
      | fault f => simp [runOutcome, hu, ht] at h
      | refused r => simp [runOutcome, hu, ht] at h

/-- A run that was aborted has no outcome (70_reset_and_hazards.md R253). -/
theorem runOutcome_of_idle {α : Type} {bank : Bank} {obs : State → α} {s : State} (h : unitState bank s = .idle)
    (n : Nat) : runOutcome bank obs n s = none := by
  cases n <;> simp [runOutcome, h]

/-! ### What an SD run observes -/

/-- The SD's registers after one accepted turn on the stream bytes `m`. -/
def SdRegs.turn (m : Memory) (sd : SdRegs) : SdRegs :=
  (sdAct { State.reset with mem := m, sd := sd }.headerWindow sd).registers sd

/-- An accepted turn leaves the run's configuration. -/
theorem SdAct.registers_config (a : SdAct) (sd : SdRegs) : (a.registers sd).startCursor = sd.startCursor ∧
    (a.registers sd).streamLen = sd.streamLen := by
  cases a <;> exact ⟨rfl, rfl⟩

/-- An SD that is not BUSY stays as it is. -/
theorem SdRegs.turn_of_not_busy {m : Memory} {sd : SdRegs} (h : sd.state ≠ .busy) : sd.turn m = sd := by
  simp [SdRegs.turn, sdAct, h, SdAct.registers]

/-- A header window holds bytes between the cursor and the stream's end alone (20_memory.md R62, R64). -/
theorem headerWindow_congr {s s' : State} (hsd : s'.sd = s.sd)
    (hm : ∀ a, s.sd.cursor.toNat ≤ a → a < s.sd.streamLen.toNat → s'.memRead a = s.memRead a) :
    s'.headerWindow = s.headerWindow := by
  simp only [State.headerWindow, State.streamBytes, hsd]
  refine List.map_congr_left fun i hi => ?_
  rw [List.mem_range] at hi
  exact hm _ (by omega) (by omega)

/-- The cursor of a run does not lie before its start (40_symbol_decoder.md R140). -/
theorem startCursor_le_cursor {s : State} (hI : s.Inv) (hb : s.sd.state = .busy) :
    s.sd.startCursor.toNat ≤ s.sd.cursor.toNat := by
  obtain ⟨-, -, -, -, hfirst⟩ := hI.sd.busy hb
  have hchain := hI.sd.chain
  rw [hfirst] at hchain
  exact (chained_le hchain).1

/-- The stream bytes of a state's run are those of `m`. -/
def State.RunsOn (s : State) (m : Memory) : Prop :=
  ∀ a, s.sd.startCursor.toNat ≤ a → a < s.sd.streamLen.toNat → s.memRead a = m.read a

/-- A step of a BUSY SD's run aborts it, leaves its registers, or is an accepted turn on the run's stream; the stream
stays. -/
theorem step_of_run {s t : State} {m : Memory} (hI : s.Inv) (hb : s.sd.state = .busy) (hm : s.RunsOn m)
    (h : step s = .next t) :
    t.sd.state = .idle ∨ ((t.sd = s.sd ∨ t.sd = s.sd.turn m) ∧ t.RunsOn m) := by
  rcases step_of_busy_sd hI hb h with hidle | ⟨hregs, hbytes⟩
  · exact .inl hidle
  have hwin : s.headerWindow = { State.reset with mem := m, sd := s.sd }.headerWindow :=
    headerWindow_congr rfl fun a h1 h2 => hm a ((startCursor_le_cursor hI hb).trans h1) h2
  rw [hwin] at hregs
  refine .inr ⟨hregs, fun a h1 h2 => ?_⟩
  have hconfig : t.sd.startCursor = s.sd.startCursor ∧ t.sd.streamLen = s.sd.streamLen := by
    rcases hregs with e | e <;> rw [e]
    · exact ⟨rfl, rfl⟩
    · exact SdAct.registers_config _ _
  rw [hconfig.1] at h1
  rw [hconfig.2] at h2
  exact (hbytes a h1 h2).trans (hm a h1 h2)

/-- A run's observation is that of its registers after some number of accepted turns on its stream, whatever moves stand
between them. -/
theorem runOutcome_sd_turns {m : Memory} {n : Nat} {s : State} {o : SdObservation} (hI : s.Inv) (hm : s.RunsOn m)
    (h : runOutcome .sd (fun t => t.sd.observe) n s = some o) :
    ∃ k, ((SdRegs.turn m)^[k] s.sd).state = .done ∧ ((SdRegs.turn m)^[k] s.sd).observe = o := by
  induction n generalizing s with
  | zero =>
    obtain ⟨hd, ho⟩ := (runOutcome_cases h).resolve_right (by rintro ⟨-, k, t, hk, -⟩; omega)
    exact ⟨0, hd, ho⟩
  | succ n ih =>
    rcases runOutcome_cases h with ⟨hd, ho⟩ | ⟨hb, _, t, ⟨⟩, ht, h⟩
    · exact ⟨0, hd, ho⟩
    rcases step_of_run hI hb hm ht with hidle | ⟨hregs, hm'⟩
    · rw [runOutcome_of_idle (bank := .sd) hidle] at h
      cases h
    · obtain ⟨k, hk⟩ := ih (step_inv hI ht) hm' h
      rcases hregs with e | e <;> rw [e] at hk
      · exact ⟨k, hk⟩
      · exact ⟨k + 1, hk⟩

/-- Accepted turns past the end of a run change nothing, so two numbers of turns that end it end it alike. -/
theorem turns_ended_eq {m : Memory} {sd : SdRegs} {k j : Nat} (hk : ((SdRegs.turn m)^[k] sd).state = .done)
    (hj : ((SdRegs.turn m)^[j] sd).state = .done) : (SdRegs.turn m)^[k] sd = (SdRegs.turn m)^[j] sd := by
  have stays (i d : Nat) (hi : ((SdRegs.turn m)^[i] sd).state = .done) :
      (SdRegs.turn m)^[d + i] sd = (SdRegs.turn m)^[i] sd := by
    rw [Function.iterate_add_apply]
    exact Function.iterate_fixed (SdRegs.turn_of_not_busy (by rw [hi]; decide)) d
  rcases Nat.le_total k j with hle | hle
  · rw [← stays k (j - k) hk, Nat.sub_add_cancel hle]
  · rw [← stays j (k - j) hj, Nat.sub_add_cancel hle]

/-- The state of a run that has just begun. -/
def SdRegs.begun (sd : SdRegs) : SdRegs :=
  if sd.startCursor.toNat < sd.streamLen.toNat then (beginSdRun .busy .none { State.reset with sd := sd }).sd
  else (beginSdRun .done .errContract { State.reset with sd := sd }).sd

/-- A run begins from its configuration alone (43_host_interface.md R206). -/
theorem SdRegs.begun_congr {sd sd' : SdRegs} (hlen : sd'.streamLen = sd.streamLen)
    (hstart : sd'.startCursor = sd.startCursor) (hulen : sd'.ulen = sd.ulen) : sd'.begun = sd.begun := by
  simp only [SdRegs.begun, beginSdRun, hlen, hstart, hulen]

/-- The observation of an SD run: that of its registers after some number of accepted turns from its begin. -/
theorem sdRunObservation_turns {n : Nat} {s : State} {o : SdObservation} {m : Memory} (hI : s.Inv) (hm : s.RunsOn m)
    (h : sdRunObservation n s = some o) :
    ∃ k, ((SdRegs.turn m)^[k] s.sd.begun).state = .done ∧ ((SdRegs.turn m)^[k] s.sd.begun).observe = o := by
  simp only [sdRunObservation, runObservation] at h
  split at h
  · rename_i hstart
    rcases step_of_startsRun_sd hstart with ⟨hv, e⟩ | ⟨hv, e⟩ <;> rw [e] at h <;>
      have hbegun := runOutcome_sd_turns (m := m) (step_inv hI e) hm h
    · rw [SdRegs.begun, if_pos hv]
      exact hbegun
    · rw [SdRegs.begun, if_neg (Nat.not_lt.mpr hv)]
      exact hbegun
  · cases h

/-! ### What an LM run observes -/

/-- The flags' positions depend on the window words alone (42_len3_mask.md R190). -/
theorem flagPos_of_words {lm lm' : LmRegs} (hw : lm'.w = lm.w) (k : Nat) : flagPos lm' k = flagPos lm k := by
  induction k with
  | zero => rfl
  | succ k ih => simp only [flagPos, ih, wbit, hw]

/-- An LM's turn gives a result that depends on LIMIT, NWORDS, the window words and MAX_WORDS alone. -/
theorem lmMove_observe_congr {s s' t t' : State} (hb : s.lm.state = .busy) (hb' : s'.lm.state = .busy)
    (hmax : s'.params.maxWords = s.params.maxWords) (hlim : s'.lm.limit = s.lm.limit)
    (hnw : s'.lm.nwords = s.lm.nwords) (hw : s'.lm.w = s.lm.w) (h : lmMove s = .next t) (h' : lmMove s' = .next t') :
    t'.lm.observe = t.lm.observe := by
  have hpos (k : Nat) : flagPos s'.lm k = flagPos s.lm k := flagPos_of_words hw k
  have hwin : flagsInWindow s'.lm ↔ flagsInWindow s.lm := by
    simp only [flagsInWindow, windowBits, hpos, hlim, hnw]
  have r := lmMove_result hb h
  have r' := lmMove_result hb' h'
  simp only [hlim, hnw, hmax, hwin, hpos, wbit, hw] at r r'
  rcases r with ⟨hc, r1, r2, r3⟩ | ⟨hl, hn, hin, r1, r2, r3⟩ | ⟨hl, hn, hout, r1, r2, r3⟩
  · obtain ⟨-, r1', r2', r3'⟩ := r'.resolve_right (by omega)
    simp only [LmRegs.observe, r1, r2, r3, r1', r2', r3']
  · rcases r' with ⟨hc, -⟩ | ⟨-, -, -, r1', r2', r3'⟩ | ⟨-, -, hout, -⟩
    · omega
    · have hmask : t'.lm.mask = t.lm.mask := BitVec.eq_of_getLsbD_eq fun b _ => by rw [r3, r3']
      have hcons : t'.lm.consumed = t.lm.consumed := BitVec.eq_of_toNat_eq (by rw [r2, r2'])
      simp only [LmRegs.observe, r1, r1', hmask, hcons]
    · exact absurd hin hout
  · rcases r' with ⟨hc, -⟩ | ⟨-, -, hin, -⟩ | ⟨-, -, -, r1', r2', r3'⟩
    · omega
    · exact absurd hin hout
    · simp only [LmRegs.observe, r1, r2, r3, r1', r2', r3']

/-- A BUSY LM's turn ends its run (42_len3_mask.md R176). -/
theorem lmMove_done {s t : State} (hb : s.lm.state = .busy) (h : lmMove s = .next t) : t.lm.state = .done := by
  rcases lmMove_cases s hb with ⟨-, e⟩ | ⟨-, -, ⟨-, m, e, -⟩ | ⟨-, e⟩⟩ <;> rw [e] at h <;> injection h with h <;>
    subst h <;> rfl

/-- The observation of a BUSY LM's run is what one turn makes of the run's registers, whatever moves stand before it. -/
theorem runOutcome_lm_turn {n : Nat} {s : State} {o : LmObservation} (hb : s.lm.state = .busy)
    (h : runOutcome .lm (fun t => t.lm.observe) n s = some o) :
    ∃ u t : State, u.lm = s.lm ∧ u.params = s.params ∧ lmMove u = .next t ∧ t.lm.observe = o := by
  have hbusy {n : Nat} {s : State} (hb : s.lm.state = .busy)
      (h : runOutcome .lm (fun t => t.lm.observe) n s = some o) :=
    (runOutcome_cases h).resolve_left fun hd => by simp [unitState, hb] at hd
  induction n generalizing s with
  | zero =>
    obtain ⟨-, k, t, hk, -⟩ := hbusy hb h
    omega
  | succ n ih =>
    obtain ⟨-, _, t, ⟨⟩, ht, h⟩ := hbusy hb h
    rcases step_of_busy_lm hb ht with hidle | ⟨hlm, hparams⟩ | ⟨ag, hturn⟩
    · rw [runOutcome_of_idle (bank := .lm) hidle] at h
      cases h
    · obtain ⟨u, v, h1, h2, h3⟩ := ih (hlm ▸ hb) h
      exact ⟨u, v, h1.trans hlm, h2.trans hparams, h3⟩
    · rw [runOutcome_of_done (bank := .lm) (lmMove_done (s := { s with agenda := ag }) hb hturn)] at h
      exact ⟨{ s with agenda := ag }, t, rfl, rfl, hturn, Option.some.inj h⟩

/-- The observation of an LM run is what one turn makes of the registers the START left. -/
theorem lmRunObservation_turn {n : Nat} {s : State} {o : LmObservation} (h : lmRunObservation n s = some o) :
    ∃ u t : State, u.lm = (beginLmRun s).lm ∧ u.params = s.params ∧ lmMove u = .next t ∧ t.lm.observe = o := by
  simp only [lmRunObservation, runObservation] at h
  split at h
  · rename_i hstart
    rw [step_of_startsRun_lm hstart] at h
    exact runOutcome_lm_turn (s := beginLmRun { s with agenda := s.agenda.tail }) rfl h
  · cases h

/-- Settles O47: the two orders of turns lead to one state; an SD run's observation is that of its begun registers after
as many accepted turns on its stream as end it; an LM run's is one turn's result. -/
theorem noObservationDependsOnTheInterleaving : Obligations.NoObservationDependsOnTheInterleaving := by
  unfold Obligations.NoObservationDependsOnTheInterleaving
  refine ⟨fun s t ag => ?_, fun s s' n n' o o' hI hI' hlen hstart hulen hbytes h h' => ?_,
    fun s s' n n' o o' hmax hlim hnw hw h h' => ?_⟩
  · obtain ⟨l, hsd, hlm⟩ := runSteps_two_turns s ag
    rw [hsd, hlm]
  · have hm' : s'.RunsOn s.mem := by
      unfold State.RunsOn
      rw [hlen, hstart]
      exact hbytes
    obtain ⟨k, hk, rfl⟩ := sdRunObservation_turns hI (fun _ _ _ => rfl) h
    obtain ⟨k', hk', rfl⟩ := sdRunObservation_turns hI' hm' h'
    rw [SdRegs.begun_congr hlen hstart hulen] at hk' ⊢
    rw [turns_ended_eq hk' hk]
  · obtain ⟨u, t, hu, hp, hmove, rfl⟩ := lmRunObservation_turn h
    obtain ⟨u', t', hu', hp', hmove', rfl⟩ := lmRunObservation_turn h'
    refine lmMove_observe_congr ?_ ?_ ?_ ?_ ?_ ?_ hmove hmove' <;>
      simp [hu, hu', hp, hp', hmax, hlim, hnw, hw]

end Sys2Proof.Machine
end

section
/-! PROOFS. Every run ends with an observation: with a SINK that keeps accepting, each turn of the SD stops the run or
lowers BYTES_LEFT (40_symbol_decoder.md R136); the LM's first turn ends its run (42_len3_mask.md R176). -/

namespace Sys2Proof.Machine

/-! ### Rounds of a SINK turn and an SD turn -/

/-- `n + 1` rounds are a SINK turn, an SD turn and `n` rounds. -/
theorem drainedTurns_succ (n : Nat) : drainedTurns (n + 1) = .sink :: .sd :: drainedTurns n := by
  simp [drainedTurns, List.replicate_succ]

/-- The SINK's turn moves records alone. -/
theorem sinkMove_frame (s : State) :
    sinkMove s = { s with port := (sinkMove s).port, accepted := (sinkMove s).accepted } := by
  cases hp : s.port with
  | nil => rw [sinkMove_nil hp]
  | cons r rest => rw [sinkMove_cons hp]

/-- The SINK's turn leaves room at the port (40_symbol_decoder.md R118). -/
theorem sinkMove_room {s : State} (hI : s.Inv) : (sinkMove s).port.length < s.params.sinkDepth := by
  cases hp : s.port with
  | nil =>
    obtain ⟨-, -, -, -, -, -, hdepth⟩ := hI.params
    rw [sinkMove_nil hp, hp]
    exact hdepth
  | cons r rest =>
    have hfit := hI.port_fits
    rw [hp] at hfit
    rw [sinkMove_cons hp]
    exact hfit

/-- With room at the port no turn of the SD is held. -/
theorem SdAct.run_registers_of_room (a : SdAct) {s : State} (h : s.port.length < s.params.sinkDepth) :
    (a.run s).sd = a.registers s.sd := by
  cases a with
  | rest => rfl
  | stop r => rfl
  | emit r =>
    obtain ⟨-, e⟩ := (commit_cases r s).resolve_left (by omega)
    simp only [SdAct.run, e]
    rfl

/-- `u` is `s` after one round: the SINK's turn leaves the SD, then the SD takes a turn that is not held. -/
structure Round (s u : State) (ag : List Move) : Prop where
  steps : ∃ v, step s = .next v ∧ v.sd = s.sd ∧ step v = .next u
  inv : u.Inv
  agenda : u.agenda = ag
  sd : u.sd = (sdAct s.headerWindow s.sd).registers s.sd

/-- A SINK turn and an SD turn to come are a round. -/
theorem round_of_agenda {s : State} {ag : List Move} (hI : s.Inv) (h : s.agenda = .sink :: .sd :: ag) :
    ∃ u, Round s u ag := by
  have h1 : step s = .next (sinkMove { s with agenda := .sd :: ag }) := step_of_agenda h
  generalize hv : sinkMove { s with agenda := .sd :: ag } = v at h1
  have frame := sinkMove_frame { s with agenda := .sd :: ag }
  have hroom := sinkMove_room (hI.withAgenda (.sd :: ag))
  rw [hv] at frame hroom
  have hag : v.agenda = .sd :: ag := by rw [frame]
  have hsd : v.sd = s.sd := by rw [frame]
  have hparams : v.params = s.params := by rw [frame]
  have hwin : v.headerWindow = s.headerWindow := headerWindow_congr hsd fun a _ _ => by rw [frame]; rfl
  have h2 : step v = .next ((sdAct v.headerWindow v.sd).run { v with agenda := ag }) :=
    (step_of_agenda hag).trans (sdMove_eq _)
  obtain ⟨-, -, -, hag', -⟩ := SdAct.run_frame (sdAct v.headerWindow v.sd) { v with agenda := ag }
  refine ⟨_, ⟨v, h1, hsd, h2⟩, step_inv (step_inv hI h1) h2, hag', ?_⟩
  rw [SdAct.run_registers_of_room _ (by rw [hparams]; exact hroom), hwin, hsd]

/-- The SD still owes less than `n` bytes of a run, or its run is over. -/
def SdRegs.EndsWithin (n : Nat) (sd : SdRegs) : Prop := (sd.state = .busy ∧ sd.bytesLeft.toNat < n) ∨ sd.state = .done

/-- A turn that is not held stops the run or lowers BYTES_LEFT, since a symbol stands for at least one byte
(40_symbol_decoder.md R136). -/
theorem registers_endsWithin {window : List Byte} {sd : SdRegs} {n : Nat} (h : sd.EndsWithin (n + 1)) :
    ((sdAct window sd).registers sd).EndsWithin n := by
  rcases h with ⟨hb, hlt⟩ | hd
  · cases ha : sdAct window sd with
    | rest => exact absurd ha (sdAct_busy hb)
    | stop r => exact .inr rfl
    | emit r =>
      obtain ⟨-, -, i, cls, hc, hv, rfl, -⟩ := sdAct_emit ha
      have hacc := accepts_of_verdict hv
      have hpos := blen_pos hc
      obtain ⟨-, -, -, -, hlen, -, -⟩ := symbolRecord_fields hacc
      have hfits := hacc.1
      have hw := sd.bytesLeft.isLt
      refine .inl ⟨hb, ?_⟩
      show (Word.ofNat (sd.bytesLeft.toNat - (symbolRecord i cls sd).len.toNat)).toNat < n
      rw [hlen, Word.toNat_ofNat_of_lt (by omega)]
      omega
  · have hrest : sdAct window sd = .rest := by simp [sdAct, hd]
    rw [hrest]
    exact .inr hd

/-- A round brings the run nearer to its end. -/
theorem Round.endsWithin {s u : State} {ag : List Move} {n : Nat} (hr : Round s u ag) (h : s.sd.EndsWithin (n + 1)) :
    u.sd.EndsWithin n := by
  rw [hr.sd]
  exact registers_endsWithin h

/-- Steps after a first one. -/
theorem runSteps_succ {s t : State} (h : step s = .next t) (n : Nat) : runSteps (n + 1) s = runSteps n t := by
  simp only [runSteps, Host.Core.run, core, h]

/-- As many rounds as the SD can still take leave it DONE. -/
theorem runSteps_drained {n : Nat} {s : State} {ag : List Move} (hI : s.Inv) (hn : s.sd.EndsWithin n)
    (h : s.agenda = drainedTurns n ++ ag) : ∃ t, runSteps (2 * n) s = .next t ∧ t.sd.state = .done ∧ t.agenda = ag := by
  induction n generalizing s with
  | zero =>
    have hd := hn.resolve_left fun hlt => absurd hlt.2 (Nat.not_lt_zero _)
    exact ⟨s, rfl, hd, h⟩
  | succ n ih =>
    rw [drainedTurns_succ] at h
    obtain ⟨u, hr⟩ := round_of_agenda hI h
    obtain ⟨v, h1, -, h2⟩ := hr.steps
    rw [Nat.mul_succ, runSteps_succ h1, runSteps_succ h2]
    exact ih hr.inv (hr.endsWithin hn) hr.agenda

/-- As many rounds as the SD can still take give its run an outcome. -/
theorem runOutcome_drained {n : Nat} {s : State} {ag : List Move} (hI : s.Inv) (hn : s.sd.EndsWithin n)
    (h : s.agenda = drainedTurns n ++ ag) : ∃ o, runOutcome .sd (fun t => t.sd.observe) (2 * n) s = some o := by
  induction n generalizing s with
  | zero =>
    have hd := hn.resolve_left fun hlt => absurd hlt.2 (Nat.not_lt_zero _)
    exact ⟨_, runOutcome_of_done (bank := .sd) hd 0⟩
  | succ n ih =>
    rcases hn with ⟨hb, hlt⟩ | hd
    · rw [drainedTurns_succ] at h
      obtain ⟨u, hr⟩ := round_of_agenda hI h
      obtain ⟨v, h1, hv, h2⟩ := hr.steps
      have hb' : v.sd.state = .busy := by rw [hv, hb]
      rw [Nat.mul_succ, runOutcome_of_busy (bank := .sd) hb h1,
        runOutcome_of_busy (bank := .sd) hb' h2]
      exact ih hr.inv (hr.endsWithin (.inl ⟨hb, hlt⟩)) hr.agenda
    · exact ⟨_, runOutcome_of_done (bank := .sd) hd _⟩

/-- An SD START that is taken, with ULEN + 1 rounds after it, begins a run with an observation. -/
theorem sdRunObservation_drained {s : State} {ag : List Move} (hI : s.Inv) (hs : startsRun .sd s = true)
    (h : s.agenda.tail = drainedTurns (s.sd.ulen.toNat + 1) ++ ag) :
    ∃ o, sdRunObservation (2 * (s.sd.ulen.toNat + 1)) s = some o := by
  simp only [sdRunObservation, runObservation, hs, if_true]
  rcases step_of_startsRun_sd hs with ⟨-, e⟩ | ⟨-, e⟩ <;> have hI' := step_inv hI e <;> rw [e]
  · exact runOutcome_drained hI' (.inl ⟨rfl, Nat.lt_succ_self _⟩) h
  · exact ⟨_, runOutcome_of_done rfl _⟩

/-- An LM START that is taken, with an LM turn after it, begins a run with an observation. -/
theorem lmRunObservation_turn_next {s : State} {ag : List Move} (hs : startsRun .lm s = true)
    (h : s.agenda.tail = .lm :: ag) : ∃ o, lmRunObservation 1 s = some o := by
  have hturn := step_of_agenda (s := beginLmRun { s with agenda := s.agenda.tail }) h
  obtain ⟨t, ht⟩ := lmMove_next { beginLmRun { s with agenda := s.agenda.tail } with agenda := ag }
  have hdone : t.lm.state = .done := lmMove_done rfl ht
  simp only [lmRunObservation, runObservation, hs, if_true, step_of_startsRun_lm hs]
  rw [runOutcome_of_busy rfl (hturn.trans ht)]
  exact ⟨_, runOutcome_of_done (bank := .lm) hdone 0⟩

/-- Settles O53: each round stops the SD's run or lowers BYTES_LEFT, and an LM's turn always ends its run. -/
theorem everyRunEndsWithAnObservation : Obligations.EveryRunEndsWithAnObservation := by
  unfold Obligations.EveryRunEndsWithAnObservation
  refine ⟨fun s ag hI hb h => ?_, fun s ag hI hs h => sdRunObservation_drained hI hs h,
    fun s ag hs h => lmRunObservation_turn_next hs h⟩
  exact runSteps_drained hI (.inl ⟨hb, Nat.lt_succ_self _⟩) h

end Sys2Proof.Machine
end

section
/-! PROOFS. The second invariant along steps (20_memory.md R76): the SD's turn emits what the reference semantics expects,
a stream write on loan is refused, and no other move touches a run's records or its stream. -/

namespace Sys2Proof.Machine

/-- The SD's turn keeps the second invariant. -/
theorem sdMove_emitted {s t : State} (hI : s.Inv) (hE : s.Emitted) (h : sdMove s = .next t) : t.Emitted := by
  rw [sdMove_eq] at h
  injection h with h
  subst h
  cases ha : sdAct s.headerWindow s.sd with
  | rest => exact hE
  | stop r => exact hE.of_same_run rfl rfl rfl rfl
  | emit r =>
    simp only [SdAct.run]
    rcases commit_cases r s with ⟨-, e⟩ | ⟨-, e⟩ <;> rw [e]
    · exact hE
    · exact pushRecord_emitted hI hE (sdAct_emit ha).1 ha

/-- A host read keeps the second invariant: it leaves the run, or ends the loan. -/
theorem readAt_emitted {s : State} (hE : s.Emitted) (bank : Bank) (o : Nat) : (readAt s bank o).Emitted := by
  cases hend : endsLoan s bank o with
  | true =>
    have hloan : (readAt s bank o).loan = none := by simp [readAt, hend]
    exact ⟨fun h => absurd hloan h, fun l hl => by simp [hloan] at hl⟩
  | false => exact hE.of_same_run (by simp [readAt, hend]) rfl rfl rfl

/-- A START of the SD keeps the second invariant: a run that begins has no records. -/
theorem exec_sdStart_emitted {s t : State} (hE : s.Emitted) (h : exec .sdStart s = .next t) : t.Emitted := by
  rcases execSdStart_cases s with ⟨-, e⟩ | ⟨-, -, e⟩ | ⟨-, -, e⟩ <;> rw [e] at h <;> injection h with h <;> subst h
  · exact hE
  · exact State.emitted_of_no_records rfl
  · exact State.emitted_of_no_records rfl

/-- A START of the LM keeps the second invariant. -/
theorem exec_lmStart_emitted {s t : State} (hE : s.Emitted) (h : exec .lmStart s = .next t) : t.Emitted := by
  rcases execLmStart_cases s with ⟨-, e⟩ | ⟨-, e⟩ <;> rw [e] at h <;> injection h with h <;> subst h
  · exact hE
  · exact hE.of_same_run rfl rfl rfl rfl

/-- A write to a register that is no command keeps the second invariant. -/
theorem writeReg_emitted {s : State} (hE : s.Emitted) (bank : Bank) (o : Nat) (v : Word) :
    (writeReg s bank o v).Emitted := by
  cases bank with
  | sd => exact hE.of_same_run rfl rfl rfl (writeSd_state s.params s.sd o v).2.1
  | lm => exact hE.of_same_run rfl rfl rfl rfl

/-- An address that is not on loan lies outside the range lent. -/
theorem not_lent_of_onLoan {s : State} {l : Loan} {a : Nat} (hl : s.loan = some l) (h : onLoan s a = false) :
    ¬ (l.lo.toNat ≤ a ∧ a < l.hi.toNat) := by
  simpa [onLoan, hl] using h

/-- A stream write outside the range lent keeps the second invariant: it changes no byte of the run's records. -/
theorem memWrite_emitted {s : State} (hI : s.Inv) (hE : s.Emitted) {a : Nat} (ha : onLoan s a = false) (b : Byte) :
    ({ s with mem := s.mem.write a b } : State).Emitted := by
  refine ⟨fun hl => ?_, hE.in_loan⟩
  obtain ⟨l, hl'⟩ := Option.ne_none_iff_exists'.mp hl
  refine emitted_of_reads_alike hI.params (hE.from_stream hl) fun r hr x hlo hhi => ?_
  have hlent := hE.in_loan l hl' r hr
  have hout := not_lent_of_onLoan hl' ha
  exact Memory.read_write_other _ _ _ _ (by omega)

/-- Every move that answers a next state keeps the second invariant. -/
theorem runMove_emitted {mv : Move} {s t : State} (hI : s.Inv) (hE : s.Emitted) (h : runMove mv s = .next t) :
    t.Emitted := by
  rcases runMove_cases h with h | h | rfl | rfl | ⟨bank, o, rfl⟩ | ⟨bank, o, v, h⟩ | ⟨a, b, -, ha, rfl⟩
  · exact sdMove_emitted hI hE h
  · rw [lmMove_frame h]
    exact hE.of_same_run rfl rfl rfl rfl
  · rw [sinkMove_frame]
    exact hE.of_same_run rfl rfl rfl rfl
  · exact State.emitted_of_no_records rfl
  · exact readAt_emitted hE bank o
  · rcases writeAt_cases s bank o v with ⟨-, -, -, e⟩ | ⟨-, -, -, e⟩ | e <;> rw [e] at h
    · exact exec_sdStart_emitted hE h
    · exact exec_lmStart_emitted hE h
    · injection h with h
      exact h ▸ writeReg_emitted hE bank o v
  · exact memWrite_emitted hI hE ha b

/-- Every step keeps the second invariant. -/
theorem step_emitted {s t : State} (hI : s.Inv) (hE : s.Emitted) (h : step s = .next t) : t.Emitted := by
  rcases step_cases s with e | ⟨mv, ag, e⟩ <;> rw [e] at h
  · injection h with h
    exact h ▸ hE
  · exact runMove_emitted (hI.withAgenda ag) (hE.of_same_run rfl rfl rfl rfl) h

/-- Settles O52: each agent's move keeps the invariant, and with it the second one. -/
theorem everyStepKeepsTheInvariant : Obligations.EveryStepKeepsTheInvariant := by
  unfold Obligations.EveryStepKeepsTheInvariant
  exact fun s t hI h => ⟨step_inv hI h, fun hE => step_emitted hI hE h⟩

end Sys2Proof.Machine
end

section
/-! PROOFS. The reset state: its registers, that it meets both invariants, and the START from it that is ERR_CONTRACT with
nothing owed (log entry 18). -/

namespace Sys2Proof.Machine

/-- Settles O49: the reset registers are as 10_state.md R48 lists them, and the reset event is no stream write. -/
theorem resetValuesOfTheRegisters : Obligations.ResetValuesOfTheRegisters := by
  unfold Obligations.ResetValuesOfTheRegisters
  refine ⟨rfl, rfl, rfl, rfl, rfl, rfl, rfl, rfl, rfl, rfl, rfl, rfl, rfl, rfl, rfl, rfl, rfl, fun s t ag hag h => ?_⟩
  rw [step_of_agenda hag] at h
  injection h with h
  subst h
  exact resetEvent_mem _

/-- The parameters of the reset state are legal, whatever SINK_DEPTH the platform chose. -/
theorem config_params_legal : Config.params.legal :=
  ⟨by decide, by decide, by decide, by decide, by decide, by decide, Nat.le_add_left 1 _⟩

/-- The reset state meets the invariant. -/
theorem State.reset_inv : State.reset.Inv :=
  ⟨config_params_legal, reset_mem_wf, fun c hc => absurd hc List.not_mem_nil, SdRegs.reset_inv _,
    LmRegs.reset_inv Config.params, Nat.zero_le _, List.nil_suffix, fun hb => by simp [State.reset, SdRegs.reset] at hb⟩

/-- Settles O51: nothing is on loan at reset, and there are no records. -/
theorem resetMeetsTheInvariant : Obligations.ResetMeetsTheInvariant := by
  unfold Obligations.ResetMeetsTheInvariant
  exact ⟨State.reset_inv, State.emitted_of_no_records rfl⟩

/-- Refutes O55: from reset, with STREAM_LEN, START_CURSOR and ULEN 0, a START is ERR_CONTRACT with BYTES_LEFT 0. -/
theorem not_bytesLeftZeroIsTheSameAsComplete : ¬ Obligations.BytesLeftZeroIsTheSameAsComplete := by
  unfold Obligations.BytesLeftZeroIsTheSameAsComplete
  intro h
  have hstep : step { State.reset with agenda := [wr .sdCtrl 1] } = .next (beginSdRun .done .errContract State.reset) :=
    rfl
  have hcomplete := (h _ _ (State.reset_inv.withAgenda _) hstep rfl).mp rfl
  cases hcomplete

end Sys2Proof.Machine
end

section
/-! PROOFS. The register banks as the host sees them (10_state.md R37, R41 to R47): what each kind of offset reads as, and
what a register write changes. -/

namespace Sys2Proof.Machine

/-! ### Reads -/

/-- A status word holds STATE in its low bits and RESULT from bit 4 on (10_state.md R43, R46). -/
theorem statusWord_toNat {n : Nat} (result : BitVec n) (state : BitVec 2) (hn : n ≤ 28) :
    ((result ++ 0#2 ++ state).setWidth 32).toNat = state.toNat + 16 * result.toNat := by
  have hr := result.isLt
  have hs := state.isLt
  have hle : 2 ^ n ≤ 2 ^ 28 := Nat.pow_le_pow_right (by decide) hn
  rw [BitVec.toNat_setWidth, BitVec.toNat_append, BitVec.toNat_append, ← Nat.shiftLeft_add_eq_or_of_lt hs,
    ← Nat.shiftLeft_add_eq_or_of_lt (0#2).isLt, Nat.shiftLeft_eq, Nat.shiftLeft_eq, BitVec.toNat_ofNat]
  omega

/-- A reserved offset of the SD bank reads 0 (10_state.md R41). -/
theorem readSd_reserved (sd : SdRegs) {n : Nat} (h : 0x24 ≤ n) : readSd sd n = 0 := by
  unfold readSd
  split <;> try omega
  rfl

/-- An offset of the LM bank past the last window word reads 0 (10_state.md R44). -/
theorem readLm_reserved (mw : Nat) (lm : LmRegs) {n : Nat} (h : 0x20 + 8 * mw ≤ n) : readLm mw lm n = 0 := by
  have hno : ¬ (0x20 ≤ n ∧ windowIndex n < mw) := by simp only [windowIndex]; omega
  unfold readLm
  split <;> try omega
  exact if_neg hno

/-- Settles O37: each offset reads as the map of its bank has it. -/
theorem liveAndReservedRegistersReadAsMapped : Obligations.LiveAndReservedRegistersReadAsMapped := by
  unfold Obligations.LiveAndReservedRegistersReadAsMapped
  intro s n _ _ _
  have hconsumed : (readReg s .lm 0x10).toNat = s.lm.consumed.toNat :=
    BitVec.toNat_setWidth_of_le (by decide)
  exact ⟨statusWord_toNat s.sd.result.code s.sd.state.code (by decide),
    statusWord_toNat s.lm.result.code s.lm.state.code (by decide), rfl, rfl, rfl, rfl, rfl, readSd_reserved s.sd, hconsumed,
    toNat_of_halves s.lm.mask, rfl, rfl, readLm_reserved s.params.maxWords s.lm⟩

/-! ### Writes -/

/-- A write to an offset other than CTRL is no command (43_host_interface.md R202). -/
theorem step_writeReg {s : State} {bank : Bank} {n : Nat} {v : Word} {ag : List Move}
    (h : s.agenda = .write (.reg bank n) 32 v :: ag) (h0 : n ≠ 0) (h1 : n < 128) (h4 : n % 4 = 0) :
    step s = .next (writeReg { s with agenda := ag } bank n v) := by
  rw [step_write h h1 h4, writeAt, decodeCommand_other bank n v (.inl h0)]

/-- A write to a live, status or reserved register of the SD is ignored (10_state.md R47). -/
theorem writeSd_readOnly (p : Params) (sd : SdRegs) {n : Nat} (v : Word) (h : n = 0x04 ∨ 0x14 ≤ n) :
    writeSd p sd n v = sd := by
  unfold writeSd
  split
  · rfl
  · split <;> try omega
    rfl

/-- A write to a status, result or reserved register of the LM is ignored (10_state.md R47). -/
theorem writeLm_readOnly (mw : Nat) (lm : LmRegs) {n : Nat} (v : Word)
    (h : n = 0x04 ∨ (0x10 ≤ n ∧ n ≤ 0x1C) ∨ 0x20 + 8 * mw ≤ n) : writeLm mw lm n v = lm := by
  have hno : ¬ (0x20 ≤ n ∧ windowIndex n < mw) := by simp only [windowIndex]; omega
  unfold writeLm
  split
  · rfl
  · split <;> try omega
    exact if_neg hno

/-- Settles O38: such a write is no command, and the bank it goes to ignores it. -/
theorem readOnlyAndReservedWritesAreIgnored : Obligations.ReadOnlyAndReservedWritesAreIgnored := by
  unfold Obligations.ReadOnlyAndReservedWritesAreIgnored
  refine fun s ag n v h1 h4 => ⟨fun hag h => ?_, fun hag h => ?_⟩
  · rw [step_writeReg hag (by omega) h1 h4, writeReg, writeSd_readOnly _ _ _ h]
  · rw [step_writeReg hag (by omega) h1 h4, writeReg, writeLm_readOnly _ _ _ h]

/-! ### The two halves of a window word -/

/-- The half of a 64-bit register that its HI or its LO register shows (20_memory.md R67). -/
def half (hi : Bool) (d : DWord) : Word := if hi then hiHalf d else loHalf d

/-- A 64-bit register with the one or the other half replaced. -/
def setHalf (hi : Bool) (d : DWord) (v : Word) : DWord := if hi then setHiHalf d v else setLoHalf d v

/-- A half that is replaced is read back. -/
@[simp] theorem half_setHalf_same (hi : Bool) (d : DWord) (v : Word) : half hi (setHalf hi d v) = v := by
  cases hi
  · exact loHalf_setLoHalf d v
  · exact hiHalf_setHiHalf d v

/-- Replacing a half leaves the other. -/
@[simp] theorem half_setHalf_other (hi : Bool) (d : DWord) (v : Word) : half (!hi) (setHalf hi d v) = half (!hi) d := by
  cases hi
  · exact hiHalf_setLoHalf d v
  · exact loHalf_setHiHalf d v

/-- The offset of a half's register in the LM bank (10_state.md R44). -/
def halfOffset (hi : Bool) (i : Nat) : Nat := (if hi then 0x24 else 0x20) + 8 * i

/-- Where the other half stands. -/
theorem halfOffset_other (hi : Bool) (i : Nat) : halfOffset (!hi) i = (if hi then 0x20 else 0x24) + 8 * i := by
  cases hi <;> rfl

/-- The write that the assembler's name for a half stands for (30_encoding.md R103). -/
theorem wr_half (hi : Bool) (i : Nat) (v : Word) :
    wr (if hi then .lmWHi i else .lmWLo i) v = .write (.reg .lm (halfOffset hi i)) 32 v := by
  cases hi <;> rfl

/-- A read of a half of a window word. -/
theorem readLm_half (mw : Nat) (lm : LmRegs) (hi : Bool) {i : Nat} (h : i < mw) :
    readLm mw lm (halfOffset hi i) = half hi (lm.w.getD i 0) := by
  cases hi
  · exact readLm_lo mw lm i h
  · exact readLm_hi mw lm i h

/-- A write of a half of a window word. -/
theorem writeLm_half (mw : Nat) (lm : LmRegs) (hi : Bool) (i : Nat) (v : Word) (hb : lm.state ≠ .busy) :
    writeLm mw lm (halfOffset hi i) v =
      if i < mw then { lm with w := lm.w.set i (setHalf hi (lm.w.getD i 0) v) } else lm := by
  cases hi
  · exact writeLm_lo mw lm i v hb
  · exact writeLm_hi mw lm i v hb

/-- The step of a write of a half replaces that half of that word, below MAX_WORDS, and nothing else. -/
theorem step_write_half {s : State} {ag : List Move} {i : Nat} {hi : Bool} {v : Word} (hb : s.lm.state ≠ .busy)
    (h8 : i < 8) (hag : s.agenda = wr (if hi then .lmWHi i else .lmWLo i) v :: ag) :
    step s = .next { s with
      agenda := ag
      lm := if i < s.params.maxWords then { s.lm with w := s.lm.w.set i (setHalf hi (s.lm.w.getD i 0) v) }
        else s.lm } := by
  rw [wr_half] at hag
  have hoff : halfOffset hi i = 0x20 + 8 * i ∨ halfOffset hi i = 0x24 + 8 * i := by
    cases hi
    · exact .inl rfl
    · exact .inr rfl
  rw [step_writeReg hag (by omega) (by omega) (by omega), writeReg, writeLm_half _ _ _ _ _ hb]

/-- Settles O36: below MAX_WORDS the write replaces one half of one word of the window; beyond there is no word. -/
theorem windowHalvesAreWrittenAndReadApart : Obligations.WindowHalvesAreWrittenAndReadApart := by
  unfold Obligations.WindowHalvesAreWrittenAndReadApart
  intro s ag i hi v hI hb h8 hag
  refine ⟨_, step_write_half hb h8 hag, ?_⟩
  by_cases hmw : i < s.params.maxWords
  · have hlen : i < s.lm.w.length := by rw [hI.lm.words]; exact hmw
    have hword : (s.lm.w.set i (setHalf hi (s.lm.w.getD i 0) v)).getD i 0 = setHalf hi (s.lm.w.getD i 0) v := by
      simp [List.getD_eq_getElem?_getD, hlen]
    rw [if_pos hmw]
    refine ⟨rfl, fun h => absurd hmw (Nat.not_lt.mpr h), fun _ => ⟨?_, ?_, ?_⟩, fun j hj => ?_⟩
    · rw [← halfOffset]
      simp only [readReg, readLm_half _ _ hi hmw, hword, half_setHalf_same]
    · rw [← halfOffset_other]
      simp only [readReg, readLm_half _ _ (!hi) hmw, hword, half_setHalf_other]
    · exact windowWord_of_reads _ i hmw
    · simp [List.getD_eq_getElem?_getD, List.getElem?_set_ne (Ne.symm hj)]
  · rw [if_neg hmw]
    exact ⟨rfl, fun _ => rfl, fun h => absurd h hmw, fun j _ => rfl⟩

end Sys2Proof.Machine
end

section
/-! PROOFS. Stream memory (20_memory.md R61 to R76): who reads it, who writes it, and how long a run's stream is on loan. -/

namespace Sys2Proof.Machine

/-! ### Accesses of a form the block does not define -/

/-- A register access of another width or at a misaligned offset is refused, whatever it would do (20_memory.md R71). -/
theorem accessAt_otherForm (s : State) (bank : Bank) {n bits : Nat} (act : Bank → Nat → Result) (h1 : n < 128)
    (hform : bits ≠ 32 ∨ n % 4 ≠ 0) : accessAt s (.reg bank n) bits act = .refused .accessForm := by
  have hno : accessOk n bits = false := by simpa [accessOk, ← not_and_or] using hform
  simp [accessAt, locate, Config.bankBytes, h1, hno]

/-- Settles O40: the form is checked before the access is carried out. -/
theorem accessesOfAnotherFormAreRefused : Obligations.AccessesOfAnotherFormAreRefused := by
  unfold Obligations.AccessesOfAnotherFormAreRefused
  rintro s ag bank n bits v h1 hform (hag | hag) <;> rw [step_of_agenda hag]
  · exact accessAt_otherForm _ bank _ h1 hform
  · exact accessAt_otherForm _ bank _ h1 hform

/-! ### The units and memory -/

/-- Settles O41: the frames of an instruction and of the units' turns, and that the LM's turn depends on its registers and
MAX_WORDS alone. -/
theorem neitherUnitWritesMemory : Obligations.NeitherUnitWritesMemory := by
  unfold Obligations.NeitherUnitWritesMemory
  refine fun s t => ⟨fun i h a => ?_, fun ag hag h a => ?_, fun ag m hag h => ?_⟩
  · obtain ⟨hmem, -⟩ := exec_frame h
    simp only [State.memRead, hmem]
  · rcases hag with hag | hag <;> rw [step_of_agenda hag] at h
    · rw [sdMove_frame h]
      rfl
    · rw [lmMove_frame h]
      rfl
  · rw [step_of_agenda hag] at h
    rw [step_of_agenda (s := { s with mem := m }) hag]
    have hturn := lmMove_local (s := { s with agenda := ag }) (s' := { s with mem := m, agenda := ag }) rfl rfl h
    rw [lmMove_frame h]
    exact hturn

/-- Settles O45: a BUSY SD's turn is decided by its registers and the header window, which lies in the run's range. -/
theorem theSdReadsOnlyItsRange : Obligations.TheSdReadsOnlyItsRange := by
  unfold Obligations.TheSdReadsOnlyItsRange
  intro s t ag m hI hag hb hm h
  rw [step_of_agenda hag, runMove, sdMove_eq] at h
  injection h with h
  subst h
  have hwin : { s with mem := m, agenda := ag }.headerWindow = { s with agenda := ag }.headerWindow :=
    headerWindow_congr rfl fun a h1 h2 => hm a ((startCursor_le_cursor hI hb).trans h1) h2
  rw [step_of_agenda (s := { s with mem := m }) hag, runMove, sdMove_eq, hwin]
  exact congrArg _ (SdAct.run_mem _ { s with agenda := ag } m)

/-! ### Host writes of stream bytes -/

/-- A stream write by stream address and one by the platform address of the same byte are one move (20_memory.md R74). -/
theorem step_fill {s : State} {ag : List Move} {a : Nat} {b : Byte}
    (hag : s.agenda = .fill a b :: ag ∨ s.agenda = .fillBus (s.params.streamBase + a) b :: ag)
    (ha : a < 2 ^ s.params.curW) : step s = fillMove { s with agenda := ag } a b := by
  rcases hag with hag | hag <;> rw [step_of_agenda hag]
  · rfl
  · simp only [runMove, fillBusMove, locateStream_base _ _ ha]

/-- A write of a stream byte that exists and is not on loan is carried out (20_memory.md R61). -/
theorem fillMove_of_free {s : State} {a : Nat} (b : Byte) (ha : a < 2 ^ s.params.curW) (hfree : onLoan s a = false) :
    fillMove s a b = .next { s with mem := s.mem.write a b } := by
  rw [fillMove, if_neg (Nat.not_le.mpr ha), if_neg (ne_true_of_eq_false hfree)]

/-- A write of a stream byte that is on loan is refused (20_memory.md R76). -/
theorem fillMove_of_onLoan {s : State} {a : Nat} (b : Byte) (ha : a < 2 ^ s.params.curW) (hon : onLoan s a = true) :
    fillMove s a b = .refused .streamWriteDuringRun := by
  rw [fillMove, if_neg (Nat.not_le.mpr ha), if_pos hon]

/-- A platform address outside the stream memory names no stream byte (20_memory.md R74). -/
theorem locateStream_outside {p : Params} {addr : Nat} (h : addr < p.streamBase ∨ p.streamBase + 2 ^ p.curW ≤ addr) :
    locateStream p addr = none :=
  if_neg (by omega)

/-- Settles O42: the write is carried out, and the memory's read-after-write rules say what is read afterwards. -/
theorem aStreamWriteStoresOneByte : Obligations.AStreamWriteStoresOneByte := by
  unfold Obligations.AStreamWriteStoresOneByte
  refine fun s ag a b hI => ⟨fun hag ha hfree => ?_, fun hag hout => ?_⟩
  · have hstep : step s = .next { s with agenda := ag, mem := s.mem.write a b } :=
      (step_fill hag ha).trans (fillMove_of_free (s := { s with agenda := ag }) b ha hfree)
    exact ⟨_, hstep, Memory.read_write_same _ hI.mem_wf a b, fun x hx => Memory.read_write_other _ a x b hx, rfl⟩
  · rw [step_of_agenda hag]
    simp only [runMove, fillBusMove, locateStream_outside hout]

/-- A stream write into the range on loan is refused (20_memory.md R76). -/
theorem step_fill_lent {s : State} {ag : List Move} {a : Nat} {b : Byte} {l : Loan} (hl : s.loan = some l)
    (hag : s.agenda = .fill a b :: ag ∨ s.agenda = .fillBus (s.params.streamBase + a) b :: ag)
    (ha : a < 2 ^ s.params.curW) (hlo : l.lo.toNat ≤ a) (hhi : a < l.hi.toNat) :
    step s = .refused .streamWriteDuringRun := by
  have hon : onLoan { s with agenda := ag } a = true := by simp [onLoan, hl, hlo, hhi]
  exact (step_fill hag ha).trans (fillMove_of_onLoan b ha hon)

/-- Settles O43: a BUSY SD's range is on loan, and lies below `2^CUR_W`. -/
theorem streamWritesDuringARunAreRefused : Obligations.StreamWritesDuringARunAreRefused := by
  unfold Obligations.StreamWritesDuringARunAreRefused
  intro s ag a b hI hag hb hlo hhi
  exact step_fill_lent (hI.lent hb) hag (hhi.trans hI.sd.streamLen_fits) hlo hhi

/-! ### The loan -/

/-- The moves from `s` to `t` that end a loan or begin a new one: reset, a START of the SD that is taken, and the host's
read of `SD_STATUS` in state DONE (20_memory.md R76; log entry 11). -/
def ChangesLoan (mv : Option Move) (s t : State) : Prop :=
  mv = some .reset ∨
    (∃ at_ v, mv = some (.write at_ 32 v) ∧ locate s.params at_ = some (.sd, 0x00) ∧ v.getLsbD 0 = true ∧
      s.sd.state ≠ .busy ∧ t.sd.state ≠ .idle ∧ t.loan = some { lo := s.sd.startCursor, hi := s.sd.streamLen }) ∨
    (∃ at_, mv = some (.read at_ 32) ∧ locate s.params at_ = some (.sd, 0x04) ∧ s.sd.state = .done ∧ t.loan = none)

/-- A host read leaves the loan, or is one of `SD_STATUS` in state DONE and ends it. -/
theorem readAt_loan (s : State) (bank : Bank) (o : Nat) : (readAt s bank o).loan = s.loan ∨
    (bank = .sd ∧ o = 0x04 ∧ s.sd.state = .done ∧ (readAt s bank o).loan = none) := by
  cases hend : endsLoan s bank o with
  | false => exact .inl (by simp [readAt, hend])
  | true =>
    have hloan : (readAt s bank o).loan = none := by simp [readAt, hend]
    simp only [endsLoan, Bool.and_eq_true, decide_eq_true_eq] at hend
    obtain ⟨⟨hbank, ho⟩, hdone⟩ := hend
    exact .inr ⟨hbank, ho, hdone, hloan⟩

/-- A START of the SD is ignored, or is taken and lends the run its range (43_host_interface.md R206, R208). -/
theorem exec_sdStart_loan {s t : State} (h : exec .sdStart s = .next t) : t.loan = s.loan ∨
    (s.sd.state ≠ .busy ∧ t.sd.state ≠ .idle ∧ t.loan = some { lo := s.sd.startCursor, hi := s.sd.streamLen }) := by
  rcases execSdStart_cases s with ⟨-, e⟩ | ⟨hb, -, e⟩ | ⟨hb, -, e⟩ <;> rw [e] at h <;> injection h with h <;> subst h
  · exact .inl rfl
  · exact .inr ⟨hb, by simp, rfl⟩
  · exact .inr ⟨hb, by simp, rfl⟩

/-- A host write leaves the loan, or is a START of the SD that is taken. -/
theorem writeAt_loan {s t : State} {bank : Bank} {o : Nat} {v : Word} (h : writeAt s bank o v = .next t) :
    t.loan = s.loan ∨ (bank = .sd ∧ o = 0x00 ∧ v.getLsbD 0 = true ∧ s.sd.state ≠ .busy ∧ t.sd.state ≠ .idle ∧
      t.loan = some { lo := s.sd.startCursor, hi := s.sd.streamLen }) := by
  rcases writeAt_cases s bank o v with ⟨hbank, ho, hv, e⟩ | ⟨-, -, -, e⟩ | e <;> rw [e] at h
  · exact (exec_sdStart_loan h).imp_right fun htaken => ⟨hbank, ho, hv, htaken⟩
  · rcases execLmStart_cases s with ⟨-, e⟩ | ⟨-, e⟩ <;> rw [e] at h <;> injection h with h <;> subst h
    · exact .inl rfl
    · exact .inl rfl
  · injection h with h
    subst h
    cases bank
    · exact .inl rfl
    · exact .inl rfl

/-- A move leaves the loan, or is one of those that change it. -/
theorem runMove_loan {mv : Move} {s t : State} (h : runMove mv s = .next t) :
    t.loan = s.loan ∨ ChangesLoan (some mv) s t := by
  cases mv with
  | sd => exact .inl (by rw [sdMove_frame h])
  | lm => exact .inl (by rw [lmMove_frame h])
  | sink =>
    injection h with h
    exact .inl (by rw [← h, sinkMove_frame])
  | reset => exact .inr (.inl rfl)
  | read at_ bits =>
    rcases accessAt_cases s at_ bits (fun bank o => .next (readAt s bank o)) with ⟨r, e⟩ | ⟨bank, o, hat, rfl, e⟩ <;>
      rw [runMove, e] at h
    · cases h
    · injection h with h
      subst h
      refine (readAt_loan s bank o).imp_right ?_
      rintro ⟨rfl, rfl, hdone, hloan⟩
      exact .inr (.inr ⟨at_, rfl, hat, hdone, hloan⟩)
  | write at_ bits v =>
    rcases accessAt_cases s at_ bits (fun bank o => writeAt s bank o v) with ⟨r, e⟩ | ⟨bank, o, hat, rfl, e⟩ <;>
      rw [runMove, e] at h
    · cases h
    · refine (writeAt_loan h).imp_right ?_
      rintro ⟨rfl, rfl, hv, htaken⟩
      exact .inr (.inl ⟨at_, v, rfl, hat, hv, htaken⟩)
  | fill a b =>
    obtain ⟨-, -, rfl⟩ := fillMove_next h
    exact .inl rfl
  | fillBus addr b =>
    rcases fillBusMove_cases s addr b with e | ⟨a, e⟩ <;> rw [runMove, e] at h
    · cases h
    · obtain ⟨-, -, rfl⟩ := fillMove_next h
      exact .inl rfl

/-- The fair order gives turns to the units and the SINK alone (log entry 5). -/
theorem fairMove_cases {s : State} {mv : Move} (h : fairMove s = some mv) : mv = .lm ∨ mv = .sink ∨ mv = .sd := by
  simp only [fairMove] at h
  split at h
  · exact .inl (Option.some.inj h).symm
  · split at h
    · exact .inr (.inl (Option.some.inj h).symm)
    · split at h
      · exact .inr (.inr (Option.some.inj h).symm)
      · cases h

/-- A step leaves the loan, or its move is one of those that change it. -/
theorem step_loan {s t : State} (h : step s = .next t) : t.loan = s.loan ∨ ChangesLoan s.agenda.head? s t := by
  cases hag : s.agenda with
  | cons mv ag =>
    rw [step_of_agenda hag] at h
    exact runMove_loan (s := { s with agenda := ag }) h
  | nil =>
    refine .inl ?_
    rcases step_of_no_agenda hag with ⟨mv, hfair, e⟩ | ⟨-, e⟩ <;> rw [e] at h
    · refine (runMove_loan h).resolve_right fun hchange => ?_
      rcases fairMove_cases hfair with rfl | rfl | rfl <;> simp [ChangesLoan] at hchange
    · injection h with h
      rw [h]

/-- Settles O44: a write into the range on loan is refused, and each move that changes the loan is one of the three. -/
theorem theLoanLastsUntilTheHostReadsDone : Obligations.TheLoanLastsUntilTheHostReadsDone := by
  unfold Obligations.TheLoanLastsUntilTheHostReadsDone
  refine fun s t l hl => ⟨fun ag a b hag => step_fill_lent hl hag, fun h => ?_⟩
  rw [← hl]
  exact step_loan h

end Sys2Proof.Machine
end

section
/-! PROOFS. The encodings of 30_encoding.md: the decoder and the encoder are inverses, what each tag byte and each field
stands for, and the words that are commands. -/

namespace Sys2Proof.Machine

/-! ### Decoding an encoded instruction -/

/-- What Laws/PerInstr.lean states of each constructor holds of every instruction. -/
theorem encodingWidth_statement : ∀ i : Instr, Laws.EncodingWidth.Statement i
  | .litShort l => Laws.EncodingWidth.litShort l
  | .litMid l => Laws.EncodingWidth.litMid l
  | .litExt1 v => Laws.EncodingWidth.litExt1 v
  | .litExt2 v => Laws.EncodingWidth.litExt2 v
  | .litExt3 v => Laws.EncodingWidth.litExt3 v
  | .litExt4 v => Laws.EncodingWidth.litExt4 v
  | .copy1 l off => Laws.EncodingWidth.copy1 l off
  | .copy2 l off => Laws.EncodingWidth.copy2 l off
  | .copy4 l off => Laws.EncodingWidth.copy4 l off
  | .len3W2 => Laws.EncodingWidth.len3W2
  | .len3W3 => Laws.EncodingWidth.len3W3
  | .sdStart => Laws.EncodingWidth.sdStart
  | .lmStart => Laws.EncodingWidth.lmStart

/-- A stream symbol is encoded by its header, a tag byte and its class's extension bytes. -/
theorem encode_symbol {i : Instr} {cls : TagClass} (hc : i.tagClass? = some cls) :
    encode i = .stream i.header ∧ i.header.length = 1 + cls.nx := by
  have h := encodingWidth_statement i
  simp only [Laws.EncodingWidth.Statement, hc] at h
  obtain ⟨henc, hlen, -⟩ := h
  exact ⟨henc, hlen⟩

/-- A row that is no stream symbol, a window flag or a host command, decodes from its words. -/
theorem decode_encode_of_no_class {i : Instr} (hc : i.tagClass? = none) : decode (encode i) = .ok i := by
  cases i with
  | len3W2 | len3W3 | sdStart | lmStart => rfl
  | _ => cases hc

/-- Settles O1: a stream symbol is read back from its header with nothing left over; the other rows are four words. -/
theorem decodeOfEncodeIsTheInstruction : Obligations.DecodeOfEncodeIsTheInstruction := by
  unfold Obligations.DecodeOfEncodeIsTheInstruction
  intro i hw
  cases hc : i.tagClass? with
  | none => exact decode_encode_of_no_class hc
  | some cls =>
    obtain ⟨henc, -⟩ := encode_symbol hc
    have hdec := decodeStream_header i cls [] hw hc
    rw [List.append_nil] at hdec
    rw [henc, decode, hdec]
    rfl

/-! ### Encoding a decoded symbol -/

/-- A decoded symbol is well-formed, and its header is the bytes it was read from: each class's tag byte and extension
bytes are put together again from the fields read (30_encoding.md R89 to R95). -/
theorem header_of_decoded {bs rest : List Byte} {i : Instr} (h : decodeStream bs = .ok (i, rest)) :
    i.wellFormed = true ∧ i.header ++ rest = bs := by
  cases bs with
  | nil => cases h
  | cons b0 tail =>
    simp only [decodeStream] at h
    split at h <;> cases h
    next hc => exact ⟨rfl, by simp [Instr.header, litShort_byte b0 hc]⟩
    next hc =>
      obtain ⟨hbyte, h4, h59⟩ := litMid_byte b0 hc
      exact ⟨by simp only [Instr.wellFormed, h4, h59, decide_true, Bool.and_self], by simp [Instr.header, hbyte]⟩
    next hc => exact ⟨rfl, by simp [Instr.header, litExt1_byte b0 hc]⟩
    next hc => exact ⟨rfl, by simp [Instr.header, litExt2_byte b0 hc]⟩
    next hc => exact ⟨rfl, by simp [Instr.header, litExt3_byte b0 hc]⟩
    next hc => exact ⟨rfl, by simp [Instr.header, litExt4_byte b0 hc]⟩
    next hc => exact ⟨rfl, by simp [Instr.header, copy1_byte b0 hc]⟩
    next hc => exact ⟨rfl, by simp [Instr.header, copy2_byte b0 hc]⟩
    next hc => exact ⟨rfl, by simp [Instr.header, copy4_byte b0 hc]⟩

/-- Settles O2: the fields read from a header make up its bytes again. -/
theorem decodedSymbolEncodesToTheBytesRead : Obligations.DecodedSymbolEncodesToTheBytesRead := by
  unfold Obligations.DecodedSymbolEncodesToTheBytesRead
  intro bs i rest h
  obtain ⟨hw, hbytes⟩ := header_of_decoded h
  obtain ⟨cls, hc⟩ := decoded_is_symbol h
  obtain ⟨-, hlen⟩ := encode_symbol hc
  exact ⟨hw, hbytes, cls, hc, hlen⟩

/-! ### When decoding fails -/

/-- A cut header names the class of its tag byte. -/
theorem tagClass_of_headerCut {b0 : Byte} {rest : List Byte} {cls : TagClass}
    (h : decodeStream (b0 :: rest) = .error (.headerCut cls)) : cls = tagClass b0 := by
  simp only [decodeStream] at h
  split at h <;> cases h
  rfl

/-- With all its extension bytes there, a tag byte decodes to a symbol of its class, leaving the bytes after. -/
theorem decodeStream_of_extension_bytes {b0 : Byte} {rest : List Byte} (h : (tagClass b0).nx ≤ rest.length) :
    ∃ i, i.tagClass? = some (tagClass b0) ∧ decodeStream (b0 :: rest) = .ok (i, rest.drop (tagClass b0).nx) := by
  obtain ⟨i, hi⟩ := decodeStream_exact b0 (rest.take (tagClass b0).nx) (List.length_take_of_le h)
  have hdec := hi (rest.drop (tagClass b0).nx)
  rw [List.take_append_drop] at hdec
  exact ⟨i, tagClass_of_decoded hdec, hdec⟩

/-- Settles O4: a tag byte decodes or its header is cut, by the number of bytes after it. -/
theorem onlyAMissingExtensionByteStopsDecoding : Obligations.OnlyAMissingExtensionByteStopsDecoding := by
  unfold Obligations.OnlyAMissingExtensionByteStopsDecoding
  refine fun b0 rest => ⟨fun hshort => ?_, decodeStream_of_extension_bytes⟩
  rcases decodeStream_cases b0 rest with ⟨-, cls, hcut⟩ | ⟨hlong, -⟩
  · rw [hcut, tagClass_of_headerCut hcut]
  · omega

/-! ### The table of tag bytes -/

theorem tagClass_of_mod_four_one {b : Byte} (h : b.toNat % 4 = 1) : tagClass b = .copy1 := by revert b; decide
theorem tagClass_of_mod_four_two {b : Byte} (h : b.toNat % 4 = 2) : tagClass b = .copy2 := by revert b; decide
theorem tagClass_of_mod_four_three {b : Byte} (h : b.toNat % 4 = 3) : tagClass b = .copy4 := by revert b; decide

theorem tagClass_of_short_length {b : Byte} (h : b.toNat % 4 = 0) (h16 : b.toNat < 16) : tagClass b = .litShort := by
  revert b; decide

theorem tagClass_of_middle_length {b : Byte} (h : b.toNat % 4 = 0) (h16 : 16 ≤ b.toNat) (h59 : b.toNat / 4 ≤ 59) :
    tagClass b = .litMid := by
  revert b; decide

/-- Settles O3, row by row. -/
theorem tagBytesAreClassifiedByTheTable : Obligations.TagBytesAreClassifiedByTheTable := by
  unfold Obligations.TagBytesAreClassifiedByTheTable
  intro b0
  have extended (c : Byte) (hc : b0.toNat = c.toNat) : b0 = c := BitVec.eq_of_toNat_eq hc
  exact ⟨tagClass_of_mod_four_one, tagClass_of_mod_four_two, tagClass_of_mod_four_three, tagClass_of_short_length,
    tagClass_of_middle_length,
    fun h => extended 0xF0#8 h ▸ tagClass_litExt1, fun h => extended 0xF4#8 h ▸ tagClass_litExt2,
    fun h => extended 0xF8#8 h ▸ tagClass_litExt3, fun h => extended 0xFC#8 h ▸ tagClass_litExt4, rfl⟩

/-! ### The fields as numbers -/

/-- A field of a byte, as a number. -/
theorem byte_field_toNat (b : Byte) (lo width : Nat) :
    (b.extractLsb' lo width).toNat = b.toNat / 2 ^ lo % 2 ^ width := by
  rw [BitVec.extractLsb'_toNat, Nat.shiftRight_eq_div_pow]

/-- `L6 = b0[7:2]` is the byte without its two low bits (30_encoding.md R90, R94, R95). -/
theorem upper_six_toNat (b : Byte) : (b.extractLsb' 2 6).toNat = b.toNat / 4 := by
  rw [byte_field_toNat]
  omega

/-- Settles O5: the class comes from the tag byte's two low bits, the fields from the bits above and the bytes after. -/
theorem copyFieldsAreReadFromTheirBytes : Obligations.CopyFieldsAreReadFromTheirBytes := by
  unfold Obligations.CopyFieldsAreReadFromTheirBytes
  intro b0 b1 b2 b3 b4 rest
  refine ⟨fun h => ?copy1, fun h => ?copy2, fun h => ?copy4⟩
  case copy1 =>
    refine ⟨b0.extractLsb' 2 3, b0.extractLsb' 5 3 ++ b1,
      by simp only [decodeStream, tagClass_of_mod_four_one h], ?_, ?_⟩
    · rw [blen, byte_field_toNat]
      omega
    · rw [offset11_toNat, byte_field_toNat]
      omega
  case copy2 =>
    exact ⟨b0.extractLsb' 2 6, b2 ++ b1, by simp only [decodeStream, tagClass_of_mod_four_two h],
      by rw [blen, upper_six_toNat], le2_toNat b1 b2⟩
  case copy4 =>
    exact ⟨b0.extractLsb' 2 6, b4 ++ b3 ++ b2 ++ b1, by simp only [decodeStream, tagClass_of_mod_four_three h],
      by rw [blen, upper_six_toNat], le4_toNat b1 b2 b3 b4⟩

/-- A literal without extension bytes has the length of its tag byte's upper six bits, plus 1. -/
theorem inline_literal_length {b0 : Byte} (rest : List Byte) (h : b0.toNat % 4 = 0) (h59 : b0.toNat / 4 ≤ 59) :
    ∃ i cls, decodeStream (b0 :: rest) = .ok (i, rest) ∧ i.tagClass? = some cls ∧ cls.kind = .lit ∧
      blen i = b0.toNat / 4 + 1 := by
  rcases Nat.lt_or_ge b0.toNat 16 with h16 | h16
  · refine ⟨.litShort (b0.extractLsb' 2 2), .litShort,
      by simp only [decodeStream, tagClass_of_short_length h h16], rfl, rfl, ?_⟩
    rw [blen, byte_field_toNat]
    omega
  · exact ⟨.litMid (b0.extractLsb' 2 6), .litMid,
      by simp only [decodeStream, tagClass_of_middle_length h h16 h59], rfl,
      rfl, by rw [blen, upper_six_toNat]⟩

/-- Settles O6: the length is in the tag byte, or in the extension bytes of the four highest literal tag bytes. -/
theorem literalLengthsAreReadFromTheirBytes : Obligations.LiteralLengthsAreReadFromTheirBytes := by
  unfold Obligations.LiteralLengthsAreReadFromTheirBytes
  intro b0 e1 e2 e3 e4 rest
  exact ⟨inline_literal_length rest, ⟨.litExt1 e1, .litExt1, rfl, rfl, rfl, rfl⟩,
    ⟨.litExt2 (e2 ++ e1), .litExt2, rfl, rfl, rfl, congrArg (· + 1) (le2_toNat e1 e2)⟩,
    ⟨.litExt3 (e3 ++ e2 ++ e1), .litExt3, rfl, rfl, rfl, congrArg (· + 1) (le3_toNat e1 e2 e3)⟩,
    ⟨.litExt4 (e4 ++ e3 ++ e2 ++ e1), .litExt4, rfl, rfl, rfl, congrArg (· + 1) (le4_toNat e1 e2 e3 e4)⟩⟩

/-! ### Assembled lines -/

/-- The shortest copy form. -/
theorem shortestCopy_decodes {len off : Nat} {bs : List Byte} (h : asmCore (shortestCopy len off) = some bs) :
    DecodesToCopy len off bs := by
  rw [shortestCopy] at h
  split at h
  · exact asmCopy1_decodes h
  · split at h
    · exact asmCopy2_decodes h
    · exact asmCopy4_decodes h

/-- Settles O60, form by form. -/
theorem assembledLinesDecode : Obligations.AssembledLinesDecode := by
  unfold Obligations.AssembledLinesDecode
  refine ⟨fun p bs line hline h => ?_, fun len off bs line hline h => ?_⟩ <;>
    simp only [List.mem_cons, List.not_mem_nil, or_false] at hline
  · rcases hline with rfl | rfl | rfl | rfl | rfl | rfl | rfl
    · exact shortestLit_decodes h
    · exact asmLit_decodes (by omega) (by omega) h
    · exact asmLit_decodes (by omega) (by omega) h
    all_goals exact asmLitX_decodes h
  · rcases hline with rfl | rfl | rfl | rfl
    · exact shortestCopy_decodes h
    · exact asmCopy1_decodes h
    · exact asmCopy2_decodes h
    · exact asmCopy4_decodes h

/-! ### Words of the spec -/

/-- Settles O7: each word is decoded by evaluation. -/
theorem wordsOfTheSpecDecode : Obligations.WordsOfTheSpecDecode := by
  unfold Obligations.WordsOfTheSpecDecode
  decide

/-! ### Commands by address -/

/-- The SD's bank starts at SD_BASE (20_memory.md R65). -/
theorem locate_sdBase (p : Params) : locate p (.bus p.sdBase) = some (.sd, 0) := by
  simp [locate, Config.bankBytes]

/-- The LM's bank starts at LM_BASE, where that lies outside the SD's bank (20_memory.md R65; log entry 12). -/
theorem locate_lmBase {p : Params} (h : p.lmBase < p.sdBase ∨ p.sdBase + 128 ≤ p.lmBase) :
    locate p (.bus p.lmBase) = some (.lm, 0) := by
  have outside : ¬ (p.sdBase ≤ p.lmBase ∧ p.lmBase < p.sdBase + Config.bankBytes) := by
    simp only [Config.bankBytes]
    omega
  simp [locate, outside, Config.bankBytes]

/-- A 32-bit write to the place of a bank's offset 0 is a write to that bank's CTRL. -/
theorem step_write_ctrl {s : State} {at_ : Place} {bank : Bank} {v : Word} {ag : List Move}
    (hag : s.agenda = .write at_ 32 v :: ag) (hloc : locate s.params at_ = some (bank, 0)) :
    step s = writeAt { s with agenda := ag } bank 0 v := by
  rw [step_of_agenda hag]
  simp [runMove, accessAt, hloc, accessOk]

/-- Settles O9: each base is its bank's offset 0, and a word with bit 0 set there is the START. -/
theorem stepRunsTheCommandWritten : Obligations.StepRunsTheCommandWritten := by
  unfold Obligations.StepRunsTheCommandWritten
  refine fun s ag v hv => ⟨fun hag => ?_, fun hag hout => ?_⟩
  · rw [step_write_ctrl hag (locate_sdBase s.params), writeAt, decodeCommand_start .sd v hv]
  · rw [step_write_ctrl hag (locate_lmBase hout), writeAt, decodeCommand_start .lm v hv]

end Sys2Proof.Machine
end

section
/-! PROOFS. The Symbol Decoder (40_symbol_decoder.md): its turn up to the symbol at the cursor, what each symbol does
with its checks in their order, the port and the SINK, and the end of a run. -/

namespace Sys2Proof.Machine

/-! ### The turn before the symbol -/

/-- A BUSY SD that owes nothing completes (40_symbol_decoder.md R119). -/
theorem sdMove_of_nothing_owed {s : State} (hb : s.sd.state = .busy) (h0 : s.sd.bytesLeft = 0) :
    sdMove s = .next (stopped s .complete) := by
  rcases sdMove_cases s hb with ⟨-, e⟩ | ⟨hne, -⟩ | ⟨hne, -⟩ | ⟨hne, -⟩
  · exact e
  all_goals exact absurd h0 hne

/-- A BUSY SD that owes output finds no tag byte at the stream's end (40_symbol_decoder.md R120). -/
theorem sdMove_of_no_tag_byte {s : State} (hb : s.sd.state = .busy) (hne : s.sd.bytesLeft ≠ 0)
    (hend : s.sd.streamLen.toNat ≤ s.sd.cursor.toNat) : sdMove s = .next (stopped s .endOfStream) := by
  rcases sdMove_cases s hb with ⟨h0, -⟩ | ⟨-, -, e⟩ | ⟨-, hin, -⟩ | ⟨-, hin, -⟩
  · exact absurd h0 hne
  · exact e
  all_goals omega

/-- A BUSY SD that owes output stops at a header the stream's end cuts short (40_symbol_decoder.md R122). -/
theorem sdMove_of_cut_header {s : State} (hb : s.sd.state = .busy) (hne : s.sd.bytesLeft ≠ 0)
    (hin : s.sd.cursor.toNat < s.sd.streamLen.toNat)
    (hcut : s.sd.streamLen.toNat < s.sd.cursor.toNat + 1 + (tagClass (s.memRead s.sd.cursor.toNat)).nx) :
    sdMove s = .next (stopped s .truncated) := by
  rcases sdMove_cases s hb with ⟨h0, -⟩ | ⟨-, hend, -⟩ | ⟨-, -, -, e⟩ | ⟨-, hall, -⟩
  · exact absurd h0 hne
  · omega
  · exact e
  · omega

/-- Settles O11: nothing owed is found out before memory is looked at. -/
theorem completionIsCheckedBeforeAnyByte : Obligations.CompletionIsCheckedBeforeAnyByte := by
  unfold Obligations.CompletionIsCheckedBeforeAnyByte
  intro s ag m hag hb h0
  exact (step_of_agenda (s := { s with mem := m }) hag).trans (sdMove_of_nothing_owed hb h0)

/-- Settles O12: the two ways a header's bytes can be missing, told apart by the cursor. -/
theorem missingHeaderBytesStopTheRun : Obligations.MissingHeaderBytesStopTheRun := by
  unfold Obligations.MissingHeaderBytesStopTheRun
  intro s ag hag hb hne
  rw [step_of_agenda hag]
  exact ⟨sdMove_of_no_tag_byte (s := { s with agenda := ag }) hb hne,
    sdMove_of_cut_header (s := { s with agenda := ag }) hb hne⟩

/-! ### The symbol at the cursor -/

/-- Stream bytes split into the first `n` and those after them. -/
theorem streamBytes_add (s : State) (a n m : Nat) :
    s.streamBytes a (n + m) = s.streamBytes a n ++ s.streamBytes (a + n) m := by
  simp [State.streamBytes, List.range_add, Nat.add_assoc]

/-- Stream bytes that are those of a list, one by one, are the list. -/
theorem streamBytes_eq {s : State} {a : Nat} {bs : List Byte}
    (h : ∀ k < bs.length, s.memRead (a + k) = bs.getD k 0) : s.streamBytes a bs.length = bs := by
  refine List.ext_getElem (by simp [State.streamBytes]) fun k _ hk => ?_
  simp [State.streamBytes, h k hk, hk]

/-- No header is longer than what the SD fetches (30_encoding.md R86). -/
theorem header_length_le {i : Instr} {cls : TagClass} (hc : i.tagClass? = some cls) :
    i.header.length ≤ maxHeaderBytes := by
  obtain ⟨-, hlen⟩ := encode_symbol hc
  rw [hlen]
  cases cls <;> decide

/-- A header at the cursor that ends inside the stream begins the header window. -/
theorem headerWindow_of_header {s : State} {i : Instr} {cls : TagClass} (hc : i.tagClass? = some cls)
    (hin : s.sd.cursor.toNat + i.header.length ≤ s.sd.streamLen.toNat)
    (hmem : ∀ k < i.header.length, s.memRead (s.sd.cursor.toNat + k) = i.header.getD k 0) :
    ∃ rest, s.headerWindow = i.header ++ rest := by
  have hle := header_length_le hc
  obtain ⟨m, hm⟩ := Nat.exists_eq_add_of_le
    (show i.header.length ≤ min maxHeaderBytes (s.sd.streamLen.toNat - s.sd.cursor.toNat) by omega)
  exact ⟨_, by rw [State.headerWindow, hm, streamBytes_add, streamBytes_eq hmem]⟩

/-- Settles O8: the header window begins with the symbol's header, which decodes to the symbol. -/
theorem stepRunsTheSymbolAtTheCursor : Obligations.StepRunsTheSymbolAtTheCursor := by
  unfold Obligations.StepRunsTheSymbolAtTheCursor
  intro s ag i cls hag hb hne hw hc hin hmem
  obtain ⟨rest, hwin⟩ := headerWindow_of_header (s := { s with agenda := ag }) hc hin hmem
  rw [step_of_agenda hag]
  simp only [runMove, sdMove, hb, hne, hwin, decodeStream_header i cls rest hw hc, ne_eq, not_true_eq_false, if_false]

/-! ### A symbol's checks -/

/-- A symbol whose extension bytes are not all in the stream stops before its length or offset is looked at
(40_symbol_decoder.md R122). -/
theorem exec_of_cut_header {i : Instr} {cls : TagClass} {s : State} (hc : i.tagClass? = some cls) (hn : 1 ≤ cls.nx)
    (hcut : s.sd.streamLen.toNat < s.sd.cursor.toNat + 1 + cls.nx) : exec i s = .next (stopped s .truncated) := by
  cases hk : cls.kind with
  | lit =>
    obtain ⟨-, e⟩ := (extendedLiteral_cases cls (blen i) s).resolve_right (by omega)
    exact (exec_extended_literal hc hk hn s).trans e
  | copy =>
    obtain ⟨-, e⟩ := (copySymbol_cases cls (blen i) (copyOffset i) s).resolve_right (by omega)
    exact (exec_copy hc hk s).trans e

/-- A literal whose header is in the stream, or which has no extension byte to check, goes on to its length. -/
theorem exec_literal {i : Instr} {cls : TagClass} {s : State} (hc : i.tagClass? = some cls) (hk : cls.kind = .lit)
    (hh : cls.nx = 0 ∨ s.sd.cursor.toNat + 1 + cls.nx ≤ s.sd.streamLen.toNat) : exec i s = literalBody cls (blen i) s := by
  by_cases hn : cls.nx = 0
  · exact exec_inline_literal hc hk hn s
  · have hall := hh.resolve_left hn
    obtain ⟨-, e⟩ := (extendedLiteral_cases cls (blen i) s).resolve_left (by omega)
    exact (exec_extended_literal hc hk (by omega) s).trans e

/-- The stops of a literal that goes on to its length, in their order (40_symbol_decoder.md R123). -/
theorem literal_stops {i : Instr} {cls : TagClass} {s : State} (hc : i.tagClass? = some cls) (hk : cls.kind = .lit)
    (hh : cls.nx = 0 ∨ s.sd.cursor.toNat + 1 + cls.nx ≤ s.sd.streamLen.toNat) :
    (s.sd.bytesLeft.toNat < blen i → exec i s = .next (stopped s .overrun)) ∧
    (blen i ≤ s.sd.bytesLeft.toNat → s.sd.streamLen.toNat < s.sd.cursor.toNat + 1 + cls.nx + blen i →
      exec i s = .next (stopped s .truncated)) := by
  rw [exec_literal hc hk hh]
  rcases literalBody_cases cls (blen i) s with ⟨hover, e⟩ | ⟨howed, hpast, e⟩ | ⟨howed, hin, -⟩
  · exact ⟨fun _ => e, fun _ => by omega⟩
  · exact ⟨fun _ => by omega, fun _ _ => e⟩
  · exact ⟨fun _ => by omega, fun _ _ => by omega⟩

/-- The stops of a copy whose header is in the stream, in their order (40_symbol_decoder.md R124). -/
theorem copy_stops {i : Instr} {cls : TagClass} {s : State} (hc : i.tagClass? = some cls) (hk : cls.kind = .copy)
    (hall : s.sd.cursor.toNat + 1 + cls.nx ≤ s.sd.streamLen.toNat) :
    (s.sd.bytesLeft.toNat < blen i → exec i s = .next (stopped s .overrun)) ∧
    (blen i ≤ s.sd.bytesLeft.toNat → copyOffset i = 0 ∨ s.sd.dstPos.toNat < copyOffset i →
      exec i s = .next (stopped s .badOffset)) := by
  rw [exec_copy hc hk]
  rcases copySymbol_cases cls (blen i) (copyOffset i) s with
    ⟨hcut, -⟩ | ⟨-, ⟨hover, e⟩ | ⟨howed, hbad, e⟩ | ⟨howed, hoff, hback, -⟩⟩
  · omega
  · exact ⟨fun _ => e, fun _ => by omega⟩
  · exact ⟨fun _ => by omega, fun _ _ => e⟩
  · exact ⟨fun _ => by omega, fun _ _ => by omega⟩

/-! ### An accepted symbol -/

/-- A literal passes every check when its bytes are owed and its payload ends inside the stream
(40_symbol_decoder.md R123). -/
theorem accepts_literal {i : Instr} {cls : TagClass} {sd : SdRegs} (hk : cls.kind = .lit)
    (howed : blen i ≤ sd.bytesLeft.toNat) (hin : sd.cursor.toNat + 1 + cls.nx + blen i ≤ sd.streamLen.toNat) :
    accepts i cls sd :=
  ⟨howed, by rw [hk]; exact hin⟩

/-- A copy passes every check when its header is there, its bytes are owed and its offset reaches back into the output
(40_symbol_decoder.md R122, R124). -/
theorem accepts_copy {i : Instr} {cls : TagClass} {sd : SdRegs} (hk : cls.kind = .copy)
    (hall : sd.cursor.toNat + 1 + cls.nx ≤ sd.streamLen.toNat) (howed : blen i ≤ sd.bytesLeft.toNat)
    (hoff : 1 ≤ copyOffset i) (hback : copyOffset i ≤ sd.dstPos.toNat) : accepts i cls sd :=
  ⟨howed, by rw [hk]; exact ⟨hall, hoff, hback⟩⟩

/-- With room at the port an accepted symbol's record is appended (40_symbol_decoder.md R118, R125). -/
theorem exec_of_accepts {i : Instr} {cls : TagClass} {s : State} (hc : i.tagClass? = some cls)
    (ha : accepts i cls s.sd) (hroom : s.port.length < s.params.sinkDepth) :
    exec i s = .next (pushRecord (symbolRecord i cls s.sd) s) := by
  rcases exec_symbol_outcomes hc s with ⟨hna, -⟩ | ⟨-, hfull, -⟩ | ⟨-, -, e⟩
  · exact absurd ha hna
  · omega
  · exact e

/-- Under the invariant the commit of an accepted symbol is exact in the four live registers. -/
theorem committed_of_accepts {i : Instr} {cls : TagClass} {s : State} (hI : s.Inv) (hc : i.tagClass? = some cls)
    (ha : accepts i cls s.sd) :
    Committed s (pushRecord (symbolRecord i cls s.sd) s) (symbolRecord i cls s.sd) := by
  obtain ⟨-, -, -, hlenW, -⟩ := hI.params
  have hw := two_pow_width_le hlenW
  have howed := hI.sd.owed_fits
  exact pushRecord_committed ha (by omega) hI.sd.count_le hc

/-- The record of an accepted literal (40_symbol_decoder.md R117, R126 to R131). -/
theorem literal_record_is {i : Instr} {cls : TagClass} {sd : SdRegs} (hk : cls.kind = .lit) (ha : accepts i cls sd) :
    (symbolRecord i cls sd).Is cls .lit sd.cursor.toNat (1 + cls.nx + blen i) sd.dstPos.toNat (blen i) 0
      (sd.cursor.toNat + 1 + cls.nx) := by
  obtain ⟨hcls, hkind, htag, hdst, hlen, hlit, -⟩ := symbolRecord_fields ha
  obtain ⟨hoff, hstart, hwidth⟩ := hlit hk
  exact ⟨hcls, hkind.trans hk, by rw [htag], hwidth, by rw [hdst], hlen, by rw [hoff]; rfl, hstart⟩

/-- The record of an accepted copy (40_symbol_decoder.md R117, R132 to R134). -/
theorem copy_record_is {i : Instr} {cls : TagClass} {sd : SdRegs} (hk : cls.kind = .copy) (ha : accepts i cls sd) :
    (symbolRecord i cls sd).Is cls .copy sd.cursor.toNat (1 + cls.nx) sd.dstPos.toNat (blen i) (copyOffset i) 0 := by
  obtain ⟨hcls, hkind, htag, hdst, hlen, -, hcopy⟩ := symbolRecord_fields ha
  obtain ⟨hoff, hstart, hwidth⟩ := hcopy hk
  exact ⟨hcls, hkind.trans hk, by rw [htag], hwidth, by rw [hdst], hlen, hoff, by rw [hstart]; rfl⟩

/-- A literal that passes its checks is committed, with room at the port (40_symbol_decoder.md R125). -/
theorem literal_committed {i : Instr} {cls : TagClass} {s : State} (hI : s.Inv) (hc : i.tagClass? = some cls)
    (hk : cls.kind = .lit) (howed : blen i ≤ s.sd.bytesLeft.toNat)
    (hin : s.sd.cursor.toNat + 1 + cls.nx + blen i ≤ s.sd.streamLen.toNat)
    (hroom : s.port.length < s.params.sinkDepth) :
    ∃ t r, exec i s = .next t ∧ Committed s t r ∧
      r.Is cls .lit s.sd.cursor.toNat (1 + cls.nx + blen i) s.sd.dstPos.toNat (blen i) 0
        (s.sd.cursor.toNat + 1 + cls.nx) := by
  have ha := accepts_literal hk howed hin
  exact ⟨_, _, exec_of_accepts hc ha hroom, committed_of_accepts hI hc ha, literal_record_is hk ha⟩

/-- A copy that passes its checks is committed, with room at the port (40_symbol_decoder.md R125). -/
theorem copy_committed {i : Instr} {cls : TagClass} {s : State} (hI : s.Inv) (hc : i.tagClass? = some cls)
    (hk : cls.kind = .copy) (hall : s.sd.cursor.toNat + 1 + cls.nx ≤ s.sd.streamLen.toNat)
    (howed : blen i ≤ s.sd.bytesLeft.toNat) (hoff : 1 ≤ copyOffset i) (hback : copyOffset i ≤ s.sd.dstPos.toNat)
    (hroom : s.port.length < s.params.sinkDepth) :
    ∃ t r, exec i s = .next t ∧ Committed s t r ∧
      r.Is cls .copy s.sd.cursor.toNat (1 + cls.nx) s.sd.dstPos.toNat (blen i) (copyOffset i) 0 := by
  have ha := accepts_copy hk hall howed hoff hback
  exact ⟨_, _, exec_of_accepts hc ha hroom, committed_of_accepts hI hc ha, copy_record_is hk ha⟩

/-! ### Literals and copies -/

/-- Settles O14: LIT_SHORT has no extension byte, so its length is checked at once. -/
theorem litShortStopsOrIsCommitted : Obligations.LitShortStopsOrIsCommitted := by
  unfold Obligations.LitShortStopsOrIsCommitted
  intro s l hI
  obtain ⟨overrun, truncated⟩ := literal_stops (i := .litShort l) (s := s) rfl rfl (.inl rfl)
  exact ⟨overrun, truncated, literal_committed (i := .litShort l) hI rfl rfl⟩

/-- Settles O15: each of the five is a literal whose length is its field plus 1. -/
theorem longerLiteralsAreAccepted : Obligations.LongerLiteralsAreAccepted := by
  unfold Obligations.LongerLiteralsAreAccepted
  intro s i cls v hI hroom hi howed hin
  have hlit : i.tagClass? = some cls ∧ cls.kind = .lit ∧ blen i = v + 1 := by
    rcases hi with ⟨l, rfl, rfl, rfl⟩ | ⟨e, rfl, rfl, rfl⟩ | ⟨e, rfl, rfl, rfl⟩ | ⟨e, rfl, rfl, rfl⟩ |
      ⟨e, rfl, rfl, rfl⟩ <;> exact ⟨rfl, rfl, rfl⟩
  obtain ⟨hc, hk, hlen⟩ := hlit
  rw [← hlen] at howed hin ⊢
  exact literal_committed hI hc hk howed hin hroom

/-- Settles O16: COPY1 is a copy with one extension byte. -/
theorem copy1StopsOrIsCommitted : Obligations.Copy1StopsOrIsCommitted := by
  unfold Obligations.Copy1StopsOrIsCommitted
  intro s l off hI
  refine ⟨exec_of_cut_header (i := .copy1 l off) rfl (Nat.le_refl 1), fun hall => ?_⟩
  obtain ⟨overrun, badOffset⟩ := copy_stops (i := .copy1 l off) (s := s) rfl rfl hall
  exact ⟨overrun, fun howed hbad => badOffset howed (hbad.imp_left (congrArg BitVec.toNat)),
    copy_committed (i := .copy1 l off) hI rfl rfl hall⟩

/-- Settles O17: both are copies with extension bytes whose length is the field plus 1. -/
theorem copy2AndCopy4StopOrAreCommitted : Obligations.Copy2AndCopy4StopOrAreCommitted := by
  unfold Obligations.Copy2AndCopy4StopOrAreCommitted
  intro s i cls l off hI hi
  have hcopy : i.tagClass? = some cls ∧ cls.kind = .copy ∧ 1 ≤ cls.nx ∧ blen i = l.toNat + 1 ∧ copyOffset i = off := by
    rcases hi with ⟨o, rfl, rfl, rfl⟩ | ⟨o, rfl, rfl, rfl⟩ <;> exact ⟨rfl, rfl, by decide, rfl, rfl⟩
  obtain ⟨hc, hk, hn, hlen, hoff⟩ := hcopy
  rw [← hlen, ← hoff]
  refine ⟨exec_of_cut_header hc hn, fun hall => ?_⟩
  obtain ⟨overrun, badOffset⟩ := copy_stops hc hk hall
  exact ⟨overrun, badOffset, copy_committed hI hc hk hall⟩

/-- Settles O18: the literal's stops, and a record appended when there is none. -/
theorem literalCheckInItsOrder : Obligations.LiteralCheckInItsOrder := by
  unfold Obligations.LiteralCheckInItsOrder
  intro s i cls hc hk hall
  obtain ⟨overrun, truncated⟩ := literal_stops hc hk (.inr hall)
  exact ⟨overrun, truncated, fun howed hin hroom =>
    ⟨_, _, exec_of_accepts hc (accepts_literal hk howed hin) hroom, pushRecord_sd_out _ _⟩⟩

/-- Settles O19: the copy's stops, and a record appended when there is none. -/
theorem copyCheckInItsOrder : Obligations.CopyCheckInItsOrder := by
  unfold Obligations.CopyCheckInItsOrder
  intro s i cls off hc hi hall
  have hcopy : cls.kind = .copy ∧ copyOffset i = off := by
    rcases hi with ⟨l, o, rfl, rfl⟩ | ⟨l, o, rfl, rfl⟩ | ⟨l, o, rfl, rfl⟩ <;> cases hc <;> exact ⟨rfl, rfl⟩
  obtain ⟨hk, rfl⟩ := hcopy
  obtain ⟨overrun, badOffset⟩ := copy_stops hc hk hall
  exact ⟨overrun, badOffset, fun howed hoff hback hroom =>
    ⟨_, _, exec_of_accepts hc (accepts_copy hk hall howed hoff hback) hroom, pushRecord_sd_out _ _⟩⟩

/-- Settles O20: the header check precedes the length and the offset. -/
theorem extensionBytesAreCheckedFirst : Obligations.ExtensionBytesAreCheckedFirst := by
  unfold Obligations.ExtensionBytesAreCheckedFirst
  intro s i cls hc hn hcut
  exact exec_of_cut_header hc hn hcut

/-! ### Everything a symbol can do -/

/-- Only a stream symbol that passes its checks appends a record. -/
theorem accepts_of_record_appended {i : Instr} {s t : State} {r : SymRec} (h : exec i s = .next t)
    (hout : t.sd.out = s.sd.out ++ [r]) : ∃ cls, i.tagClass? = some cls ∧ accepts i cls s.sd := by
  cases hc : i.tagClass? with
  | some cls =>
    rcases exec_symbol_outcomes hc s with ⟨-, r', -, e⟩ | ⟨ha, -⟩ | ⟨ha, -⟩
    · cases e.symm.trans h
      simp at hout
    · exact ⟨cls, rfl, ha⟩
    · exact ⟨cls, rfl, ha⟩
  | none =>
    cases i with
    | sdStart =>
      rcases execSdStart_cases s with ⟨-, e⟩ | ⟨-, -, e⟩ | ⟨-, -, e⟩ <;> cases e.symm.trans h <;> simp at hout
    | len3W2 | len3W3 | lmStart =>
      obtain ⟨-, -, -, -, -, hsd, -⟩ := exec_frame h
      obtain ⟨hsd, -⟩ := hsd.resolve_right (by simp)
      simp [hsd] at hout
    | _ => cases hc

/-- Settles O21: the checks do not look at the port, so the symbol is accepted and its commit is held. -/
theorem aFullPortHoldsTheSymbol : Obligations.AFullPortHoldsTheSymbol := by
  unfold Obligations.AFullPortHoldsTheSymbol
  intro s t i r depth hfull hexec hout
  obtain ⟨cls, hc, ha⟩ := accepts_of_record_appended hexec hout
  rcases exec_symbol_outcomes hc s with ⟨hna, -⟩ | ⟨-, -, e⟩ | ⟨-, hroom, -⟩
  · exact absurd ha hna
  · exact e
  · omega

/-- The code of a class's kind is told by its own code (40_symbol_decoder.md R117). -/
theorem kind_code (cls : TagClass) : cls.kind.code.toNat = if cls.code.toNat ≤ 5 then 0 else 1 := by
  cases cls <;> decide

/-- Settles O22: the three outcomes of a symbol, and what its record is. -/
theorem aSymbolStopsHoldsOrCommits : Obligations.ASymbolStopsHoldsOrCommits := by
  unfold Obligations.ASymbolStopsHoldsOrCommits
  intro s i cls hI hc _ _
  rcases exec_symbol_outcomes hc s with ⟨-, r, hr, e⟩ | ⟨-, hfull, e⟩ | ⟨ha, -, e⟩
  · exact ⟨_, e, .inl ⟨r, by simpa using hr, rfl⟩⟩
  · exact ⟨_, e, .inr (.inl ⟨hfull, rfl⟩)⟩
  · obtain ⟨hcls, hkind, htag, hdst, -⟩ := symbolRecord_fields ha
    refine ⟨_, e, .inr (.inr ⟨_, committed_of_accepts hI hc ha, symbolRecord_sound hc ha, hcls, ?_, htag, hdst, ?_⟩)⟩
    · rw [hkind, hcls]
      exact kind_code cls
    · rw [htag]
      exact symbolRecord_in_stream ha

/-- Settles O23: a literal's payload begins after its tag byte. -/
theorem legacyOffsetTellsTheKind : Obligations.LegacyOffsetTellsTheKind := by
  unfold Obligations.LegacyOffsetTellsTheKind
  intro s r hI hr
  obtain ⟨-, -, hlit, -⟩ := hI.sd.sound r hr
  refine ⟨fun hk => by simp only [SymRec.legacyOffset, hk], fun hk => ?_⟩
  obtain ⟨-, hstart, -⟩ := hlit hk
  have hneg : r.legacyOffset = -(r.litStart.toNat : Int) := by simp only [SymRec.legacyOffset, hk]
  exact ⟨hneg, by omega, by omega⟩

/-! ### The SINK's turn -/

/-- With a record waiting and room at the port, an SD action and the SINK's turn commute: the one takes the port's head,
the other appends at its end (40_symbol_decoder.md R118). -/
theorem sinkMove_run (a : SdAct) {s : State} (hwait : s.port ≠ []) (hroom : s.port.length < s.params.sinkDepth) :
    sinkMove (a.run s) = a.run (sinkMove s) := by
  obtain ⟨q, rest, hport⟩ := List.exists_cons_of_ne_nil hwait
  have taken := sinkMove_cons hport
  cases a with
  | rest => rfl
  | stop r =>
    rw [taken]
    exact sinkMove_cons (s := finish r s) hport
  | emit r =>
    obtain ⟨-, pushed⟩ := (commit_cases r s).resolve_left (by omega)
    have hroom' : (sinkMove s).port.length < (sinkMove s).params.sinkDepth := by
      rw [hport, List.length_cons] at hroom
      rw [taken]
      exact Nat.lt_of_succ_lt hroom
    obtain ⟨-, pushed'⟩ := (commit_cases r (sinkMove s)).resolve_left (by omega)
    have hport' : (pushRecord r s).port = q :: (rest ++ [r]) := by simp [hport]
    simp only [SdAct.run]
    rw [pushed, pushed', sinkMove_cons hport', taken]
    rfl

/-- The SINK's turn does not look at the moves to come. -/
theorem sinkMove_agenda (s : State) (ag : List Move) :
    sinkMove { s with agenda := ag } = { sinkMove s with agenda := ag } := by
  by_cases hp : s.port = []
  · rw [sinkMove_nil hp]
    exact sinkMove_nil (s := { s with agenda := ag }) hp
  · obtain ⟨r, rest, hp⟩ := List.exists_cons_of_ne_nil hp
    rw [sinkMove_cons hp]
    exact sinkMove_cons (s := { s with agenda := ag }) hp

/-- An SD action does not look at the moves to come. -/
theorem SdAct.run_agenda (a : SdAct) (s : State) (ag : List Move) :
    a.run { s with agenda := ag } = { a.run s with agenda := ag } := by
  obtain ⟨hlm, -⟩ := a.run_frame s
  exact (a.run_lm s s.lm ag).trans (by rw [← hlm])

/-- The SD's turn, taken off the agenda. -/
theorem step_sd (s : State) (ag : List Move) : step { s with agenda := .sd :: ag } =
    .next { (sdAct s.headerWindow s.sd).run s with agenda := ag } := by
  rw [step_of_agenda rfl]
  exact (sdMove_eq _).trans (congrArg Host.Outcome.next (SdAct.run_agenda _ s ag))

/-- The SINK's turn, taken off the agenda. -/
theorem step_sink (s : State) (ag : List Move) :
    step { s with agenda := .sink :: ag } = .next { sinkMove s with agenda := ag } := by
  rw [step_of_agenda rfl]
  exact congrArg Host.Outcome.next (sinkMove_agenda s ag)

/-- The SINK's turn leaves what the SD's turn looks at. -/
theorem sdAct_sinkMove (s : State) :
    sdAct (sinkMove s).headerWindow (sinkMove s).sd = sdAct s.headerWindow s.sd := by
  have hsd : (sinkMove s).sd = s.sd := by rw [sinkMove_frame s]
  have hwin : (sinkMove s).headerWindow = s.headerWindow :=
    headerWindow_congr hsd fun a _ _ => by rw [sinkMove_frame s]; rfl
  rw [hwin, hsd]

/-- An SD turn and then a SINK turn. -/
theorem runSteps_sd_sink (s : State) (ag : List Move) : runSteps 2 { s with agenda := .sd :: .sink :: ag } =
    .next { sinkMove ((sdAct s.headerWindow s.sd).run s) with agenda := ag } :=
  (runSteps_two (step_sd s _)).trans (step_sink _ ag)

/-- A SINK turn and then an SD turn. -/
theorem runSteps_sink_sd (s : State) (ag : List Move) : runSteps 2 { s with agenda := .sink :: .sd :: ag } =
    .next { (sdAct s.headerWindow s.sd).run (sinkMove s) with agenda := ag } := by
  rw [runSteps_two (step_sink s _), ← sdAct_sinkMove s]
  exact step_sd _ ag

/-- Settles O48: the SINK's turn by the port, and the two turns in either order. -/
theorem theSinksTurnCommutesWithTheSds : Obligations.TheSinksTurnCommutesWithTheSds := by
  unfold Obligations.TheSinksTurnCommutesWithTheSds
  refine fun s ag => ⟨fun hag hport => ?_, fun r rest hag hport => ?_, fun t hwait hroom h => ?_⟩
  · rw [step_of_agenda hag]
    exact congrArg _ (sinkMove_nil (s := { s with agenda := ag }) hport)
  · rw [step_of_agenda hag]
    exact congrArg _ (sinkMove_cons (s := { s with agenda := ag }) hport)
  · rw [runSteps_sd_sink, sinkMove_run _ hwait hroom] at h
    rw [runSteps_sink_sd, h]

/-! ### The end of a run -/

/-- An SD turn that ends a run stops it, COMPLETE exactly when nothing is owed (40_symbol_decoder.md R119). -/
theorem sdMove_ends {s t : State} (hb : s.sd.state = .busy) (h : sdMove s = .next t) (hd : t.sd.state = .done) :
    ∃ r, t = stopped s r ∧ (r = .complete ↔ s.sd.bytesLeft = 0) := by
  cases (sdMove_eq s).symm.trans h
  cases ha : sdAct s.headerWindow s.sd with
  | rest => exact absurd ha (sdAct_busy hb)
  | stop r =>
    refine ⟨r, rfl, ?_⟩
    obtain ⟨-, ⟨h0, rfl⟩ | ⟨hne, hr⟩⟩ := sdAct_stop ha
    · simp [h0]
    · have hr' : r ≠ .complete := by rintro rfl; simp at hr
      exact iff_of_false hr' hne
  | emit r =>
    rw [ha] at hd
    rcases commit_cases r s with ⟨-, e⟩ | ⟨-, e⟩ <;> simp [SdAct.run, e, hb] at hd

/-- Settles O54: the records' lengths are DST_POS in every state, and DST_POS and BYTES_LEFT make up ULEN in a run. -/
theorem completeExactlyWhenAllOutputIsProduced : Obligations.CompleteExactlyWhenAllOutputIsProduced := by
  unfold Obligations.CompleteExactlyWhenAllOutputIsProduced
  intro s t hI hb hhead h hd
  obtain ⟨ag, hag⟩ := List.head?_eq_some_iff.mp hhead
  rw [step_of_agenda hag] at h
  obtain ⟨r, rfl, hcomplete⟩ := sdMove_ends (s := { s with agenda := ag }) hb h hd
  have hlen : 0 + outputLength s.sd.out = s.sd.dstPos.toNat := chained_length hI.sd.chain
  obtain ⟨-, -, -, hulen, -⟩ := hI.sd.busy hb
  have hzero : r = .complete ↔ s.sd.bytesLeft.toNat = 0 := hcomplete.trans BitVec.toNat_eq
  refine ⟨(Nat.zero_add _).symm.trans hlen, hulen, fun hr => ?_, fun hr => ?_⟩
  · have := hzero.mp hr
    show outputLength s.sd.out = s.sd.ulen.toNat
    omega
  · have := mt hzero.mpr hr
    show outputLength s.sd.out < s.sd.ulen.toNat
    omega

end Sys2Proof.Machine
end

section
/-! PROOFS. The reference expansion (41_symbol_expand.md): the bytes a sequence's last record appends, `Byte(q)`, and
runs with a SINK that keeps accepting, as turns of the SD's registers: what they emit, and that a larger run begins with
a smaller one's records. -/

namespace Sys2Proof.Machine

/-! ### A sequence and its last record -/

/-- What `Expand` answers, and when (41_symbol_expand.md R161, R164). -/
theorem expand_eq_some_iff {p : Params} {m : Memory} {recs : List SymRec} {o : List Byte} :
    expand p m recs = some o ↔ emitted p m recs = true ∧ recs.foldl (expandRecord m) [] = o := by
  simp [expand]

/-- The records before the last are emitted too. -/
theorem emittedFrom_of_append {p : Params} {m : Memory} {t d : Word} {rs qs : List SymRec}
    (h : emittedFrom p m t d (rs ++ qs) = true) : emittedFrom p m t d rs = true := by
  induction rs generalizing t d with
  | nil => rfl
  | cons r rs ih =>
    simp only [List.cons_append, emittedFrom, Bool.and_eq_true] at h ⊢
    exact ⟨h.1, ih h.2⟩

/-- An emitted sequence's records are sound and follow one another from output position 0 on. -/
theorem emitted_spec {p : Params} (hp : p.legal) {m : Memory} {recs : List SymRec} (h : emitted p m recs = true) :
    (∀ r ∈ recs, r.sound) ∧ ∃ t t' d' : Nat, chained t 0 recs t' d' = true := by
  obtain ⟨t, ht⟩ := exists_firstTag recs
  rw [emitted_eq _ _ _ ht] at h
  obtain ⟨hsound, t', d', hchain⟩ := emittedFrom_spec hp h
  exact ⟨hsound, _, _, _, hchain⟩

/-- `Expand`'s result is as long as the records' lengths in all (41_symbol_expand.md R165). -/
theorem expand_length {p : Params} (hp : p.legal) {m : Memory} {recs : List SymRec} {o : List Byte}
    (h : expand p m recs = some o) : o.length = outputLength recs := by
  obtain ⟨hem, rfl⟩ := expand_eq_some_iff.mp h
  obtain ⟨hsound, t, t', d', hchain⟩ := emitted_spec hp hem
  have hlen := (foldl_expandRecord_spec (m := m) hchain hsound (o := []) rfl).1
  have hout := chained_length hchain
  omega

/-- `Expand` of a sequence is `Expand` of the records before its last and one more turn of the loop, for a sound record
that begins where their output ends (41_symbol_expand.md R161, R167). -/
theorem expand_append_singleton {p : Params} (hp : p.legal) {m : Memory} {recs : List SymRec} {r : SymRec}
    {o' : List Byte} (h : expand p m (recs ++ [r]) = some o') :
    ∃ o, expand p m recs = some o ∧ o.length = r.dst.toNat ∧ r.sound ∧ o' = expandRecord m o r := by
  obtain ⟨hem, rfl⟩ := expand_eq_some_iff.mp h
  obtain ⟨t, ht⟩ := exists_firstTag (recs ++ [r])
  have ht' : firstTag recs t = t.toNat := by
    cases recs with
    | nil => rfl
    | cons q qs => exact ht
  rw [emitted_eq _ _ _ ht] at hem
  have hpre := emittedFrom_of_append hem
  obtain ⟨hsound, t', d', hchain⟩ := emittedFrom_spec hp hpre
  obtain ⟨-, hdst, hr, -⟩ := emittedAt_spec hp ((emittedFrom_append hp hpre hchain).mp hem)
  have hlen := (foldl_expandRecord_spec (m := m) hchain hsound (o := []) rfl).1
  exact ⟨_, expand_eq_some_iff.mpr ⟨by rw [emitted_eq _ _ _ ht', hpre], rfl⟩, by rw [hlen, hdst], hr,
    by rw [List.foldl_append]; rfl⟩

/-- A sound copy's offset lies in the output before it (41_symbol_expand.md R164). -/
theorem SymRec.sound.off_bounds {r : SymRec} (h : r.sound) (hk : r.kind = .copy) :
    1 ≤ r.off.toNat ∧ r.off.toNat ≤ r.dst.toNat := by
  obtain ⟨-, -, -, hcopy⟩ := h
  obtain ⟨-, -, hoff⟩ := hcopy hk
  exact hoff

/-- Settles O59: the records before the last expand to the output it begins at, and the loop's last turn appends its
bytes. -/
theorem expandedRecordsHaveTheirBytes : Obligations.ExpandedRecordsHaveTheirBytes := by
  unfold Obligations.ExpandedRecordsHaveTheirBytes
  intro p m recs r o' i hp h hi
  obtain ⟨o, ho, hlen, hr, rfl⟩ := expand_append_singleton hp h
  obtain ⟨hlen', hpre, hbytes⟩ := expandRecord_spec (m := m) hlen hr.off_bounds
  obtain ⟨hlit, hcopy⟩ := hbytes i hi
  exact ⟨o, ho, hlen, hpre, hlen', hlit, fun hk => and_assoc.mp ⟨hr.off_bounds hk, hcopy hk⟩⟩

/-! ### Resolving a position -/

/-- The record says where byte `q` of the output `o` comes from: a literal's from the stream, a copy's from `off`
positions before it (41_symbol_expand.md R166). -/
structure SymRec.Resolves (m : Memory) (o : List Byte) (q : Nat) (r : SymRec) : Prop where
  inside : q < o.length
  lit : r.kind = .lit → o[q]? = some (m.read (r.litStart.toNat + (q - r.dst.toNat)))
  copy : r.kind = .copy → 1 ≤ r.off.toNat ∧ r.off.toNat ≤ q ∧ o[q]? = o[q - r.off.toNat]?

/-- A record resolves a position of a longer output as well. -/
theorem SymRec.Resolves.mono {m : Memory} {o o' : List Byte} {q : Nat} {r : SymRec} (h : r.Resolves m o q)
    (hpre : o <+: o') : r.Resolves m o' q := by
  have hq := getElem?_of_longer hpre h.inside
  refine ⟨h.inside.trans_le hpre.length_le, fun hk => hq.trans (h.lit hk), fun hk => ?_⟩
  obtain ⟨h1, h2, h3⟩ := h.copy hk
  have hin := h.inside
  exact ⟨h1, h2, by rw [hq, h3, getElem?_of_longer hpre (by omega)]⟩

/-- A record resolves the positions it covers of the output it is appended to: a copy's period `off` makes byte `i` the
one `off` before it (41_symbol_expand.md R163, R166). -/
theorem SymRec.Resolves.of_covers {m : Memory} {o : List Byte} {q : Nat} {r : SymRec} (hlen : o.length = r.dst.toNat)
    (hr : r.sound) (hq : r.covers q = true) : r.Resolves m (expandRecord m o r) q := by
  simp only [SymRec.covers, Bool.and_eq_true, decide_eq_true_eq] at hq
  obtain ⟨i, rfl⟩ := Nat.exists_eq_add_of_le hq.1
  obtain ⟨hlen', hpre, hbytes⟩ := expandRecord_spec (m := m) hlen hr.off_bounds
  obtain ⟨hlit, hcopy⟩ := hbytes i (by omega)
  refine ⟨by omega, fun hk => ?_, fun hk => ?_⟩
  · rw [Nat.add_sub_cancel_left]
    exact hlit hk
  · obtain ⟨h1, h2⟩ := hr.off_bounds hk
    refine ⟨h1, by omega, (hcopy hk).trans ?_⟩
    by_cases hlt : i < r.off.toNat
    · rw [Nat.mod_eq_of_lt hlt, ← getElem?_of_longer hpre (by omega)]
      congr 1
      omega
    · obtain ⟨-, hback⟩ := hbytes (i - r.off.toNat) (by omega)
      rw [Nat.mod_eq_sub_mod (by omega), ← hback hk]
      congr 1
      omega

/-- The record found for a position resolves it, and where none is found the position is past the output's end. -/
theorem find_covers_spec {p : Params} (hp : p.legal) {m : Memory} {recs : List SymRec} {o : List Byte}
    (h : expand p m recs = some o) (q : Nat) :
    (∃ r, recs.find? (fun r => r.covers q) = some r ∧ r.Resolves m o q) ∨
    (recs.find? (fun r => r.covers q) = none ∧ o.length ≤ q) := by
  induction recs using List.reverseRecOn generalizing o with
  | nil =>
    obtain ⟨-, rfl⟩ := expand_eq_some_iff.mp h
    exact .inr ⟨rfl, Nat.zero_le q⟩
  | append_singleton recs r ih =>
    obtain ⟨o, ho, hlen, hr, rfl⟩ := expand_append_singleton hp h
    obtain ⟨hlen', hpre, -⟩ := expandRecord_spec (m := m) hlen hr.off_bounds
    rw [List.find?_append]
    rcases ih ho with ⟨r', hfind, hres⟩ | ⟨hfind, hpast⟩
    · exact .inl ⟨r', by rw [hfind]; rfl, hres.mono hpre⟩
    · rw [hfind, Option.none_or]
      by_cases hq : r.covers q = true
      · exact .inl ⟨r, by simp [hq], .of_covers hlen hr hq⟩
      · refine .inr ⟨by simp [hq], ?_⟩
        simp only [SymRec.covers, Bool.and_eq_true, decide_eq_true_eq] at hq
        omega

/-- With fuel for every position up to `q`, `Byte(q)` is the output's byte: each copy goes back to an earlier one. -/
theorem byteAtFuel_eq {p : Params} (hp : p.legal) {m : Memory} {recs : List SymRec} {o : List Byte}
    (h : expand p m recs = some o) {fuel q : Nat} (hq : q < fuel) : byteAtFuel m recs fuel q = o[q]? := by
  induction fuel generalizing q with
  | zero => exact absurd hq (Nat.not_lt_zero q)
  | succ fuel ih =>
    rw [byteAtFuel]
    rcases find_covers_spec hp h q with ⟨r, hfind, hres⟩ | ⟨hfind, hpast⟩
    · rw [hfind]
      cases hk : r.kind with
      | lit => simp only [hk, hres.lit hk]
      | copy =>
        obtain ⟨h1, h2, h3⟩ := hres.copy hk
        simp only [hk, h3]
        exact ih (by omega)
    · rw [hfind, List.getElem?_eq_none hpast]

/-- Settles O58: on an emitted sequence the record found resolves the position, and the fuel suffices; on any other both
are refused. -/
theorem resolvingAPositionAgreesWithExpand : Obligations.ResolvingAPositionAgreesWithExpand := by
  unfold Obligations.ResolvingAPositionAgreesWithExpand
  intro p m recs q hp
  by_cases hem : emitted p m recs = true
  · have ho : expand p m recs = some (recs.foldl (expandRecord m) []) := expand_eq_some_iff.mpr ⟨hem, rfl⟩
    rw [byteAt, if_pos hem, ho, byteAtFuel_eq hp ho (Nat.lt_succ_self q), Option.bind_some]
  · rw [byteAt, expand, if_neg hem, if_neg hem, Option.bind_none]

/-! ### Rounds of a SINK turn and an SD turn, as turns of the SD's registers -/

/-- The state after a SINK turn and an SD turn. -/
def State.afterRound (s : State) : State :=
  (sdAct (sinkMove s).headerWindow (sinkMove s).sd).run (sinkMove s)

/-- A round is the first two of the drained turns. -/
theorem runSteps_drainedTurns_succ (s : State) (n : Nat) :
    runSteps (2 * (n + 1)) { s with agenda := drainedTurns (n + 1) } =
      runSteps (2 * n) { s.afterRound with agenda := drainedTurns n } := by
  rw [drainedTurns_succ, Nat.mul_succ, runSteps_succ (step_sink s _), runSteps_succ (step_sd (sinkMove s) _)]
  rfl

/-- A round keeps the invariant. -/
theorem State.afterRound_inv {s : State} (hI : s.Inv) : s.afterRound.Inv :=
  sdMove_inv (sinkMove_inv hI) (sdMove_eq _)

/-- A round leaves the stream memory. -/
@[simp] theorem State.afterRound_mem (s : State) : s.afterRound.mem = s.mem := by
  obtain ⟨-, -, hmem, -⟩ := SdAct.run_frame (sdAct (sinkMove s).headerWindow (sinkMove s).sd) (sinkMove s)
  rw [State.afterRound, hmem, sinkMove_frame]

/-- A round is one turn of the SD's registers: the SINK has made room for it. -/
theorem State.afterRound_sd {s : State} (hI : s.Inv) : s.afterRound.sd = s.sd.turn s.mem := by
  have hparams : (sinkMove s).params = s.params := by rw [sinkMove_frame]
  have hsd : (sinkMove s).sd = s.sd := by rw [sinkMove_frame]
  have hwin : s.headerWindow = { State.reset with mem := s.mem, sd := s.sd }.headerWindow :=
    headerWindow_congr rfl fun _ _ _ => rfl
  rw [State.afterRound, SdAct.run_registers_of_room _ (by rw [hparams]; exact sinkMove_room hI), sdAct_sinkMove, hsd,
    hwin, SdRegs.turn]

/-- Drained turns give the SD as many turns on its stream. -/
theorem runSteps_drainedTurns {s : State} (hI : s.Inv) (n : Nat) : ∃ t,
    runSteps (2 * n) { s with agenda := drainedTurns n } = .next t ∧ t.sd = (SdRegs.turn s.mem)^[n] s.sd := by
  induction n generalizing s with
  | zero => exact ⟨_, rfl, rfl⟩
  | succ n ih =>
    obtain ⟨t, ht, hsd⟩ := ih (State.afterRound_inv hI)
    rw [State.afterRound_mem, State.afterRound_sd hI] at hsd
    exact ⟨t, (runSteps_drainedTurns_succ s n).trans ht, hsd⟩

/-- A turn emits the record of the symbol at the cursor where that symbol is accepted. -/
theorem SdRegs.turn_of_accepts {m : Memory} {sd : SdRegs} {i : Instr} {cls : TagClass} (hb : sd.state = .busy)
    (hs : symbolAt m sd.cursor.toNat = some i) (hc : i.tagClass? = some cls) (ha : accepts i cls sd) :
    sd.turn m = (SdAct.emit (symbolRecord i cls sd)).registers sd :=
  congrArg (fun a => SdAct.registers a sd)
    ((sdAct_emit_iff (s := { State.reset with mem := m, sd := sd }) hb _).mpr ⟨i, cls, hs, hc, ha, rfl⟩)

/-- A turn of a BUSY SD emits the record of an accepted symbol, or stops the run and leaves its records. -/
theorem SdRegs.turn_cases (m : Memory) {sd : SdRegs} (hb : sd.state = .busy) :
    (∃ i cls, symbolAt m sd.cursor.toNat = some i ∧ i.tagClass? = some cls ∧ accepts i cls sd) ∨
    ((sd.turn m).state = .done ∧ (sd.turn m).out = sd.out) := by
  cases ha : sdAct { State.reset with mem := m, sd := sd }.headerWindow sd with
  | rest => exact absurd ha (sdAct_busy hb)
  | stop r => exact .inr (by rw [SdRegs.turn, ha]; exact ⟨rfl, rfl⟩)
  | emit r =>
    obtain ⟨i, cls, hs, hc, hacc, -⟩ := (sdAct_emit_iff (s := { State.reset with mem := m, sd := sd }) hb r).mp ha
    exact .inl ⟨i, cls, hs, hc, hacc⟩

/-! ### A larger run begins with a smaller one's records -/

/-- A turn only adds to the records. -/
theorem SdRegs.out_prefix_turn (m : Memory) (sd : SdRegs) : sd.out <+: (sd.turn m).out := by
  unfold SdRegs.turn
  cases sdAct { State.reset with mem := m, sd := sd }.headerWindow sd with
  | rest => exact List.prefix_rfl
  | stop r => exact List.prefix_rfl
  | emit r => exact List.prefix_append _ _

/-- Turns only add to the records. -/
theorem SdRegs.out_prefix_turns (m : Memory) (n : Nat) (sd : SdRegs) : sd.out <+: ((SdRegs.turn m)^[n] sd).out := by
  induction n generalizing sd with
  | zero => exact List.prefix_rfl
  | succ n ih => exact (sd.out_prefix_turn m).trans (ih (sd.turn m))

/-- The registers of a run that differs in the output owed alone. -/
def SdRegs.owing (sd : SdRegs) (owed ulen : Word) : SdRegs := { sd with bytesLeft := owed, ulen := ulen }

/-- A symbol that is accepted is accepted where more is owed. -/
theorem accepts_owing {i : Instr} {cls : TagClass} {sd : SdRegs} {owed : Word} (ha : accepts i cls sd)
    (hle : sd.bytesLeft.toNat ≤ owed.toNat) (ulen : Word) : accepts i cls (sd.owing owed ulen) :=
  ⟨ha.1.trans hle, ha.2⟩

/-- A record's emit keeps the two runs apart by the output owed alone. -/
theorem registers_emit_owing (r : SymRec) (sd : SdRegs) (owed ulen : Word) :
    (SdAct.emit r).registers (sd.owing owed ulen) =
      ((SdAct.emit r).registers sd).owing (Word.ofNat (owed.toNat - r.len.toNat)) ulen := rfl

/-- Of two runs on one stream, the records of the one that owes more begin with the other's: every symbol the smaller
accepts the larger accepts too, and once the smaller stops the larger only adds (41_symbol_expand.md R167). -/
theorem turns_out_prefix_owing (m : Memory) (n : Nat) {sd : SdRegs} {owed : Word} (hb : sd.state = .busy)
    (hle : sd.bytesLeft.toNat ≤ owed.toNat) (ulen : Word) :
    ((SdRegs.turn m)^[n] sd).out <+: ((SdRegs.turn m)^[n] (sd.owing owed ulen)).out := by
  induction n generalizing sd owed with
  | zero => exact List.prefix_rfl
  | succ n ih =>
    rcases SdRegs.turn_cases m hb with ⟨i, cls, hs, hc, ha⟩ | ⟨hdone, hout⟩
    · have hturn := SdRegs.turn_of_accepts hb hs hc ha
      have hturn' : (sd.owing owed ulen).turn m = (SdAct.emit (symbolRecord i cls sd)).registers (sd.owing owed ulen) :=
        SdRegs.turn_of_accepts hb hs hc (accepts_owing ha hle ulen)
      rw [Function.iterate_succ_apply, Function.iterate_succ_apply, hturn, hturn', registers_emit_owing]
      have h1 := sd.bytesLeft.isLt
      have h2 := owed.isLt
      refine ih hb ?_
      show (Word.ofNat (sd.bytesLeft.toNat - _)).toNat ≤ _
      rw [Word.toNat_ofNat_of_lt (by omega), Word.toNat_ofNat_of_lt (by omega)]
      omega
    · have hfixed : (SdRegs.turn m)^[n] (sd.turn m) = sd.turn m :=
        Function.iterate_fixed (SdRegs.turn_of_not_busy (by rw [hdone]; decide)) n
      rw [Function.iterate_succ_apply, hfixed, hout]
      exact SdRegs.out_prefix_turns m (n + 1) (sd.owing owed ulen)

/-- A BUSY SD that owes another amount of output that fits LEN_W, with ULEN to match, meets the invariant. -/
theorem owing_inv {s : State} (hI : s.Inv) (hb : s.sd.state = .busy) {owed : Word}
    (hfits : s.sd.dstPos.toNat + owed.toNat < 2 ^ s.params.lenW) :
    ({ s with sd := s.sd.owing owed (Word.ofNat (s.sd.dstPos.toNat + owed.toNat)) } : State).Inv := by
  obtain ⟨-, -, -, hlenW, -⟩ := hI.params
  have hwidth := two_pow_width_le hlenW
  have hulen := Word.toNat_ofNat_of_lt (n := s.sd.dstPos.toNat + owed.toNat) (by omega)
  obtain ⟨hresult, hstart, hcursor, -, hfirst⟩ := hI.sd.busy hb
  have hsd : (s.sd.owing owed (Word.ofNat (s.sd.dstPos.toNat + owed.toNat))).Inv s.params :=
    { hI.sd with
      ulen_fits := hulen.trans_lt hfits
      owed_fits := hfits
      idle := fun hi => absurd (hb.symm.trans hi) (by decide)
      busy := fun _ => ⟨hresult, hstart, hcursor, hulen.symm, hfirst⟩
      done := fun hd => absurd (hb.symm.trans hd) (by decide) }
  exact { hI with sd := hsd }

/-- Settles O56: both runs are turns of the SD's registers on one stream, which differ in the output owed alone. -/
theorem aSmallerRunIsAPrefix : Obligations.ASmallerRunIsAPrefix := by
  unfold Obligations.ASmallerRunIsAPrefix
  intro s t u owed n hI hb hle hfits ht hu
  obtain ⟨t', ht', htsd⟩ := runSteps_drainedTurns hI n
  obtain ⟨u', hu', husd⟩ := runSteps_drainedTurns (owing_inv hI hb hfits) n
  cases ht.symm.trans ht'
  cases hu.symm.trans hu'
  rw [htsd, husd]
  exact turns_out_prefix_owing s.mem n hb hle _

/-! ### Expand answers on the SD's records alone -/

/-- A run's records expand to DST_POS bytes, over every memory that holds the stream on loan (41_symbol_expand.md R164,
R165). -/
theorem expand_records {s : State} {l : Loan} {m : Memory} (hI : s.Inv) (hE : s.Emitted) (hl : s.loan = some l)
    (hm : ∀ a, l.lo.toNat ≤ a → a < l.hi.toNat → m.read a = s.mem.read a) :
    ∃ o, expand s.params m s.sd.out = some o ∧ o.length = s.sd.dstPos.toNat := by
  have hem : emitted s.params m s.sd.out = true := by
    refine emitted_of_reads_alike hI.params (hE.from_stream (by simp [hl])) fun r hr a hlo hhi => ?_
    obtain ⟨h1, h2⟩ := hE.in_loan l hl r hr
    exact hm a (h1.trans hlo) (hhi.trans_le h2)
  exact ⟨_, expand_eq_some_iff.mpr ⟨hem, rfl⟩, (foldl_expandRecord_spec hI.sd.chain hI.sd.sound rfl).1⟩

/-- The symbol of a record that an SD emits is accepted by any SD at the same place whose stream reaches over the record
and that owes its bytes. -/
theorem accepts_of_record_fits {i : Instr} {cls : TagClass} {sd sd' : SdRegs} (ha : accepts i cls sd)
    (hcur : sd'.cursor = sd.cursor) (hdst : sd'.dstPos = sd.dstPos)
    (hin : sd.cursor.toNat + (symbolRecord i cls sd).width.toNat ≤ sd'.streamLen.toNat)
    (howed : (symbolRecord i cls sd).len.toNat ≤ sd'.bytesLeft.toNat) : accepts i cls sd' := by
  obtain ⟨-, -, -, -, hlen, hlit, hcopy⟩ := symbolRecord_fields ha
  obtain ⟨-, hchecks⟩ := ha
  refine ⟨by omega, ?_⟩
  cases hk : cls.kind with
  | lit =>
    obtain ⟨-, -, hwidth⟩ := hlit hk
    simp only [hcur]
    omega
  | copy =>
    obtain ⟨-, -, hwidth⟩ := hcopy hk
    simp only [hk] at hchecks
    simp only [hcur, hdst]
    exact ⟨by omega, hchecks.2⟩

/-- A turn emits the record expected at its place when the stream reaches over it and its bytes are owed. -/
theorem SdRegs.turn_of_emittedAt {p : Params} (hp : p.legal) {m : Memory} {sd : SdRegs} {r : SymRec}
    (hb : sd.state = .busy) (h : emittedAt p m sd.cursor sd.dstPos = some r)
    (hin : r.tag.toNat + r.width.toNat ≤ sd.streamLen.toNat) (howed : r.len.toNat ≤ sd.bytesLeft.toNat) :
    sd.turn m = (SdAct.emit r).registers sd := by
  obtain ⟨htag, -⟩ := emittedAt_spec hp h
  obtain ⟨i, cls, hs, hc, ha, rfl⟩ := (emittedAt_iff hp m _ _ r).mp h
  rw [htag] at hin
  exact SdRegs.turn_of_accepts hb hs hc (accepts_of_record_fits ha rfl rfl hin howed)

/-- As many turns as records expected from the cursor on emit exactly those, when the stream reaches over them and their
bytes are owed (41_symbol_expand.md R164). -/
theorem turns_out_of_emittedFrom {p : Params} (hp : p.legal) {m : Memory} {sd : SdRegs} {recs : List SymRec}
    (hb : sd.state = .busy) (h : emittedFrom p m sd.cursor sd.dstPos recs = true)
    (hin : ∀ r ∈ recs, r.tag.toNat + r.width.toNat ≤ sd.streamLen.toNat)
    (howed : outputLength recs ≤ sd.bytesLeft.toNat) :
    ((SdRegs.turn m)^[recs.length] sd).out = sd.out ++ recs := by
  induction recs generalizing sd with
  | nil => simp
  | cons r rs ih =>
    simp only [emittedFrom, Bool.and_eq_true, decide_eq_true_eq] at h
    obtain ⟨hat, hrest⟩ := h
    simp only [outputLength, List.map_cons, List.sum_cons] at howed
    have hturn := SdRegs.turn_of_emittedAt hp hb hat (hin r List.mem_cons_self) (by omega)
    rw [List.length_cons, Function.iterate_succ_apply, hturn]
    have hw := sd.bytesLeft.isLt
    have howed' : outputLength rs ≤ (Word.ofNat (sd.bytesLeft.toNat - r.len.toNat)).toNat := by
      rw [Word.toNat_ofNat_of_lt (by omega), outputLength]
      omega
    rw [ih (sd := (SdAct.emit r).registers sd) hb hrest (fun q hq => hin q (List.mem_cons_of_mem r hq)) howed']
    exact List.append_assoc sd.out [r] rs

/-- An SD without records has produced nothing. -/
theorem dstPos_of_no_records {s : State} (hI : s.Inv) (hout : s.sd.out = []) : s.sd.dstPos = 0 := by
  have hlen := chained_length hI.sd.chain
  rw [hout] at hlen
  exact BitVec.eq_of_toNat_eq hlen.symm

/-- Settles O57: a run's records are emitted and chained up to DST_POS; an emitted sequence is what the turns of an SD
that reaches over it emit. -/
theorem expandAnswersOnTheSdsRecordsAlone : Obligations.ExpandAnswersOnTheSdsRecordsAlone := by
  unfold Obligations.ExpandAnswersOnTheSdsRecordsAlone
  refine ⟨fun s l m hI hE hl hm => expand_records hI hE hl hm,
    fun s recs o hI hb hout ho hfirst hin howed hag => ?_⟩
  obtain ⟨t, ht, htsd⟩ := runSteps_drainedTurns hI recs.length
  rw [← hag] at ht
  obtain ⟨hem, -⟩ := expand_eq_some_iff.mp ho
  rw [emitted_eq _ _ _ hfirst, ← dstPos_of_no_records hI hout] at hem
  rw [expand_length hI.params ho] at howed
  exact ⟨t, ht, by rw [htsd, turns_out_of_emittedFrom hI.params hb hem hin howed, hout, List.nil_append]⟩

end Sys2Proof.Machine
end

section
/-! PROOFS. The Len3 Mask Engine (42_len3_mask.md): its turn as the loop of R179, what it leaves unchanged, which
requests succeed and what they cost, and the source's string form. -/

namespace Sys2Proof.Machine

/-! ### One flag -/

/-- What pushing an output bit leaves unchanged: all but the working values (42_len3_mask.md R180, R181). -/
theorem pushMaskBit_frame (bit : Bool) (width : Nat) (s : State) :
    pushMaskBit bit width s = { s with lm := { s.lm with work := (pushMaskBit bit width s).lm.work } } := rfl

/-- Settles O24: either flag's instruction pushes its bit, which sets that bit of the working mask and no other. -/
theorem len3FlagsPushOneMaskBit : Obligations.Len3FlagsPushOneMaskBit := by
  unfold Obligations.Len3FlagsPushOneMaskBit
  intro s i bit adv hk hi
  have hexec : exec i s = .next (pushMaskBit bit adv s) := by
    rcases hi with ⟨rfl, rfl, rfl⟩ | ⟨rfl, rfl, rfl⟩ <;> rfl
  refine ⟨_, hexec, rfl, rfl, ?_, fun j hj => ?_, pushMaskBit_frame bit adv s⟩
  · rw [pushMaskBit_bit bit adv s _ hk, if_pos rfl]
  · rw [pushMaskBit_bit bit adv s _ hk, if_neg hj]

/-! ### The turn -/

/-- A step whose move is the LM's turn. -/
theorem step_lm {s : State} {ag : List Move} (h : s.agenda = .lm :: ag) : step s = lmMove { s with agenda := ag } :=
  step_of_agenda h

/-- Within the contract a BUSY LM's turn is the loop from the working values' start (42_len3_mask.md R179). -/
theorem lmMove_of_contract {s : State} (hb : s.lm.state = .busy) (hl : s.lm.limit.toNat ≤ 64)
    (hn : s.lm.nwords.toNat ≤ s.params.maxWords) : lmMove s = lmLoop s.lm.limit.toNat (clearWork s) := by
  simp [lmMove, lmCompute, lmContract, Config.maskW, hb, hl, hn]

/-- Beyond the contract a BUSY LM's turn fails at once (42_len3_mask.md R178). -/
theorem lmMove_of_no_contract {s : State} (hb : s.lm.state = .busy)
    (h : 64 < s.lm.limit.toNat ∨ s.params.maxWords < s.lm.nwords.toNat) : lmMove s = .next (lmFail .errContract s) :=
  ((lmMove_cases s hb).resolve_right (by omega)).2

/-- A BUSY LM's turn writes STATE, RESULT, MASK and CONSUMED, and clears the working values (42_len3_mask.md R176). -/
theorem lmMove_writes {s t : State} (hb : s.lm.state = .busy) (h : lmMove s = .next t) :
    t = { s with lm := { s.lm with
      state := .done, result := t.lm.result, mask := t.lm.mask, consumed := t.lm.consumed, work := LmWork.zero } } := by
  rcases lmMove_cases s hb with ⟨-, e⟩ | ⟨-, -, ⟨-, m, e, -⟩ | ⟨-, e⟩⟩ <;> rw [e] at h <;> injection h with h <;>
    subst h <;> rfl

/-- Within the contract a BUSY LM's turn ends OK just when every flag lies in the window. -/
theorem lmMove_ok_iff {s t : State} (hb : s.lm.state = .busy) (hl : s.lm.limit.toNat ≤ 64)
    (hn : s.lm.nwords.toNat ≤ s.params.maxWords) (h : lmMove s = .next t) :
    t.lm.result = .ok ↔ flagsInWindow s.lm := by
  rcases (lmMove_result hb h).resolve_left (by omega) with ⟨-, -, hin, hr, -⟩ | ⟨-, -, hout, hr, -⟩
  · exact iff_of_true hr hin
  · exact iff_of_false (by simp [hr]) hout

/-- What a BUSY LM's turn that ends OK has found and left. -/
theorem lmMove_ok {s t : State} (hb : s.lm.state = .busy) (h : lmMove s = .next t) (hr : t.lm.result = .ok) :
    s.lm.limit.toNat ≤ 64 ∧ t.lm.consumed.toNat = flagPos s.lm s.lm.limit.toNat ∧
    ∀ b, t.lm.mask.getLsbD b = (decide (b < s.lm.limit.toNat) && wbit s.lm (flagPos s.lm b)) := by
  rcases lmMove_result hb h with ⟨-, he, -⟩ | ⟨hl, -, -, -, hc, hm⟩ | ⟨-, -, -, he, -⟩
  · simp [he] at hr
  · exact ⟨hl, hc, hm⟩
  · simp [he] at hr

/-- Within the contract a BUSY LM's turn that needs a flag outside the window leaves no mask (42_len3_mask.md R182). -/
theorem lmMove_insufficient {s t : State} (hb : s.lm.state = .busy) (hl : s.lm.limit.toNat ≤ 64)
    (hn : s.lm.nwords.toNat ≤ s.params.maxWords) (h : lmMove s = .next t) (hout : ¬ flagsInWindow s.lm) :
    t.lm.result = .errInsufficient ∧ t.lm.mask = 0 ∧ t.lm.consumed = 0 := by
  rcases (lmMove_result hb h).resolve_left (by omega) with ⟨-, -, hin, -⟩ | ⟨-, -, -, he⟩
  · exact absurd hin hout
  · exact he

/-- Settles O10: the turn is the loop from cleared working values, and a round runs the flag's own instruction. -/
theorem lmTurnRunsTheFlagsInOrder : Obligations.LmTurnRunsTheFlagsInOrder := by
  unfold Obligations.LmTurnRunsTheFlagsInOrder
  intro s ag n
  refine ⟨fun hag hb hl hn => ?_, fun hp => ⟨_, exec_decodeFlag _ s, lmLoop_succ n s hp⟩⟩
  rw [step_lm hag]
  exact lmMove_of_contract (s := { s with agenda := ag }) hb hl hn

/-- Settles O25: the frame of a turn from cleared working values, and the two ways a turn within the contract ends. -/
theorem lmTurnComputesTheMask : Obligations.LmTurnComputesTheMask := by
  unfold Obligations.LmTurnComputesTheMask
  intro s ag hI hag hb hl hn
  rw [step_lm hag]
  obtain ⟨t, ht⟩ := lmMove_next { s with agenda := ag }
  refine ⟨t, ht, ?_, fun hin => ?_, lmMove_insufficient (s := { s with agenda := ag }) hb hl hn ht⟩
  · have hframe := lmMove_writes (s := { s with agenda := ag }) hb ht
    rwa [← hI.lm.work] at hframe
  · have hok := (lmMove_ok_iff (s := { s with agenda := ag }) hb hl hn ht).mpr hin
    obtain ⟨-, hrest⟩ := lmMove_ok (s := { s with agenda := ag }) hb ht hok
    exact ⟨hok, hrest⟩

/-- Settles O26: the contract check fails before the loop, whatever the words are. -/
theorem lmContractErrorReadsNoWord : Obligations.LmContractErrorReadsNoWord := by
  unfold Obligations.LmContractErrorReadsNoWord
  intro s ag ws hag hb hc
  rw [step_lm (s := { s with lm := { s.lm with w := ws } }) hag]
  exact lmMove_of_no_contract hb hc

/-! ### The bit cost and the words that suffice -/

/-- Settles O27: the position after the last flag is twice LIMIT and the ones among the flags, and the mask has no other
ones. -/
theorem len3BitCost : Obligations.Len3BitCost := by
  unfold Obligations.Len3BitCost
  intro s t ag _ hag hb h hok
  rw [step_lm hag] at h
  obtain ⟨hl, hc, hm⟩ : s.lm.limit.toNat ≤ 64 ∧ t.lm.consumed.toNat = flagPos s.lm s.lm.limit.toNat ∧ _ :=
    lmMove_ok (s := { s with agenda := ag }) hb h hok
  have hzero (k : Nat) (hk : s.lm.limit.toNat ≤ k) : t.lm.mask.getLsbD k = false := by simp [hm k, Nat.not_lt.mpr hk]
  have hones : popcount t.lm.mask 64 = popcount t.lm.mask s.lm.limit.toNat := by
    have := popcount_ext t.lm.mask s.lm.limit.toNat (64 - s.lm.limit.toNat) hzero
    rwa [Nat.add_sub_cancel' hl] at this
  refine ⟨?_, ?_, hzero⟩
  · rw [hc, hones]
    exact popcount_flags s.lm t.lm.mask _ _ (Nat.le_refl _) hm
  · rw [hc]
    exact (flagPos_bounds s.lm _).2

/-- Positions strictly increase, so the last flag's decides (42_len3_mask.md R191). -/
theorem flagsInWindow_iff_last {lm : LmRegs} (h : 1 ≤ lm.limit.toNat) :
    flagsInWindow lm ↔ flagPos lm (lm.limit.toNat - 1) < windowBits lm := by
  refine ⟨fun hall => hall _ (by omega), fun hlast k hk => ?_⟩
  rcases Nat.lt_or_eq_of_le (Nat.le_sub_one_of_lt hk) with hlt | rfl
  · exact (flagPos_strict lm hlt).trans hlast
  · exact hlast

/-- Settles O28: OK is the last flag's position in the window, and that position lies between 2 and 3 times
LIMIT - 1. -/
theorem len3WordsThatSuffice : Obligations.Len3WordsThatSuffice := by
  unfold Obligations.Len3WordsThatSuffice
  intro s t ag _ hag hb h h1 hl hn
  rw [step_lm hag] at h
  have hok : t.lm.result = .ok ↔ flagPos s.lm (s.lm.limit.toNat - 1) < 64 * s.lm.nwords.toNat :=
    (lmMove_ok_iff (s := { s with agenda := ag }) hb hl hn h).trans (flagsInWindow_iff_last h1)
  obtain ⟨hlow, hhigh⟩ := flagPos_bounds s.lm (s.lm.limit.toNat - 1)
  refine ⟨hok, fun hsuff => hok.mpr (by omega), fun hr => ?_⟩
  have := hok.mp hr
  omega

/-! ### Words beyond NWORDS -/

/-- The LM's turn runs alike on windows that agree below NWORDS (42_len3_mask.md R192). -/
theorem lmMove_words {s t : State} (ws : List DWord) (hw : ∀ j < s.lm.nwords.toNat, ws.getD j 0 = s.lm.w.getD j 0)
    (h : lmMove s = .next t) :
    lmMove { s with lm := { s.lm with w := ws } } = .next { t with lm := { t.lm with w := ws } } := by
  by_cases hb : s.lm.state = .busy
  · by_cases hc : s.lm.limit.toNat ≤ 64 ∧ s.lm.nwords.toNat ≤ s.params.maxWords
    · obtain ⟨hl, hn⟩ := hc
      rw [lmMove_of_contract hb hl hn] at h
      rw [lmMove_of_contract (s := { s with lm := { s.lm with w := ws } }) hb hl hn]
      exact lmLoop_words _ (clearWork s) ws hw t h
    · rw [lmMove_of_no_contract hb (by omega)] at h
      injection h with h
      subst h
      exact lmMove_of_no_contract (s := { s with lm := { s.lm with w := ws } }) hb
        (show 64 < s.lm.limit.toNat ∨ s.params.maxWords < s.lm.nwords.toNat by omega)
  · rw [lmMove_of_not_busy hb] at h
    injection h with h
    subst h
    exact lmMove_of_not_busy hb

/-- Settles O29: the turn's loop reads no word at or beyond NWORDS. -/
theorem len3IgnoresWordsBeyondNwords : Obligations.Len3IgnoresWordsBeyondNwords := by
  unfold Obligations.Len3IgnoresWordsBeyondNwords
  intro s t ag ws hw hag h
  rw [step_lm hag] at h
  rw [step_lm (s := { s with lm := { s.lm with w := ws } }) hag]
  exact lmMove_words (s := { s with agenda := ag }) ws hw h

/-! ### The string form -/

/-- The string of the words below NWORDS has one character a window position. -/
theorem windowString_length {lm : LmRegs} (h : lm.nwords.toNat ≤ lm.w.length) :
    (toBitsequence (lm.w.take lm.nwords.toNat)).length = windowBits lm := by
  rw [toBit_length, List.length_take, Nat.min_eq_left h, windowBits]

/-- Window position `p` is character `p` from the end of the string of the words below NWORDS (42_len3_mask.md R184). -/
theorem windowString_get {lm : LmRegs} (h : lm.nwords.toNat ≤ lm.w.length) (p : Nat) (hp : p < windowBits lm) :
    (toBitsequence (lm.w.take lm.nwords.toNat)).getD (windowBits lm - 1 - p) false = wbit lm p := by
  have hlen : (lm.w.take lm.nwords.toNat).length = lm.nwords.toNat := by rw [List.length_take, Nat.min_eq_left h]
  rw [windowBits] at hp ⊢
  have hget := toBit_get (lm.w.take lm.nwords.toNat) p (by omega)
  rw [hlen] at hget
  rw [hget, wbit, List.getD_eq_getElem?_getD, List.getElem?_take_of_lt (by omega), ← List.getD_eq_getElem?_getD]

/-- The source's scan of the string succeeds just when every flag lies in the window, with the flags as a numeral and
the position after the last one (42_len3_mask.md R185, R186). -/
theorem len3MaskString_cases {lm : LmRegs} (h : lm.nwords.toNat ≤ lm.w.length) :
    (flagsInWindow lm ∧ ∃ out,
      len3MaskString (toBitsequence (lm.w.take lm.nwords.toNat)) lm.limit.toNat =
        some (out, (flagPos lm lm.limit.toNat : Int)) ∧
      numeral out = maskNat lm lm.limit.toNat) ∨
    (¬ flagsInWindow lm ∧ len3MaskString (toBitsequence (lm.w.take lm.nwords.toNat)) lm.limit.toNat = none) := by
  have hscan := scan_spec lm _ (windowBits lm) (windowString_get h) lm.limit.toNat 0 [] rfl rfl
  simp only [Nat.zero_add, show flagPos lm 0 = 0 from rfl, Nat.cast_zero, sub_zero] at hscan
  rw [len3MaskString, windowString_length h]
  rcases hscan with ⟨hall, out, e, hnum⟩ | ⟨⟨j, hj, hout⟩, e⟩
  · refine .inl ⟨hall, out, ?_, hnum⟩
    rw [e, Option.map_some, sub_sub_cancel]
  · exact .inr ⟨fun hall => absurd (hall j hj) (by omega), by rw [e, Option.map_none]⟩

/-- Settles O30: scan and turn both succeed just when every flag lies in the window, with the same bits and count. -/
theorem len3AgreesWithTheStringForm : Obligations.Len3AgreesWithTheStringForm := by
  unfold Obligations.Len3AgreesWithTheStringForm
  intro s t ag hI hag hb h hl hn
  rw [step_lm hag] at h
  rcases len3MaskString_cases (hI.lm.words ▸ hn) with ⟨hin, out, e, hnum⟩ | ⟨hout, e⟩ <;> rw [e]
  · have hok := (lmMove_ok_iff (s := { s with agenda := ag }) hb hl hn h).mpr hin
    obtain ⟨-, hc, hm⟩ := lmMove_ok (s := { s with agenda := ag }) hb h hok
    refine ⟨fun hnone => by simp at hnone, fun str used hsome => ?_⟩
    obtain ⟨rfl, rfl⟩ := Prod.mk.inj (Option.some.inj hsome)
    exact ⟨hok, (maskNat_eq s.lm _ _ hm).trans hnum.symm, congrArg Nat.cast hc⟩
  · obtain ⟨hr, -⟩ := lmMove_insufficient (s := { s with agenda := ag }) hb hl hn h hout
    exact ⟨fun _ => hr, fun str used hsome => by simp at hsome⟩

end Sys2Proof.Machine
end

section
/-! PROOFS. The host interface (43_host_interface.md): the two STARTs that are taken, CTRL writes by their bit 0, the lock
of a BUSY unit's bank, the configuration registers, and reads. -/

namespace Sys2Proof.Machine

/-! ### STARTs that are taken -/

/-- Settles O31: of the cases of an SD START, the two where the SD is not BUSY. -/
theorem sdStartBeginsARun : Obligations.SdStartBeginsARun := by
  unfold Obligations.SdStartBeginsARun
  intro s hb
  rcases execSdStart_cases s with ⟨hbusy, -⟩ | ⟨-, hin, e⟩ | ⟨-, hout, e⟩
  · exact absurd hbusy hb
  · exact ⟨fun _ => e, fun hout => absurd hin (Nat.not_lt.mpr hout)⟩
  · exact ⟨fun hin => absurd hin (Nat.not_lt.mpr hout), fun _ => e⟩

/-- Settles O32: of the cases of an LM START, the one where the LM is not BUSY. -/
theorem lmStartBeginsARun : Obligations.LmStartBeginsARun := by
  unfold Obligations.LmStartBeginsARun
  intro s hb
  rcases execLmStart_cases s with ⟨hbusy, -⟩ | ⟨-, e⟩
  · exact absurd hbusy hb
  · exact e

/-! ### CTRL writes -/

/-- CTRL stores nothing (10_state.md R47). -/
theorem writeReg_ctrl (s : State) (bank : Bank) (v : Word) : writeReg s bank 0 v = s := by
  cases bank with
  | sd => simp [writeReg, writeSd]
  | lm => simp [writeReg, writeLm]

/-- A CTRL write with bit 0 clear has no effect (43_host_interface.md R205). -/
theorem writeAt_ctrl_of_clear (s : State) (bank : Bank) {v : Word} (hv : v.getLsbD 0 = false) :
    writeAt s bank 0 v = .next s := by
  rw [writeAt, decodeCommand_other bank 0 v (.inr hv), writeReg_ctrl]

/-- A CTRL write ignores bits 31:1 of the value (43_host_interface.md R205). -/
theorem writeAt_ctrl_congr (s : State) (bank : Bank) {v w : Word} (h : v.getLsbD 0 = w.getLsbD 0) :
    writeAt s bank 0 v = writeAt s bank 0 w := by
  cases hv : v.getLsbD 0 with
  | false => rw [writeAt_ctrl_of_clear s bank hv, writeAt_ctrl_of_clear s bank (h ▸ hv)]
  | true => rw [writeAt, writeAt, decodeCommand_start bank v hv, decodeCommand_start bank w (h ▸ hv)]

/-- The step of a CTRL write with bit 0 clear takes it off the agenda. -/
theorem step_ctrl_of_clear {s : State} {bank : Bank} {v : Word} {ag : List Move}
    (hag : s.agenda = .write (.reg bank 0) 32 v :: ag) (hv : v.getLsbD 0 = false) :
    step s = .next { s with agenda := ag } := by
  rw [step_write_ctrl hag rfl, writeAt_ctrl_of_clear _ bank hv]

/-- The steps of two CTRL writes that agree in bit 0 are the same. -/
theorem step_ctrl_congr (s : State) (bank : Bank) (ag : List Move) {v w : Word} (h : v.getLsbD 0 = w.getLsbD 0) :
    step { s with agenda := .write (.reg bank 0) 32 v :: ag } =
      step { s with agenda := .write (.reg bank 0) 32 w :: ag } := by
  have hstep (x : Word) : step { s with agenda := .write (.reg bank 0) 32 x :: ag } =
      writeAt { s with agenda := ag } bank 0 x := step_write_ctrl rfl rfl
  rw [hstep v, hstep w, writeAt_ctrl_congr _ bank h]

/-- Settles O33: a CTRL write with bit 0 clear is no command, and CTRL stores nothing; with bit 0 set it is the START. -/
theorem ctrlWritesAreDecidedByBitZero : Obligations.CtrlWritesAreDecidedByBitZero := by
  unfold Obligations.CtrlWritesAreDecidedByBitZero
  refine fun s ag v w => ⟨fun hv hag => ?_, fun h => ⟨step_ctrl_congr s .sd ag h, step_ctrl_congr s .lm ag h⟩⟩
  rcases hag with hag | hag
  · exact step_ctrl_of_clear (bank := .sd) hag hv
  · exact step_ctrl_of_clear (bank := .lm) hag hv

/-! ### The lock of a BUSY unit's bank -/

/-- The run state of the unit a bank belongs to (10_state.md R22, R33). -/
def State.unitState (s : State) : Bank → RunState
  | .sd => s.sd.state
  | .lm => s.lm.state

/-- A register write to the bank of a BUSY LM leaves its registers (43_host_interface.md R204). -/
theorem writeLm_of_busy (mw : Nat) {lm : LmRegs} (n : Nat) (v : Word) (hb : lm.state = .busy) :
    writeLm mw lm n v = lm := if_pos hb

/-- A register write to the bank of a BUSY unit is ignored (43_host_interface.md R204). -/
theorem writeReg_of_busy {s : State} {bank : Bank} (hb : s.unitState bank = .busy) (n : Nat) (v : Word) :
    writeReg s bank n v = s := by
  cases bank with
  | sd => rw [writeReg, (writeSd_state s.params s.sd n v).2.2 hb]
  | lm => rw [writeReg, writeLm_of_busy s.params.maxWords n v hb]

/-- A write to the bank of a BUSY unit is ignored, a START too (43_host_interface.md R204, R208). -/
theorem writeAt_of_busy {s : State} {bank : Bank} (hb : s.unitState bank = .busy) (n : Nat) (v : Word) :
    writeAt s bank n v = .next s := by
  rcases writeAt_cases s bank n v with ⟨rfl, -, -, e⟩ | ⟨rfl, -, -, e⟩ | e <;> rw [e]
  · exact if_pos hb
  · exact if_pos hb
  · rw [writeReg_of_busy hb]

/-- The step of a write to the bank of a BUSY unit takes it off the agenda. -/
theorem step_write_of_busy {s : State} {bank : Bank} {n : Nat} {v : Word} {ag : List Move}
    (hag : s.agenda = .write (.reg bank n) 32 v :: ag) (h1 : n < 128) (h4 : n % 4 = 0)
    (hb : s.unitState bank = .busy) : step s = .next { s with agenda := ag } := by
  have hb' : State.unitState { s with agenda := ag } bank = .busy := by cases bank <;> exact hb
  rw [step_write hag h1 h4, writeAt_of_busy hb']

/-- Settles O34: the write is carried out, and the BUSY unit's bank ignores it. -/
theorem configurationIsLockedWhileBusy : Obligations.ConfigurationIsLockedWhileBusy := by
  unfold Obligations.ConfigurationIsLockedWhileBusy
  refine fun s ag n v h1 h4 => ⟨fun hag hb => ?_, fun hag hb => ?_⟩
  · exact step_write_of_busy hag h1 h4 hb
  · exact step_write_of_busy hag h1 h4 hb

/-! ### Configuration registers -/

/-- A write to SD_STREAM_LEN when the SD is not BUSY (10_state.md R41). -/
theorem writeSd_streamLen (p : Params) {sd : SdRegs} (v : Word) (hb : sd.state ≠ .busy) :
    writeSd p sd 0x08 v = { sd with streamLen := fieldBits p.curW v } := if_neg hb

/-- A write to SD_START_CURSOR when the SD is not BUSY (10_state.md R41). -/
theorem writeSd_startCursor (p : Params) {sd : SdRegs} (v : Word) (hb : sd.state ≠ .busy) :
    writeSd p sd 0x0C v = { sd with startCursor := fieldBits p.curW v } := if_neg hb

/-- A write to SD_ULEN when the SD is not BUSY (10_state.md R41). -/
theorem writeSd_ulen (p : Params) {sd : SdRegs} (v : Word) (hb : sd.state ≠ .busy) :
    writeSd p sd 0x10 v = { sd with ulen := fieldBits p.lenW v } := if_neg hb

/-- A write to LM_LIMIT when the LM is not BUSY (10_state.md R44). -/
theorem writeLm_limit (mw : Nat) {lm : LmRegs} (v : Word) (hb : lm.state ≠ .busy) :
    writeLm mw lm 0x08 v = { lm with limit := v.setWidth 8 } := if_neg hb

/-- A write to LM_NWORDS when the LM is not BUSY (10_state.md R44). -/
theorem writeLm_nwords (mw : Nat) {lm : LmRegs} (v : Word) (hb : lm.state ≠ .busy) :
    writeLm mw lm 0x0C v = { lm with nwords := v.setWidth 8 } := if_neg hb

/-- The step of a write to a configuration register of the SD changes the SD's registers alone, as `writeSd` does. -/
theorem step_writeSd {s : State} {n : Nat} {v : Word} {ag : List Move} {sd : SdRegs}
    (hag : s.agenda = .write (.reg .sd n) 32 v :: ag) (hn : n ∈ [0x08, 0x0C, 0x10])
    (hw : writeSd s.params s.sd n v = sd) : step s = .next { s with agenda := ag, sd := sd } := by
  simp only [List.mem_cons, List.not_mem_nil, or_false] at hn
  rw [step_writeReg hag (by omega) (by omega) (by omega), writeReg, ← hw]

/-- The step of a write to a configuration register of the LM changes the LM's registers alone, as `writeLm` does. -/
theorem step_writeLm {s : State} {n : Nat} {v : Word} {ag : List Move} {lm : LmRegs}
    (hag : s.agenda = .write (.reg .lm n) 32 v :: ag) (hn : n ∈ [0x08, 0x0C])
    (hw : writeLm s.params.maxWords s.lm n v = lm) : step s = .next { s with agenda := ag, lm := lm } := by
  simp only [List.mem_cons, List.not_mem_nil, or_false] at hn
  rw [step_writeReg hag (by omega) (by omega) (by omega), writeReg, ← hw]

/-- An 8-bit field reads as the low bits that were stored (10_state.md R44). -/
theorem byteField_read_toNat (v : Word) : ((v.setWidth 8).setWidth 32).toNat = v.toNat % 2 ^ 8 := by
  rw [BitVec.toNat_setWidth_of_le (by decide), BitVec.toNat_setWidth]

/-- Settles O35: each of the five writes replaces its own field, which a read of that offset shows. -/
theorem configurationWritesStoreTheirField : Obligations.ConfigurationWritesStoreTheirField := by
  unfold Obligations.ConfigurationWritesStoreTheirField
  intro s ag v _
  refine ⟨fun hb hag => ?_, fun hb hag => ?_, fun hb hag => ?_, fun hb hag => ?_, fun hb hag => ?_⟩
  · exact ⟨_, step_writeSd hag (by decide) (writeSd_streamLen s.params v hb), fieldBits_toNat _ v, rfl, rfl⟩
  · exact ⟨_, step_writeSd hag (by decide) (writeSd_startCursor s.params v hb), fieldBits_toNat _ v, rfl, rfl⟩
  · exact ⟨_, step_writeSd hag (by decide) (writeSd_ulen s.params v hb), fieldBits_toNat _ v, rfl, rfl⟩
  · exact ⟨_, step_writeLm hag (by decide) (writeLm_limit s.params.maxWords v hb), BitVec.toNat_setWidth 8 v, rfl,
      byteField_read_toNat v⟩
  · exact ⟨_, step_writeLm hag (by decide) (writeLm_nwords s.params.maxWords v hb), BitVec.toNat_setWidth 8 v, rfl,
      byteField_read_toNat v⟩

/-! ### Reads -/

/-- The read that ends a loan is that of `SD_STATUS` in state DONE (20_memory.md R76; log entry 11). -/
theorem endsLoan_iff (s : State) (bank : Bank) (n : Nat) :
    endsLoan s bank n = true ↔ bank = .sd ∧ n = 0x04 ∧ s.sd.state = .done := by
  simp [endsLoan, and_assoc]

/-- What a register reads as does not depend on the moves to come. -/
theorem readReg_agenda (s : State) (ag : List Move) (bank : Bank) (n : Nat) :
    readReg { s with agenda := ag } bank n = readReg s bank n := by
  cases bank <;> rfl

/-- Settles O39: the read returns the register's value, and ends the loan just when it returns DONE. -/
theorem readsHaveNoSideEffect : Obligations.ReadsHaveNoSideEffect := by
  unfold Obligations.ReadsHaveNoSideEffect
  intro s ag bank n h1 h4 hag
  rw [step_read hag h1 h4]
  simp only [readAt, readReg_agenda, endsLoan_iff]

end Sys2Proof.Machine
end

section
/-! PROOFS of the family 60_exceptions.md: the turn of a unit that is not BUSY, and what the units share. -/

namespace Sys2Proof.Machine

/-- Settles O13: the step is the unit's turn, which returns at once when the unit is not BUSY. -/
theorem aUnitThatIsNotBusyTakesNoStep : Obligations.AUnitThatIsNotBusyTakesNoStep := by
  unfold Obligations.AUnitThatIsNotBusyTakesNoStep
  intro s ag
  constructor
  · intro hag hb
    rw [step_of_agenda hag]
    exact sdMove_of_not_busy hb
  · intro hag hb
    rw [step_of_agenda hag]
    exact lmMove_of_not_busy hb

/-- Settles O46: the frame of an instruction, whose two alternatives are told apart by the instruction's unit. -/
theorem theUnitsShareNoState : Obligations.TheUnitsShareNoState := by
  unfold Obligations.TheUnitsShareNoState
  intro s t i h
  obtain ⟨-, hparams, haccepted, hread, hagenda, hsd, hlm⟩ := exec_frame h
  exact ⟨fun hi => hsd.resolve_right (not_not_intro hi), fun hi => hlm.resolve_right hi,
    hparams, haccepted, hread, hagenda⟩

end Sys2Proof.Machine
end

section
/-! PROOFS of the family 70_reset_and_hazards.md: the reset event, whose registers are the reset values of the instance at
hand, and the runs it aborts. -/

namespace Sys2Proof.Machine

/-- Under the LM's invariant, its reset registers for `MAX_WORDS` words are those of the reset state with every window word
it has cleared (10_state.md R48). -/
theorem LmRegs.Inv.reset_eq {p : Params} {lm : LmRegs} (hI : lm.Inv p) :
    LmRegs.reset p.maxWords = { State.reset.lm with w := lm.w.map (fun _ => 0) } := by
  rw [List.map_const', hI.words]
  rfl

/-- A run whose next step leaves its unit IDLE has no observation, however long one waits (00_scope.md R14). -/
theorem runOutcome_of_aborted {α : Type} {bank : Bank} {obs : State → α} {s t : State} (hb : unitState bank s = .busy)
    (h : step s = .next t) (hidle : unitState bank t = .idle) (n : Nat) : runOutcome bank obs n s = none := by
  cases n with
  | zero => simp [runOutcome, hb]
  | succ n => rw [runOutcome_of_busy hb h, runOutcome_of_idle hidle]

/-- Settles O50: the step is the reset event, whose fields say what it changes and leaves; it makes both units IDLE, so a
run that was BUSY is aborted. -/
theorem theResetEvent : Obligations.TheResetEvent := by
  unfold Obligations.TheResetEvent
  intro s ag hI hag
  have hstep : step s = .next (resetEvent { s with agenda := ag }) := step_of_agenda hag
  exact ⟨_, hstep, rfl, hI.lm.reset_eq, rfl, rfl, rfl, rfl, rfl, rfl, rfl, fun n =>
    ⟨fun hb => runOutcome_of_aborted (bank := .sd) hb hstep rfl n,
      fun hb => runOutcome_of_aborted (bank := .lm) hb hstep rfl n⟩⟩

end Sys2Proof.Machine
end
